-- ==== Sys2Proof/Word.lean ====
section
/-! DEFINITION. The plain words of the BBSPI block: bytes, command words, line levels (R9, R10, R12). -/

namespace Sys2Proof

/-- A data byte, a peer register address or a checksum: 8 bits, unsigned (R9, R10). -/
abbrev Byte := BitVec 8

/-- The 32-bit command word a host issues (R90). -/
abbrev CommandWord := BitVec 32

/-- The level of a line: `false` is 0 (low), `true` is 1 (high) (R12). -/
abbrev Level := Bool

end Sys2Proof
end

