-- ==== Sys2Proof/Syntax.lean ====
section
/-! DEFINITION. The abstract commands of the block, one constructor per row of spec/opcode_table.json, and the two
encodings a row's bits can have (R5, R90, R92, R100). -/

namespace Sys2Proof

/-- The three checksum modes (R13, R29). The reserved code `0b11` names no mode. -/
inductive ChecksumMode where
  /-- no checksum, no trailer -/
  | off
  /-- running exclusive or -/
  | xor
  /-- CRC-8, polynomial 0x07 -/
  | crc
  deriving DecidableEq, Repr

/-- The rows of the opcode table: the fourteen commands of R92, and the two address bytes of R100.
A length or index operand is the 4-bit field as the word carries it; `Instr.wf` says which values are legal. -/
inductive Instr where
  /-- `SE_SEND byte` (R130) -/
  | seSend (byte : Byte)
  /-- `SE_TICK` (R131) -/
  | seTick
  /-- `SE_READ` (R132) -/
  | seRead
  /-- `CK_NEW mode` (R170) -/
  | ckNew (mode : ChecksumMode)
  /-- `CK_FEED byte` (R171) -/
  | ckFeed (byte : Byte)
  /-- `CK_RESULT` (R172) -/
  | ckResult
  /-- `SE_XFER len` (R141) -/
  | seXfer (len : BitVec 4)
  /-- `FR_RAW len` (R244) -/
  | frRaw (len : BitVec 4)
  /-- `FR_READ addr, len` (R242) -/
  | frRead (addr : Byte) (len : BitVec 4)
  /-- `FR_WRITE addr, len` (R243) -/
  | frWrite (addr : Byte) (len : BitVec 4)
  /-- `FR_SETMODE mode` (R247) -/
  | frSetMode (mode : ChecksumMode)
  /-- `FR_GETMODE` (R250) -/
  | frGetMode
  /-- `BUF_WR idx, byte` (R248) -/
  | bufWr (idx : BitVec 4) (byte : Byte)
  /-- `BUF_RD idx` (R249) -/
  | bufRd (idx : BitVec 4)
  /-- The address byte of a read frame, `addr or 0x40`, which `FR_READ` sends (R100, table row `WIRE_READ_ADDR`) -/
  | wireReadAddr (addr : Byte)
  /-- The address byte of a write frame, `addr` unchanged, which `FR_WRITE` sends (R100, table row `WIRE_WRITE_ADDR`) -/
  | wireWriteAddr (addr : Byte)
  deriving DecidableEq, Repr

/-- The two encodings the spec has: a host's command word, which the block reads (R90), and an address byte of the link,
which the peer reads (R100). -/
inductive Code where
  | command (w : CommandWord)
  | address (b : Byte)
  deriving DecidableEq, Repr

end Sys2Proof
end

