-- ==== Sys2Proof/WellFormed.lean ====
section
/-! DEFINITION. Which operand values a command word may carry (R94, R95), and which address bytes are in the form the
link decoder gives them (R100). -/

namespace Sys2Proof

/-- A transfer or payload length is 1 to 15 (R94, R95). -/
def lenLegal (len : BitVec 4) : Bool := len != 0

/-- A buffer index is 0 to 14; 15 names no element (R94, R95). -/
def idxLegal (idx : BitVec 4) : Bool := idx != 15

/-- Well-formed instructions: exactly those that have an encoding. For the address rows the operand is the address
without the read bit, which the row's direction supplies (R100). -/
def Instr.wf : Instr → Bool
  | .seSend _ => true
  | .seTick => true
  | .seRead => true
  | .ckNew _ => true
  | .ckFeed _ => true
  | .ckResult => true
  | .seXfer len => lenLegal len
  | .frRaw len => lenLegal len
  | .frRead _ len => lenLegal len
  | .frWrite _ len => lenLegal len
  | .frSetMode _ => true
  | .frGetMode => true
  | .bufWr idx _ => idxLegal idx
  | .bufRd idx => idxLegal idx
  | .wireReadAddr addr => !addr.getLsbD 6
  | .wireWriteAddr addr => !addr.getLsbD 6

end Sys2Proof
end

