-- ==== Sys2Proof/Decode.lean ====
section
/-! DEFINITION. The decoder of command words and address bytes (R90 to R97, R100), total, rejecting by name, and the
encoder, written from the encodings of R93 and R100. -/

namespace Sys2Proof

/-- Why a command word is illegal (R94, R96). Every one of them is answered `ILLEGAL_COMMAND` by the machine (R335). -/
inductive Illegal where
  /-- `RSV1` (bits 31:20) or `RSV0` (bits 7:6) is not 0 -/
  | reservedBits
  /-- a field the command does not use is not 0 -/
  | unusedField
  /-- `MODE` is 0b11 where a mode is decoded -/
  | reservedMode
  /-- `LEN` is 0 for a transfer or payload -/
  | zeroLength
  /-- index 15 for a buffer access -/
  | badIndex
  /-- `OP` is 0xE or 0xF -/
  | reservedOp
  deriving DecidableEq, Repr

/-- `OP`, bits 3:0 (R90). -/
def opField (w : CommandWord) : BitVec 4 := w.extractLsb' 0 4
/-- `MODE`, bits 5:4 (R90). -/
def modeField (w : CommandWord) : BitVec 2 := w.extractLsb' 4 2
/-- `RSV0`, bits 7:6 (R90). -/
def rsv0Field (w : CommandWord) : BitVec 2 := w.extractLsb' 6 2
/-- `BYTE`, bits 15:8 (R90). -/
def byteField (w : CommandWord) : Byte := w.extractLsb' 8 8
/-- `LEN`, bits 19:16 (R90). -/
def lenField (w : CommandWord) : BitVec 4 := w.extractLsb' 16 4
/-- `RSV1`, bits 31:20 (R90). -/
def rsv1Field (w : CommandWord) : BitVec 12 := w.extractLsb' 20 12

/-- The 2-bit code of a mode (R13). -/
def modeCode : ChecksumMode → BitVec 2
  | .off => 0
  | .xor => 1
  | .crc => 2

/-- `decode_mode` (R91), with the reserved code 0b11 refused (R94). -/
def decodeMode (m : BitVec 2) : Except Illegal ChecksumMode :=
  if m = 0 then .ok .off
  else if m = 1 then .ok .xor
  else if m = 2 then .ok .crc
  else .error .reservedMode

/-- Answer `i` when the condition holds, else the named reason: the `require` of R97. -/
def require (c : Bool) (why : Illegal) (i : Instr) : Except Illegal Instr :=
  if c then .ok i else .error why

/-- The decoder of R97, operation code by operation code, once the reserved bits are known to be 0. -/
def decodeFields (op : BitVec 4) (mode : BitVec 2) (byte : Byte) (len : BitVec 4) : Except Illegal Instr :=
  match op.toNat with
  | 0x0 => require (mode == 0 && len == 0) .unusedField (.seSend byte)
  | 0x1 => require (mode == 0 && byte == 0 && len == 0) .unusedField .seTick
  | 0x2 => require (mode == 0 && byte == 0 && len == 0) .unusedField .seRead
  | 0x3 => if byte == 0 && len == 0 then (decodeMode mode).map .ckNew else .error .unusedField
  | 0x4 => require (mode == 0 && len == 0) .unusedField (.ckFeed byte)
  | 0x5 => require (mode == 0 && byte == 0 && len == 0) .unusedField .ckResult
  | 0x6 =>
    if mode == 0 && byte == 0 then require (lenLegal len) .zeroLength (.seXfer len) else .error .unusedField
  | 0x7 =>
    if mode == 0 && byte == 0 then require (lenLegal len) .zeroLength (.frRaw len) else .error .unusedField
  | 0x8 => if mode == 0 then require (lenLegal len) .zeroLength (.frRead byte len) else .error .unusedField
  | 0x9 => if mode == 0 then require (lenLegal len) .zeroLength (.frWrite byte len) else .error .unusedField
  | 0xA => if byte == 0 && len == 0 then (decodeMode mode).map .frSetMode else .error .unusedField
  | 0xB => require (mode == 0 && byte == 0 && len == 0) .unusedField .frGetMode
  | 0xC => if mode == 0 then require (idxLegal len) .badIndex (.bufWr len byte) else .error .unusedField
  | 0xD =>
    if mode == 0 && byte == 0 then require (idxLegal len) .badIndex (.bufRd len) else .error .unusedField
  | _ => .error .reservedOp

/-- `decode(w)` (R97): the reserved bits first, then the operation code. -/
def decodeCommand (w : CommandWord) : Except Illegal Instr :=
  if rsv1Field w == 0 && rsv0Field w == 0 then
    decodeFields (opField w) (modeField w) (byteField w) (lenField w)
  else .error .reservedBits

/-- An address byte as the link carries it: bit 6 is the read bit, the other bits are the address (R100). -/
def decodeAddress (b : Byte) : Instr :=
  if b.getLsbD 6 then .wireReadAddr (b &&& 0xBF) else .wireWriteAddr b

/-- The decoder of both encodings; it is total. -/
def decode : Code → Except Illegal Instr
  | .command w => decodeCommand w
  | .address b => .ok (decodeAddress b)

/-- A command word from its fields, reserved bits 0 (R90). -/
def commandWord (op : BitVec 4) (mode : BitVec 2) (byte : Byte) (len : BitVec 4) : CommandWord :=
  (0 : BitVec 12) ++ len ++ byte ++ (0 : BitVec 2) ++ mode ++ op

/-- The encoder: the bit patterns of R93 and the address bytes of R100. -/
def encode : Instr → Code
  | .seSend byte => .command (commandWord 0x0 0 byte 0)
  | .seTick => .command (commandWord 0x1 0 0 0)
  | .seRead => .command (commandWord 0x2 0 0 0)
  | .ckNew mode => .command (commandWord 0x3 (modeCode mode) 0 0)
  | .ckFeed byte => .command (commandWord 0x4 0 byte 0)
  | .ckResult => .command (commandWord 0x5 0 0 0)
  | .seXfer len => .command (commandWord 0x6 0 0 len)
  | .frRaw len => .command (commandWord 0x7 0 0 len)
  | .frRead addr len => .command (commandWord 0x8 0 addr len)
  | .frWrite addr len => .command (commandWord 0x9 0 addr len)
  | .frSetMode mode => .command (commandWord 0xA (modeCode mode) 0 0)
  | .frGetMode => .command (commandWord 0xB 0 0 0)
  | .bufWr idx byte => .command (commandWord 0xC 0 byte idx)
  | .bufRd idx => .command (commandWord 0xD 0 0 idx)
  | .wireReadAddr addr => .address (addr ||| 0x40)
  | .wireWriteAddr addr => .address addr

/-- The delivery a row of spec/opcode_table.json stands for: a row of one byte is an address byte of the link, every
other row is a command word. -/
def tableCode (nbits w : Nat) : Code :=
  if nbits ≤ 8 then .address (BitVec.ofNat 8 w) else .command (BitVec.ofNat 32 w)

/-- The instruction the decoder reads from the bits `w` of a table row of `nbits` bits; `none` where it refuses. -/
def decodeTableWord (nbits w : Nat) : Option Instr :=
  (decode (tableCode nbits w)).toOption

end Sys2Proof
end

