-- ==== Sys2Proof/Config.lean ====
section
/-! DEFINITION. The open parameters of the spec (R9, R202, R213, R214, R297) and the free value of the peer oracle
(R36): constants without a body, so that no proof can rest on a value of one. A layout's type holds only the layouts the spec allows,
so every value a layout constant could have is one of them. -/

namespace Sys2Proof

/-- The two bases the spec allows for FiltCon (R202). -/
inductive FiltConBase where
  | base28
  | base80
  deriving DecidableEq, Repr, Inhabited

/-- Where a field of a peer register lies: its lowest bit, counted in the big-endian value of the payload, and its
width (R213, R214). -/
structure FieldPos where
  lo : Nat
  width : Nat
  deriving DecidableEq, Repr

/-- The place of a one-bit field. -/
def flagPos (bit : Nat) : FieldPos := ⟨bit, 1⟩

/-- The field lies inside a register of `n` bits. -/
def FieldPos.inside (p : FieldPos) (n : Nat) : Bool := p.lo + p.width ≤ n

/-- The two fields share no bit. -/
def FieldPos.apart (p q : FieldPos) : Bool := p.lo + p.width ≤ q.lo || q.lo + q.width ≤ p.lo

/-- Fields that can be read back as written: each inside a register of `n` bits, no two sharing a bit (R215). -/
def disjointFields (n : Nat) : List FieldPos → Bool
  | [] => true
  | p :: rest => p.inside n && rest.all p.apart && disjointFields n rest

/-- A layout of Channel (R213, R297). The spec gives no position, so the default values choose nothing: they only show
that there is a layout (they are those of G9, informative). -/
structure ChannelLayout where
  /-- `P_CH_EN_POS`: the enabled flag -/
  en : Nat := 15
  /-- `P_CH_SETUP_POS`: setup-select -/
  setup : FieldPos := ⟨12, 2⟩
  /-- `P_CH_AINPOS_POS`: the positive input selector -/
  ainPos : FieldPos := ⟨5, 5⟩
  /-- `P_CH_AINNEG_POS`: the negative input selector -/
  ainNeg : FieldPos := ⟨0, 5⟩
  /-- "bit 7", of one of the two bytes (R213) -/
  enabledBit7 : (en = 15 ∨ en = 7) := by decide
  /-- setup-select holds a setup index, 0 to 3 (R297; DEDUCED, notes/assumptions/11.md) -/
  setupHoldsIndex : 2 ≤ setup.width := by decide
  disjoint : disjointFields 16 [flagPos en, setup, ainPos, ainNeg] = true := by decide
  deriving DecidableEq, Repr, Inhabited

/-- A layout of SetupCon (R214); the default values choose nothing, as of `ChannelLayout`. -/
structure SetupConLayout where
  bipolar : Nat := 12
  refBuf : FieldPos := ⟨10, 2⟩
  refSel : FieldPos := ⟨4, 2⟩
  disjoint : disjointFields 16 [flagPos bipolar, refBuf, refSel] = true := by decide
  deriving DecidableEq, Repr, Inhabited

/-- A layout of FiltCon (R214); the default values choose nothing, as of `ChannelLayout`. -/
structure FiltConLayout where
  enhanced : Nat := 11
  rate : FieldPos := ⟨8, 3⟩
  order : FieldPos := ⟨5, 2⟩
  disjoint : disjointFields 16 [flagPos enhanced, rate, order] = true := by decide
  deriving DecidableEq, Repr, Inhabited

/-- A layout of GpioCon (R214), whose size in bytes is open too (U6): any length a frame can carry. The default values
choose nothing, as of `ChannelLayout`. -/
structure GpioConLayout where
  bytes : Nat := 2
  syncEn : Nat := 11
  sizeLegal : 1 ≤ bytes ∧ bytes ≤ 15 := by decide
  inside : syncEn < 8 * bytes := by decide
  deriving DecidableEq, Repr, Inhabited

namespace Config

/-- `P_LINE_FAULT` (R9, R336): whether a line operation of this hardware can fail at all. OPEN. -/
opaque pLineFault : Bool

/-- `P_FILTCON_BASE` (R9, R202): 0x28 or 0x80. OPEN. -/
opaque pFiltconBase : FiltConBase

/-- The peer oracle (R36): the level the peer presents at its n-th answer beyond the script that the state holds.
A free value: nothing constrains it. -/
opaque misoLevel : Nat → Level

/-- Channel's field positions `P_CH_EN_POS`, `P_CH_SETUP_POS`, `P_CH_AINPOS_POS` and `P_CH_AINNEG_POS` (R213). OPEN. -/
opaque pChannelLayout : ChannelLayout
/-- SetupCon's field positions (R214). OPEN. -/
opaque pSetupConLayout : SetupConLayout
/-- FiltCon's field positions (R214). OPEN. -/
opaque pFiltConLayout : FiltConLayout
/-- GpioCon's size and field position (R214, U6). OPEN. -/
opaque pGpioConLayout : GpioConLayout
/-- `P_SETUPCON_DEFAULT`, the default SetupCon payload as a big-endian value (R297). OPEN. -/
opaque pSetupconDefault : BitVec 16
/-- `P_FILTCON_DEFAULT`, the default FiltCon payload as a big-endian value (R297). OPEN. -/
opaque pFiltconDefault : BitVec 16

end Config

end Sys2Proof
end

