-- ==== Sys2Proof/Machine/State.lean ====
section
/-! DEFINITION. Everything the spec gives the BBSPI block to hold (R20 to R39), the reasons a step can stop, and the
state after reset (R39, R370, R371). -/

namespace Sys2Proof.Machine

/-- Reasons for the machine to stop with a fault. There is none: every error of the block is a result code of the
command that met it, and the block goes on (R332, R341); `INVARIANT_FAULT` is such a code (R337). Safe. -/
inductive Fault where
  deriving DecidableEq, Repr

/-- Reasons for the model to refuse. -/
inductive Refusal where
  /-- An instruction without a meaning; no arm of `exec` raises it. Safe. -/
  | notModelled (mnemonic : String)
  /-- A host sequence computed a channel register's address from an index outside 0..3: the caller's contract is
  broken and the spec has a model refuse it (R201, R393, U4). Raised by the host sequence `setupChannel`, never by a
  command. Safe. -/
  | channelIndexOutOfRange
  deriving DecidableEq, Repr

/-- `SE` (R23): no transfer in progress, or one byte in flight. -/
inductive Engine where
  /-- no transfer in progress -/
  | idle
  /-- mid-transfer: `phase` false = the next tick is the data-setup phase; `mask` marks the bit being shifted; `tx` is
  the byte being sent; `rx` is the input accumulator -/
  | xfer (phase : Bool) (mask tx rx : Byte)
  deriving DecidableEq, Repr

/-- The three output lines (R27). -/
inductive Line where
  /-- `CS_N`, active low, driven by the framer alone -/
  | csN
  /-- `SCK`, driven by the shift engine alone -/
  | sck
  /-- `MOSI`, driven by the shift engine alone -/
  | mosi
  deriving DecidableEq, Repr

/-- An entry of the event log (R35): an output line driven, or `MISO` sampled. -/
inductive Event where
  | drive (l : Line) (b : Level)
  | sample (b : Level)
  deriving DecidableEq, Repr

/-- The result codes (R330). Codes 7 to 15 are never produced and have no constructor (U12). -/
inductive ResultCode where
  | ok
  | wouldBlock
  | exhausted
  | checksumMismatch
  | transportError
  | illegalCommand
  | invariantFault
  deriving DecidableEq, Repr

/-- A shift-engine state that the shift-engine rules can reach, by how it is reached (R135): idle with any published
byte, or `ticks` half-phases into sending `tx`, the samples taken so far being those bits of `samples`. -/
inductive EngineDraw where
  | idle (published : Option Byte)
  | xfer (ticks : Fin 16) (tx samples : Byte)
  deriving DecidableEq, Repr

/-- What a failing line operation leaves behind (R336): the failing line at any level, the shift engine in any state
reachable by its rules, and whether the event log shows the operation. -/
structure LineFailure where
  level : Level
  engine : EngineDraw
  logged : Bool
  deriving DecidableEq, Repr

/-- What happens around the block, one at a time. The host has two moves and no other (R348): it issues a command word, or
it asserts reset. The third is the peer's, which shares nothing with the block but the lines (R4): it takes a frame's first
byte for an address byte (R100). -/
inductive Stimulus where
  | issue (w : CommandWord)
  | reset
  | peerTakes (addressByte : Byte)
  deriving DecidableEq, Repr

/-- Who reads an encoding: a command word is the host's to issue (R90), an address byte the peer's to take (R100). -/
def Stimulus.ofCode : Code → Stimulus
  | .command w => .issue w
  | .address b => .peerTakes b

/-- The state of the block (R20 to R35), and the outside world's inputs still to come (the last four fields, the
model's own). Plain data. -/
structure State where
  /-- `SE` (R23) -/
  se : Engine
  /-- `RXP`, the published byte (R26) -/
  rxp : Option Byte
  /-- `SCK` (R27) -/
  sck : Level
  /-- `MOSI` (R27) -/
  mosi : Level
  /-- `CS_N`, active low (R12, R27) -/
  csN : Level
  /-- `CK_MODE` (R29) -/
  ckMode : ChecksumMode
  /-- `CK_STATE` (R29) -/
  ckState : Byte
  /-- `CUR_MODE` (R31) -/
  curMode : ChecksumMode
  /-- `BUF[0..14]` (R32) -/
  buf : Vector Byte 15
  /-- `RSP_CODE` (R33, R330) -/
  rspCode : ResultCode
  /-- `RSP_DATA` (R33) -/
  rspData : Option Byte
  /-- `RSP_EXP` (R33) -/
  rspExp : Option Byte
  /-- `RSP_RCV` (R33) -/
  rspRcv : Option Byte
  /-- `FAULTED` (R34) -/
  faulted : Bool
  /-- `EVT`, oldest event first (R35) -/
  evt : List Event
  /-- what the host will do, next first (R240, R397), and where the peer takes an address byte (R100) -/
  input : List Stimulus
  /-- the peer's scripted answers, next first (R36); beyond them the peer's level is free -/
  miso : List Level
  /-- how many free answers the peer has given (R36) -/
  samples : Nat
  /-- for each line operation to come, whether and how the line layer would fail it (R336); beyond the list, none -/
  lineDraws : List (Option LineFailure)
  deriving DecidableEq, Repr

/-- The state after reset (R39, R371): no stimulus waiting, no scripted peer answer, no line failure drawn. -/
def State.reset : State where
  se := .idle
  rxp := none
  sck := true
  mosi := false
  csN := true
  ckMode := .off
  ckState := 0
  curMode := .off
  buf := Vector.replicate 15 0
  rspCode := .ok
  rspData := none
  rspExp := none
  rspRcv := none
  faulted := false
  evt := []
  input := []
  miso := []
  samples := 0
  lineDraws := []

end Sys2Proof.Machine
end

