-- ==== Sys2Proof/Machine/Flags.lean ====
section
/-! DEFINITION. The status the block reports. It has no condition codes (R22); its status is the response registers
(R33), the published-byte flag (R26) and the numbers a host reads for them. -/

namespace Sys2Proof.Machine

/-- The 4-bit number of a result code in `RSP_CODE` (R330). -/
def resultNumber : ResultCode → BitVec 4
  | .ok => 0
  | .wouldBlock => 1
  | .exhausted => 2
  | .checksumMismatch => 3
  | .transportError => 4
  | .illegalCommand => 5
  | .invariantFault => 6

/-- `RX_VALID` (R26): 1 iff a byte is published and not yet read. -/
def rxValid (s : State) : Bool := s.rxp.isSome

/-- `RX_DATA` (R26): the published byte, where there is one. -/
def rxData (s : State) : Option Byte := s.rxp

/-- The byte `FR_GETMODE` answers for a mode: 0x00, 0x01, 0x02 (R13, R250). -/
def modeByte : ChecksumMode → Byte
  | .off => 0x00
  | .xor => 0x01
  | .crc => 0x02

/-- The masks a transfer in progress may have: a single set bit (R24). -/
def maskLegal (mask : Byte) : Bool :=
  mask == 0x80 || mask == 0x40 || mask == 0x20 || mask == 0x10 ||
  mask == 0x08 || mask == 0x04 || mask == 0x02 || mask == 0x01

end Sys2Proof.Machine
end

