-- ==== Sys2Proof/Machine/Operands.lean ====
section
/-! DEFINITION. How operands and frames are assembled: the address byte, the checksum mode of a frame, its trailer slot
and its payload slots (R91, R100 to R102, R245, R246). -/

namespace Sys2Proof.Machine

/-- The read bit of an address byte (R9, R100). -/
def readBit : Byte := 0x40

/-- The address byte of a read frame: the address with the read bit set (R100). -/
def readAddress (addr : Byte) : Byte := addr ||| readBit

/-- The address byte of a write frame: the address unchanged, neither masked nor checked (R100). -/
def writeAddress (addr : Byte) : Byte := addr

/-- The checksum mode of a write frame: CRC whenever the current mode is not `Off` (R246). -/
def writeMode : ChecksumMode → ChecksumMode
  | .off => .off
  | .xor => .crc
  | .crc => .crc

/-- How many trailer bytes a frame of this checksum mode has, `t` of R101. -/
def trailerLength : ChecksumMode → Nat
  | .off => 0
  | .xor => 1
  | .crc => 1

/-- The bytes a read frame drives: address byte, zeroed payload, zero in the trailer slot (R102, R242). -/
def readFrame (m : ChecksumMode) (addr : Byte) (n : Nat) : List Byte :=
  readAddress addr :: (List.replicate n 0 ++ List.replicate (trailerLength m) 0)

/-- The bytes a write frame drives: address byte, payload, and the checksum if there is one (R102, R243). -/
def writeFrame (addr : Byte) (payload : List Byte) (checksum : Option Byte) : List Byte :=
  writeAddress addr :: (payload ++ checksum.toList)

/-- The payload bytes of a received read frame: the address slot is discarded (R242). -/
def receivedPayload (n : Nat) (frame : List Byte) : List Byte := (frame.drop 1).take n

/-- The trailer byte of a received read frame, absent when the mode has none (R242). -/
def receivedTrailer (m : ChecksumMode) (n : Nat) (frame : List Byte) : Option Byte :=
  match m with
  | .off => none
  | .xor => frame[n + 1]?
  | .crc => frame[n + 1]?

end Sys2Proof.Machine
end

