-- ==== Sys2Proof/Machine/Ops.lean ====
section
/-! DEFINITION. The shared operations of the block: line operations and their failure (R11, R35, R336), the shift
engine's send, tick and read and the synchronous transfer built on them (R130 to R132, R140), the checksum accumulator
(R170 to R172), the frame buffer (R32), and the reporting of results (R330 to R332), which takes the place of trap
entry and return. -/

namespace Sys2Proof.Machine

/-- How an operation inside a command ends: with a value, or by raising a result code (R11 `raise`). Either way with
the state it leaves. -/
inductive Res (α : Type) where
  | ok (a : α) (s : State)
  | stop (e : ResultCode) (s : State)

/-- Go on with the value and the state, or pass the raised code on. -/
def Res.bind {α β : Type} (r : Res α) (k : α → State → Res β) : Res β :=
  match r with
  | .ok a s => k a s
  | .stop e s => .stop e s

/-! ## Lines -/

/-- Append one entry to the event log (R35). -/
def logEvent (e : Event) (s : State) : State := { s with evt := s.evt ++ [e] }

/-- An output line holds the level last driven (R27). -/
def setLine (l : Line) (b : Level) (s : State) : State :=
  match l with
  | .csN => { s with csN := b }
  | .sck => { s with sck := b }
  | .mosi => { s with mosi := b }

/-- Whether the next line operation fails, and how: the environment's draw, which counts only where the hardware's
lines can fail (R336). -/
def lineFailure (s : State) : Option LineFailure :=
  match s.lineDraws with
  | some f :: _ => if Config.pLineFault then some f else none
  | _ => none

/-- The draw of one line operation is used up. -/
def popDraw (s : State) : State := { s with lineDraws := s.lineDraws.tail }

/-- The shift-engine state a draw names (R135, R24): after `ticks` half-phases the mask has moved `ticks / 2` places
and only the bits above it have been received. -/
def drawnEngine : EngineDraw → Engine
  | .idle _ => .idle
  | .xfer ticks tx samples =>
    .xfer (ticks.val % 2 == 1) ((0x80 : Byte) >>> (ticks.val / 2)) tx
      (samples &&& ((0xFF : Byte) <<< (8 - ticks.val / 2)))

/-- The published byte that goes with it: there is none while a transfer is in progress (R130, R131). -/
def drawnRxp : EngineDraw → Option Byte
  | .idle published => published
  | .xfer _ _ _ => none

/-- The shift engine after a failed line operation (R336). -/
def disturbEngine (f : LineFailure) (s : State) : State :=
  { s with se := drawnEngine f.engine, rxp := drawnRxp f.engine }

/-- The state a failed `drive` leaves (R336): the line at any level, the shift engine as drawn. -/
def failedDrive (l : Line) (f : LineFailure) (s : State) : State :=
  let s1 := setLine l f.level (disturbEngine f s)
  if f.logged then logEvent (.drive l f.level) s1 else s1

/-- The state a failed `sample` leaves (R336). `MISO` is an input and no level of it is held. -/
def failedSample (f : LineFailure) (s : State) : State :=
  let s1 := disturbEngine f s
  if f.logged then logEvent (.sample f.level) s1 else s1

/-- `drive(L, b)` (R11): set the line and log the event, or fail with `TRANSPORT_ERROR` (R336). -/
def drive (l : Line) (b : Level) (s : State) : Res Unit :=
  match lineFailure s with
  | some f => .stop .transportError (failedDrive l f (popDraw s))
  | none => .ok () (logEvent (.drive l b) (setLine l b (popDraw s)))

/-- The level the peer presents next: the script's, or a free one beyond it (R36). -/
def peerLevel (s : State) : Level :=
  match s.miso with
  | b :: _ => b
  | [] => Config.misoLevel s.samples

/-- The peer's answer is used up. -/
def popPeer (s : State) : State :=
  match s.miso with
  | _ :: rest => { s with miso := rest }
  | [] => { s with samples := s.samples + 1 }

/-- `sample()` (R11): take the peer's level and log it, or fail with `TRANSPORT_ERROR` (R336). -/
def sample (s : State) : Res Level :=
  match lineFailure s with
  | some f => .stop .transportError (failedSample f (popDraw s))
  | none => .ok (peerLevel s) (logEvent (.sample (peerLevel s)) (popPeer (popDraw s)))

/-! ## Shift engine -/

/-- `send(byte)` (R130): refused (`none`) while a transfer is in progress; a byte published but unread is lost. -/
def send (byte : Byte) (s : State) : Option State :=
  match s.se with
  | .xfer _ _ _ _ => none
  | .idle => some { s with se := .xfer false 0x80 byte 0, rxp := none }

/-- The engine after the setup half-phase of a bit (R131). -/
def setupTick (mask tx rx : Byte) (s : State) : Res Unit :=
  (drive .mosi (tx &&& mask != 0) s).bind fun _ s1 =>
  (drive .sck false s1).bind fun _ s2 =>
  .ok () { s2 with se := .xfer true mask tx rx }

/-- The input accumulator with the sampled level ORed in at the mask (R131). -/
def receiveBit (mask rx : Byte) (b : Level) : Byte := if b then rx ||| mask else rx

/-- The engine after the sample half-phase of a bit: publish after the last bit, else go on to the next (R131). -/
def sampleTick (mask tx rx : Byte) (s : State) : Res Unit :=
  (drive .sck true s).bind fun _ s1 =>
  (sample s1).bind fun b s2 =>
  if mask = 0x01 then .ok () { s2 with se := .idle, rxp := some (receiveBit mask rx b) }
  else .ok () { s2 with se := .xfer false (mask >>> 1) tx (receiveBit mask rx b) }

/-- A broken engine invariant: `FAULTED` is set and the command ends (R337). -/
def invariantFault {α : Type} (s : State) : Res α := .stop .invariantFault { s with faulted := true }

/-- `tick()` (R131): one clock half-phase; nothing while idle. -/
def tick (s : State) : Res Unit :=
  match s.se with
  | .idle => .ok () s
  | .xfer phase mask tx rx =>
    if maskLegal mask then
      if phase then sampleTick mask tx rx s else setupTick mask tx rx s
    else invariantFault s

/-- The outcomes of `read()` (R132). -/
inductive ReadAnswer where
  | byte (v : Byte) (s : State)
  | wouldBlock
  | exhausted

/-- `read()` (R132): the transfer in progress comes first, then the published byte, which is consumed. -/
def read (s : State) : ReadAnswer :=
  match s.se with
  | .xfer _ _ _ _ => .wouldBlock
  | .idle =>
    match s.rxp with
    | some v => .byte v { s with rxp := none }
    | none => .exhausted

/-! ## Synchronous transfer

A byte has 16 half-phases (R135), so 16 ticks bring any transfer in progress to its end and the retries of R140 need no
more. The delay between ticks changes no state and is not modelled (R140, R380). -/

/-- Submit a byte, ticking while the engine would block (R140, first loop), at most `retries` times. -/
def submit (retries : Nat) (byte : Byte) (s : State) : Res Unit :=
  match send byte s with
  | some s1 => .ok () s1
  | none =>
    match retries with
    | 0 => .stop .wouldBlock s
    | n + 1 => (tick s).bind fun _ s1 => submit n byte s1

/-- Collect the received byte, ticking while the engine would block (R140, second loop), at most `retries` times. -/
def collect (retries : Nat) (s : State) : Res Byte :=
  match read s with
  | .byte v s1 => .ok v s1
  | .exhausted => .stop .exhausted s
  | .wouldBlock =>
    match retries with
    | 0 => .stop .wouldBlock s
    | n + 1 => (tick s).bind fun _ s1 => collect n s1

/-- `xfer_byte(b)` (R140). -/
def xferByte (byte : Byte) (s : State) : Res Byte :=
  (submit 16 byte s).bind fun _ s1 => collect 16 s1

/-- How a synchronous transfer ends: the list with every received byte in the place of the byte sent, the error that
ended it if one did, and the state (R140). -/
structure Xfer where
  bytes : List Byte
  error : Option ResultCode
  state : State

/-- `xfer(list)` (R140): an error ends it and leaves the bytes not yet transferred unchanged. -/
def xfer (bytes : List Byte) (s : State) : Xfer :=
  match bytes with
  | [] => ⟨[], none, s⟩
  | b :: rest =>
    match xferByte b s with
    | .stop e s1 => ⟨b :: rest, some e, s1⟩
    | .ok v s1 =>
      let x := xfer rest s1
      ⟨v :: x.bytes, x.error, x.state⟩

/-- A transfer of a list the framer holds itself: its received bytes, or the error raised. -/
def Xfer.raise (x : Xfer) : Res (List Byte) :=
  match x.error with
  | some e => .stop e x.state
  | none => .ok x.bytes x.state

/-! ## Frame buffer -/

/-- `BUF[i]`; there is no element from 15 on (R32, R62). -/
def bufByte (i : Nat) (s : State) : Option Byte := s.buf[i]?

/-- `BUF[i] <- b` (R248). -/
def bufSet (i : Nat) (b : Byte) (s : State) : State := { s with buf := s.buf.setIfInBounds i b }

/-- `BUF[0..n-1]` as a list, first byte on the wire first (R64). -/
def payload (n : Nat) (s : State) : List Byte := s.buf.toList.take n

/-- `BUF[i], BUF[i+1], ... <-` the bytes of the list, in order. -/
def bufStore (i : Nat) (bytes : List Byte) (s : State) : State :=
  match bytes with
  | [] => s
  | b :: rest => bufStore (i + 1) rest (bufSet i b s)

/-- The synchronous transfer of `BUF[0..n-1]` in place (R141, R244): what was received before an error stays written
(R336). -/
def xferBuf (n : Nat) (s : State) : Res Unit :=
  let x := xfer (payload n s) s
  match x.error with
  | some e => .stop e (bufStore 0 x.bytes x.state)
  | none => .ok () (bufStore 0 x.bytes x.state)

/-! ## Checksum accumulator -/

/-- One incoming bit of the CRC (R171): shift left; XOR 0x07 in when the bit shifted out differs from it. -/
def crcBit (c : Byte) (inb : Bool) : Byte :=
  if inb != c.getLsbD 7 then (c <<< 1) ^^^ 0x07 else c <<< 1

/-- One byte of the CRC, most significant bit first (R171). -/
def crcByte (c byte : Byte) : Byte :=
  [7, 6, 5, 4, 3, 2, 1, 0].foldl (fun c i => crcBit c (byte.getLsbD i)) c

/-- The accumulator's state after a byte is fed in a mode (R171). -/
def feedByte (m : ChecksumMode) (c byte : Byte) : Byte :=
  match m with
  | .off => c
  | .xor => c ^^^ byte
  | .crc => crcByte c byte

/-- `new(mode)` (R170). -/
def ckNew (m : ChecksumMode) (s : State) : State := { s with ckMode := m, ckState := 0 }

/-- `feed(byte)` (R171). -/
def ckFeed (byte : Byte) (s : State) : State := { s with ckState := feedByte s.ckMode s.ckState byte }

/-- `feed` of every byte of a list, in order. -/
def ckFeedAll (bytes : List Byte) (s : State) : State :=
  match bytes with
  | [] => s
  | b :: rest => ckFeedAll rest (ckFeed b s)

/-- `result()` (R172): `None` for `Off`, else the state. -/
def ckResult (s : State) : Option Byte :=
  match s.ckMode with
  | .off => none
  | .xor => some s.ckState
  | .crc => some s.ckState

/-! ## Reporting results

Result reporting takes the place of trap entry: no state is saved, no mode changes, no control is transferred (R332),
and there is nothing to return from (R341). -/

/-- The three optional response registers are cleared at the start of every command (R33, R331). -/
def clearResponses (s : State) : State := { s with rspData := none, rspExp := none, rspRcv := none }

/-- The command ends with a result code (R330): the one way an error is reported. -/
def answer (e : ResultCode) (s : State) : State := { s with rspCode := e }

/-- The command ends with `OK` and its response data. -/
def answerData (d : Option Byte) (s : State) : State := { s with rspCode := .ok, rspData := d }

/-- `raise CHECKSUM_MISMATCH()` with both checksums recorded (R242, R338). -/
def raiseMismatch {α : Type} (expected received : Option Byte) (s : State) : Res α :=
  .stop .checksumMismatch { s with rspExp := expected, rspRcv := received }

/-- What a host's command word meets that the decoder refuses (R331, R335): `ILLEGAL_COMMAND`, or `INVARIANT_FAULT`
when `FAULTED` is set, which comes first (R339). -/
def refuseWord (s : State) : State :=
  answer (if s.faulted then .invariantFault else .illegalCommand) (clearResponses s)

/-- A command from its prelude to its result (R331, R339): the responses are cleared; a faulted block answers
`INVARIANT_FAULT` and does nothing; an operand the encoding calls illegal answers `ILLEGAL_COMMAND`; else the command's
own rule runs and its result is reported. -/
def command (legal : Bool) (rule : State → Res (Option Byte)) (s : State) : Host.Outcome State Fault Refusal :=
  if s.faulted then .next (refuseWord s)
  else if legal then
    match rule (clearResponses s) with
    | .ok d s1 => .next (answerData d s1)
    | .stop e s1 => .next (answer e s1)
  else .next (refuseWord s)

/-- Reset (R370, R371): every element of the block takes its reset value. What the outside world has still to do is
not part of the block and stays. -/
def resetBlock (s : State) : State :=
  { State.reset with input := s.input, miso := s.miso, samples := s.samples, lineDraws := s.lineDraws }

end Sys2Proof.Machine
end

