-- ==== Sys2Proof/Machine/Checksum.lean ====
section
/-! DEFINITION. The meanings of the checksum accumulator commands (spec/41_checksum.md). -/

namespace Sys2Proof.Machine

/-- `CK_NEW mode` (R170): a fresh, zeroed accumulator. -/
def execCkNew (mode : ChecksumMode) (s : State) : Host.Outcome State Fault Refusal :=
  command true (fun s0 => .ok none (ckNew mode s0)) s

/-- `CK_FEED byte` (R171): add one byte to the checksum. -/
def execCkFeed (byte : Byte) (s : State) : Host.Outcome State Fault Refusal :=
  command true (fun s0 => .ok none (ckFeed byte s0)) s

/-- `CK_RESULT` (R172): the checksum, absent in `Off` mode; nothing is changed. -/
def execCkResult (s : State) : Host.Outcome State Fault Refusal :=
  command true (fun s0 => .ok (ckResult s0) s0) s

end Sys2Proof.Machine
end

