-- ==== Sys2Proof/Machine/Framer.lean ====
section
/-! DEFINITION. The meanings of the framer commands (spec/43_framer.md) and of the address bytes its register
frames begin with (R100). -/

namespace Sys2Proof.Machine

/-- The end of a read frame (R242): the received payload goes to `BUF` and into the checksum, and the checksum is
compared with the trailer received. -/
def verifyRead (m : ChecksumMode) (n : Nat) (frame : List Byte) (s : State) : Res (Option Byte) :=
  let s1 := ckFeedAll (receivedPayload n frame) (bufStore 0 (receivedPayload n frame) s)
  if ckResult s1 = receivedTrailer m n frame then .ok none s1
  else raiseMismatch (ckResult s1) (receivedTrailer m n frame) s1

/-- `FR_READ` under checksum mode `m` (R242). -/
def readTransaction (m : ChecksumMode) (addr : Byte) (n : Nat) (s : State) : Res (Option Byte) :=
  (drive .csN false (ckFeed (readAddress addr) (ckNew m s))).bind fun _ s1 =>
  (xfer (readFrame m addr n) s1).raise.bind fun frame s2 =>
  (drive .csN true s2).bind fun _ s3 =>
  verifyRead m n frame s3

/-- The accumulator of a write frame once address and payload are fed (R243). -/
def writeChecksum (m : ChecksumMode) (addr : Byte) (bytes : List Byte) (s : State) : State :=
  ckFeedAll bytes (ckFeed (writeAddress addr) (ckNew (writeMode m) s))

/-- `FR_WRITE` under the current mode `m` (R243): received bytes are discarded. -/
def writeTransaction (m : ChecksumMode) (addr : Byte) (n : Nat) (s : State) : Res (Option Byte) :=
  let s0 := writeChecksum m addr (payload n s) s
  (drive .csN false s0).bind fun _ s1 =>
  (xfer (writeFrame addr (payload n s) (ckResult s0)) s1).raise.bind fun _ s2 =>
  (drive .csN true s2).bind fun _ s3 =>
  .ok none s3

/-- `FR_RAW` (R244): one chip-select window, no address byte, no trailer, in place. -/
def rawTransaction (n : Nat) (s : State) : Res (Option Byte) :=
  (drive .csN false s).bind fun _ s1 =>
  (xferBuf n s1).bind fun _ s2 =>
  (drive .csN true s2).bind fun _ s3 =>
  .ok none s3

/-- `FR_READ addr, len` (R242). -/
def execFrRead (addr : Byte) (len : BitVec 4) (s : State) : Host.Outcome State Fault Refusal :=
  command (lenLegal len) (fun s0 => readTransaction s0.curMode addr len.toNat s0) s

/-- `FR_WRITE addr, len` (R243). -/
def execFrWrite (addr : Byte) (len : BitVec 4) (s : State) : Host.Outcome State Fault Refusal :=
  command (lenLegal len) (fun s0 => writeTransaction s0.curMode addr len.toNat s0) s

/-- `FR_RAW len` (R244). -/
def execFrRaw (len : BitVec 4) (s : State) : Host.Outcome State Fault Refusal :=
  command (lenLegal len) (fun s0 => rawTransaction len.toNat s0) s

/-- `FR_SETMODE mode` (R247): the local mode only; the peer is told nothing. -/
def execFrSetMode (mode : ChecksumMode) (s : State) : Host.Outcome State Fault Refusal :=
  command true (fun s0 => .ok none { s0 with curMode := mode }) s

/-- `FR_GETMODE` (R250): the local mode's code. -/
def execFrGetMode (s : State) : Host.Outcome State Fault Refusal :=
  command true (fun s0 => .ok (some (modeByte s0.curMode)) s0) s

/-- `BUF_WR idx, byte` (R248). -/
def execBufWr (idx : BitVec 4) (byte : Byte) (s : State) : Host.Outcome State Fault Refusal :=
  command (idxLegal idx) (fun s0 => .ok none (bufSet idx.toNat byte s0)) s

/-- `BUF_RD idx` (R249). -/
def execBufRd (idx : BitVec 4) (s : State) : Host.Outcome State Fault Refusal :=
  command (idxLegal idx) (fun s0 => .ok (bufByte idx.toNat s0) s0) s

/-! The two wire rows name the byte that `readFrame` and `writeFrame` begin with (R100). The register space behind an address
byte is reached by `FR_READ` and `FR_WRITE` alone (R61) and a byte goes out only inside their window (R105), so sending it is
in those commands' meanings. The row by itself is what the peer reads in the byte: the peer acts on it, outside the block (R4,
R8 (d)), and no state of the block changes, since nothing but a command changes it (R348; DEDUCED, notes/assumptions/3.md). -/

/-- `WIRE_READ_ADDR`: the peer takes the byte `addr or 0x40` as the address byte of a read frame (R100). -/
def execWireReadAddr (_addr : Byte) (s : State) : Host.Outcome State Fault Refusal := .next s

/-- `WIRE_WRITE_ADDR`: the peer takes the byte `addr` as the address byte of a write frame (R100). -/
def execWireWriteAddr (_addr : Byte) (s : State) : Host.Outcome State Fault Refusal := .next s

end Sys2Proof.Machine
end

