-- ==== Sys2Proof/Machine/ShiftEngine.lean ====
section
/-! DEFINITION. The meanings of the shift engine commands (spec/40_shift_engine.md). -/

namespace Sys2Proof.Machine

/-- `SE_SEND byte` (R130): start the transfer of one byte, or `WOULD_BLOCK`. No line is driven. -/
def execSeSend (byte : Byte) (s : State) : Host.Outcome State Fault Refusal :=
  command true (fun s0 =>
    match send byte s0 with
    | some s1 => .ok none s1
    | none => .stop .wouldBlock s0) s

/-- `SE_TICK` (R131): one clock half-phase. -/
def execSeTick (s : State) : Host.Outcome State Fault Refusal :=
  command true (fun s0 => (tick s0).bind fun _ s1 => .ok none s1) s

/-- `SE_READ` (R132): take the published byte, `WOULD_BLOCK` mid-transfer, `EXHAUSTED` when there is none. -/
def execSeRead (s : State) : Host.Outcome State Fault Refusal :=
  command true (fun s0 =>
    match read s0 with
    | .byte v s1 => .ok (some v) s1
    | .wouldBlock => .stop .wouldBlock s0
    | .exhausted => .stop .exhausted s0) s

/-- `SE_XFER len` (R141): the synchronous transfer of `BUF[0..len-1]` in place, chip select untouched. -/
def execSeXfer (len : BitVec 4) (s : State) : Host.Outcome State Fault Refusal :=
  command (lenLegal len) (fun s0 => (xferBuf len.toNat s0).bind fun _ s1 => .ok none s1) s

end Sys2Proof.Machine
end

