-- ==== Sys2Proof/Machine/Dispatch.lean ====
section
/-! DEFINITION. One arm per instruction, each a direct call of its meaning. -/

namespace Sys2Proof.Machine

def exec (i : Instr) (s : State) : Host.Outcome State Fault Refusal :=
  match i with
  | .seSend byte => Sys2Proof.Machine.execSeSend byte s
  | .seTick => Sys2Proof.Machine.execSeTick s
  | .seRead => Sys2Proof.Machine.execSeRead s
  | .ckNew mode => Sys2Proof.Machine.execCkNew mode s
  | .ckFeed byte => Sys2Proof.Machine.execCkFeed byte s
  | .ckResult => Sys2Proof.Machine.execCkResult s
  | .seXfer len => Sys2Proof.Machine.execSeXfer len s
  | .frRaw len => Sys2Proof.Machine.execFrRaw len s
  | .frRead addr len => Sys2Proof.Machine.execFrRead addr len s
  | .frWrite addr len => Sys2Proof.Machine.execFrWrite addr len s
  | .frSetMode mode => Sys2Proof.Machine.execFrSetMode mode s
  | .frGetMode => Sys2Proof.Machine.execFrGetMode s
  | .bufWr idx byte => Sys2Proof.Machine.execBufWr idx byte s
  | .bufRd idx => Sys2Proof.Machine.execBufRd idx s
  | .wireReadAddr addr => Sys2Proof.Machine.execWireReadAddr addr s
  | .wireWriteAddr addr => Sys2Proof.Machine.execWireWriteAddr addr s

end Sys2Proof.Machine
end

