-- ==== Sys2Proof/Machine/Accept.lean ====
section
/-! DEFINITION. How the machine takes what happens around it: a host's command word is decoded and executed, or refused
(R331, R335); reset takes the reset values (R370); the peer's reading of an address byte is no act of the block (R4). -/

namespace Sys2Proof.Machine

/-- Decode and execute one encoding, to completion (R240, R331). -/
def accept (c : Code) (s : State) : Host.Outcome State Fault Refusal :=
  match decode c with
  | .ok i => exec i s
  | .error _ => .next (refuseWord s)

/-- One thing that happens around the block (R100, R348). -/
def receive (e : Stimulus) (s : State) : Host.Outcome State Fault Refusal :=
  match e with
  | .issue w => accept (.command w) s
  | .peerTakes b => accept (.address b) s
  | .reset => .next (resetBlock s)

end Sys2Proof.Machine
end

