-- ==== Sys2Proof/Machine/Step.lean ====
section
/-! DEFINITION. One step of the machine: the next stimulus. The block fetches nothing (R21, R76): a command
is delivered to it. With no stimulus waiting the block does nothing (R372). -/

namespace Sys2Proof.Machine

/-- One step: take the next stimulus and react to it to completion (R240). -/
def step (s : State) : Host.Outcome State Fault Refusal :=
  match s.input with
  | [] => .next s
  | e :: rest => receive e { s with input := rest }

/-- The state in which the next stimulus is the encoding that the table row's bits `w` are: a command word the host issues, or
an address byte the peer takes. -/
def State.withFetchWord (s : State) (nbits w : Nat) : State :=
  { s with input := Stimulus.ofCode (tableCode nbits w) :: s.input }

end Sys2Proof.Machine
end

