-- ==== Sys2Proof/Machine/Catalog.lean ====
section
/-! DEFINITION. The peer's register catalogue and the host codec (spec/42_register_catalog.md), at the block's boundary:
the block itself never consults them (R37, R203). -/

namespace Sys2Proof.Machine

/-- The registers the source names (R200). A channel-indexed register carries its index, 0 to 3 (R201). -/
inductive PeerReg where
  | status
  | adcMode
  | ifMode
  | data
  | gpioCon
  | id
  | channel (index : Fin 4)
  | setupCon (index : Fin 4)
  | filtCon (index : Fin 4)
  deriving DecidableEq, Repr

/-- `address = base + index`, an 8-bit addition (R201). -/
def indexedAddress (base : Byte) (index : Nat) : Byte := base + BitVec.ofNat 8 index

/-- The FiltCon base as an address (R202). -/
def filtconBase : FiltConBase → Byte
  | .base28 => 0x28
  | .base80 => 0x80

/-- The address of a register as transmitted, before the read bit (R200, R201, R202). -/
def peerAddress : PeerReg → Byte
  | .status => 0x00
  | .adcMode => 0x01
  | .ifMode => 0x02
  | .data => 0x04
  | .gpioCon => 0x06
  | .id => 0x07
  | .channel i => indexedAddress 0x10 i.val
  | .setupCon i => indexedAddress 0x20 i.val
  | .filtCon i => indexedAddress (filtconBase Config.pFiltconBase) i.val

/-- The payload size of a register in bytes; the source gives none for AdcMode and GpioCon, whose length the host
names itself (R200, U6). -/
def peerSize : PeerReg → Option Nat
  | .status => some 1
  | .adcMode => none
  | .ifMode => some 2
  | .data => some 3
  | .gpioCon => none
  | .id => some 2
  | .channel _ => some 2
  | .setupCon _ => some 2
  | .filtCon _ => some 2

/-! ## Multi-byte values (R210) -/

/-- The 16-bit big-endian value of a two-byte payload. -/
def wordOfBytes (b0 b1 : Byte) : BitVec 16 := b0 ++ b1

/-- The two payload bytes of a 16-bit value, most significant first. -/
def bytesOfWord (v : BitVec 16) : List Byte := [v.extractLsb' 8 8, v.extractLsb' 0 8]

/-- Data's 24-bit big-endian value. -/
def dataOfBytes (b0 b1 b2 : Byte) : BitVec 24 := b0 ++ b1 ++ b2

/-- The three payload bytes of a Data value. -/
def bytesOfData (v : BitVec 24) : List Byte := [v.extractLsb' 16 8, v.extractLsb' 8 8, v.extractLsb' 0 8]

/-! ## Status (R211) -/

/-- The named fields of Status. -/
structure StatusFields where
  ready : Bool
  adcError : Bool
  crcError : Bool
  regError : Bool
  channel : BitVec 2
  deriving DecidableEq, Repr

/-- The fields of a Status byte; `ready` is the inverse of bit 7. -/
def decodeStatus (b : Byte) : StatusFields where
  ready := !b.getLsbD 7
  adcError := b.getLsbD 6
  crcError := b.getLsbD 5
  regError := b.getLsbD 4
  channel := b.extractLsb' 0 2

/-- The Status byte of some fields; bits 3 and 2, which the source does not name (U13), are given. -/
def encodeStatus (unnamed : BitVec 2) (f : StatusFields) : Byte :=
  BitVec.ofBool (!f.ready) ++ BitVec.ofBool f.adcError ++ BitVec.ofBool f.crcError ++ BitVec.ofBool f.regError ++
    unnamed ++ f.channel

/-! ## IfMode (R212) -/

/-- The checksum-mode field of IfMode's byte 1, bits 3:2. -/
def ifModeField (b1 : Byte) : BitVec 2 := b1.extractLsb' 2 2

/-- The checksum mode that byte 1 of IfMode names; none for the reserved code (U20). -/
def ifModeOf (b1 : Byte) : Option ChecksumMode := (decodeMode (ifModeField b1)).toOption

/-- IfMode's byte 1 with the field set and every other bit as it was (R295). -/
def setIfMode (m : ChecksumMode) (b1 : Byte) : Byte := (b1 &&& 0xF3) ||| ((modeCode m).setWidth 8 <<< 2)

/-! ## Fields whose position is an open parameter (R213, R214, R215)

Every accessor and mutator takes the layout; the layout of the attached device is the constant of Config. -/

/-- A value with the low `width` bits set. -/
def fieldMask (n width : Nat) : BitVec n := BitVec.ofNat n (2 ^ width - 1)

/-- Read a field of a register value. -/
def getField {n : Nat} (p : FieldPos) (v : BitVec n) : BitVec n := (v >>> p.lo) &&& fieldMask n p.width

/-- Write a field of a register value: only the field's own bits change (R215). -/
def setField {n : Nat} (p : FieldPos) (x v : BitVec n) : BitVec n :=
  (v &&& ~~~(fieldMask n p.width <<< p.lo)) ||| ((x &&& fieldMask n p.width) <<< p.lo)

/-- Read a one-bit field: true is the code 1 (DESIGN CHOICE, notes/assumptions/11.md: R213 and R214 give no codes). -/
def getFlag {n : Nat} (bit : Nat) (v : BitVec n) : Bool := getField (flagPos bit) v != 0

/-- Write a one-bit field: true is the code 1 (DESIGN CHOICE, notes/assumptions/11.md). -/
def setFlag {n : Nat} (bit : Nat) (b : Bool) (v : BitVec n) : BitVec n :=
  setField (flagPos bit) (if b then 1 else 0) v

/-- A value fits a field: it is not cut when written there. -/
def fitsField {n : Nat} (p : FieldPos) (x : BitVec n) : Bool := x &&& fieldMask n p.width == x

/-! ### Channel (R213) -/

/-- The named fields of Channel. -/
structure ChannelFields where
  enabled : Bool
  setup : BitVec 16
  ainPos : BitVec 16
  ainNeg : BitVec 16
  deriving DecidableEq, Repr

/-- The enabled flag; a set bit is enabled (DESIGN CHOICE, notes/assumptions/11.md). -/
def channelEnabled (l : ChannelLayout) (v : BitVec 16) : Bool := getFlag l.en v
/-- Set the enabled flag. -/
def setChannelEnabled (l : ChannelLayout) (b : Bool) (v : BitVec 16) : BitVec 16 := setFlag l.en b v
/-- Setup-select. -/
def channelSetup (l : ChannelLayout) (v : BitVec 16) : BitVec 16 := getField l.setup v
/-- Set setup-select. -/
def setChannelSetup (l : ChannelLayout) (x v : BitVec 16) : BitVec 16 := setField l.setup x v
/-- The positive input selector. -/
def channelAinPos (l : ChannelLayout) (v : BitVec 16) : BitVec 16 := getField l.ainPos v
/-- Set the positive input selector. -/
def setChannelAinPos (l : ChannelLayout) (x v : BitVec 16) : BitVec 16 := setField l.ainPos x v
/-- The negative input selector. -/
def channelAinNeg (l : ChannelLayout) (v : BitVec 16) : BitVec 16 := getField l.ainNeg v
/-- Set the negative input selector. -/
def setChannelAinNeg (l : ChannelLayout) (x v : BitVec 16) : BitVec 16 := setField l.ainNeg x v

/-- The fields of a Channel payload (R215). -/
def decodeChannel (l : ChannelLayout) (v : BitVec 16) : ChannelFields :=
  ⟨channelEnabled l v, channelSetup l v, channelAinPos l v, channelAinNeg l v⟩

/-- A Channel payload with its fields set and every other bit as it was (R215). -/
def encodeChannel (l : ChannelLayout) (f : ChannelFields) (v : BitVec 16) : BitVec 16 :=
  setChannelAinNeg l f.ainNeg (setChannelAinPos l f.ainPos (setChannelSetup l f.setup (setChannelEnabled l f.enabled v)))

/-- Every field's value fits its field. -/
def ChannelFields.fits (l : ChannelLayout) (f : ChannelFields) : Bool :=
  fitsField l.setup f.setup && fitsField l.ainPos f.ainPos && fitsField l.ainNeg f.ainNeg

/-- Channel enabled with an input pair and a setup index (R213, R297). -/
def enableChannel (l : ChannelLayout) (pos neg : BitVec 16) (index : Nat) (v : BitVec 16) : BitVec 16 :=
  encodeChannel l ⟨true, BitVec.ofNat 16 index, pos, neg⟩ v

/-! ### SetupCon (R214) -/

/-- The named fields of SetupCon. -/
structure SetupConFields where
  bipolar : Bool
  refBuf : BitVec 16
  refSel : BitVec 16
  deriving DecidableEq, Repr

/-- The bipolar flag; a set bit is bipolar (DESIGN CHOICE, notes/assumptions/11.md). -/
def setupBipolar (l : SetupConLayout) (v : BitVec 16) : Bool := getFlag l.bipolar v
/-- Set the bipolar flag. -/
def setSetupBipolar (l : SetupConLayout) (b : Bool) (v : BitVec 16) : BitVec 16 := setFlag l.bipolar b v
/-- The reference-buffer enables. -/
def setupRefBuf (l : SetupConLayout) (v : BitVec 16) : BitVec 16 := getField l.refBuf v
/-- Set the reference-buffer enables. -/
def setSetupRefBuf (l : SetupConLayout) (x v : BitVec 16) : BitVec 16 := setField l.refBuf x v
/-- The reference source select. -/
def setupRefSel (l : SetupConLayout) (v : BitVec 16) : BitVec 16 := getField l.refSel v
/-- Set the reference source select. -/
def setSetupRefSel (l : SetupConLayout) (x v : BitVec 16) : BitVec 16 := setField l.refSel x v

/-- The fields of a SetupCon payload (R215). -/
def decodeSetupCon (l : SetupConLayout) (v : BitVec 16) : SetupConFields :=
  ⟨setupBipolar l v, setupRefBuf l v, setupRefSel l v⟩

/-- A SetupCon payload with its fields set and every other bit as it was (R215). -/
def encodeSetupCon (l : SetupConLayout) (f : SetupConFields) (v : BitVec 16) : BitVec 16 :=
  setSetupRefSel l f.refSel (setSetupRefBuf l f.refBuf (setSetupBipolar l f.bipolar v))

/-- Every field's value fits its field. -/
def SetupConFields.fits (l : SetupConLayout) (f : SetupConFields) : Bool :=
  fitsField l.refBuf f.refBuf && fitsField l.refSel f.refSel

/-! ### FiltCon (R214) -/

/-- The named fields of FiltCon. -/
structure FiltConFields where
  enhanced : Bool
  rate : BitVec 16
  order : BitVec 16
  deriving DecidableEq, Repr

/-- The enhanced-filter enable; a set bit is enabled (DESIGN CHOICE, notes/assumptions/11.md). -/
def filtEnhanced (l : FiltConLayout) (v : BitVec 16) : Bool := getFlag l.enhanced v
/-- Set the enhanced-filter enable. -/
def setFiltEnhanced (l : FiltConLayout) (b : Bool) (v : BitVec 16) : BitVec 16 := setFlag l.enhanced b v
/-- The post-filter rate select. -/
def filtRate (l : FiltConLayout) (v : BitVec 16) : BitVec 16 := getField l.rate v
/-- Set the post-filter rate select. -/
def setFiltRate (l : FiltConLayout) (x v : BitVec 16) : BitVec 16 := setField l.rate x v
/-- The filter order select. -/
def filtOrder (l : FiltConLayout) (v : BitVec 16) : BitVec 16 := getField l.order v
/-- Set the filter order select. -/
def setFiltOrder (l : FiltConLayout) (x v : BitVec 16) : BitVec 16 := setField l.order x v

/-- The fields of a FiltCon payload (R215). -/
def decodeFiltCon (l : FiltConLayout) (v : BitVec 16) : FiltConFields :=
  ⟨filtEnhanced l v, filtRate l v, filtOrder l v⟩

/-- A FiltCon payload with its fields set and every other bit as it was (R215). -/
def encodeFiltCon (l : FiltConLayout) (f : FiltConFields) (v : BitVec 16) : BitVec 16 :=
  setFiltOrder l f.order (setFiltRate l f.rate (setFiltEnhanced l f.enhanced v))

/-- Every field's value fits its field. -/
def FiltConFields.fits (l : FiltConLayout) (f : FiltConFields) : Bool :=
  fitsField l.rate f.rate && fitsField l.order f.order

/-! ### GpioCon (R214), in a payload of its open size (U6) -/

/-- The sync-enable bit; a set bit is enabled (DESIGN CHOICE, notes/assumptions/11.md). -/
def gpioSyncEn (l : GpioConLayout) (v : BitVec (8 * l.bytes)) : Bool := getFlag l.syncEn v
/-- Set the sync-enable bit. -/
def setGpioSyncEn (l : GpioConLayout) (b : Bool) (v : BitVec (8 * l.bytes)) : BitVec (8 * l.bytes) :=
  setFlag l.syncEn b v

end Sys2Proof.Machine
end

