-- ==== Sys2Proof/Machine/HostSeq.lean ====
section
/-! DEFINITION. The host sequences (spec/44_host_sequences.md, R99) and the boot order (R373): host code that issues
commands of the block and reads its responses, at the block's boundary (R7). -/

namespace Sys2Proof.Machine

/-- How a host sequence ends: with a value, stopped by a command's error, or refused by the model (U4). -/
inductive SeqEnd (α : Type) where
  | done (a : α) (s : State)
  | failed (code : ResultCode) (s : State)
  | refused (r : Refusal)

/-- Go on where the sequence so far is done. -/
def SeqEnd.bind {α β : Type} (r : SeqEnd α) (k : α → State → SeqEnd β) : SeqEnd β :=
  match r with
  | .done a s => k a s
  | .failed e s => .failed e s
  | .refused x => .refused x

/-- Issue one command and read its response: "stop with its error if not OK". -/
def issue (i : Instr) (s : State) : SeqEnd (Option Byte) :=
  match exec i s with
  | .next t => if t.rspCode = .ok then .done t.rspData t else .failed t.rspCode t
  | .fault f => nomatch f
  | .refused r => .refused r

/-- `BUF_RD i`, ..., `BUF_RD i+n-1`: the bytes answered, in order. -/
def readBuf (i n : Nat) (s : State) : SeqEnd (List Byte) :=
  match n with
  | 0 => .done [] s
  | m + 1 =>
    (issue (.bufRd (BitVec.ofNat 4 i)) s).bind fun d s1 =>
    (readBuf (i + 1) m s1).bind fun rest s2 =>
    .done (d.toList ++ rest) s2

/-- `BUF_WR i, b0`, `BUF_WR i+1, b1`, ... -/
def writeBufFrom (i : Nat) (bytes : List Byte) (s : State) : SeqEnd Unit :=
  match bytes with
  | [] => .done () s
  | b :: rest => (issue (.bufWr (BitVec.ofNat 4 i) b) s).bind fun _ s1 => writeBufFrom (i + 1) rest s1

/-- `WRITE_BUF b0, ..., bk-1` (R303). -/
def writeBuf (bytes : List Byte) (s : State) : SeqEnd Unit := writeBufFrom 0 bytes s

/-- `UPDATE_REG addr, len, f` (R290): read the register, apply the host's function, write it back. -/
def updateReg {α : Type} (addr : Byte) (len : BitVec 4) (f : List Byte → List Byte × α) (s : State) : SeqEnd α :=
  (issue (.frRead addr len) s).bind fun _ s1 =>
  (readBuf 0 len.toNat s1).bind fun p s2 =>
  (writeBuf (f p).1 s2).bind fun _ s3 =>
  (issue (.frWrite addr len) s3).bind fun _ s4 =>
  .done (f p).2 s4

/-- The outcomes of `IDENTIFY` (R293, R294). -/
inductive Identification where
  | matched (id : BitVec 16)
  | mismatch (id : BitVec 16)
  deriving DecidableEq, Repr

/-- The identification test: the family code is 0x00D (R293). -/
def classifyId (id : BitVec 16) : Identification :=
  if id &&& 0xFFF0 = 0x00D0 then .matched id else .mismatch id

/-- `IDENTIFY` (R293). -/
def identify (s : State) : SeqEnd Identification :=
  (issue (.frRead 0x07 2) s).bind fun _ s1 =>
  (readBuf 0 2 s1).bind fun p s2 =>
  .done (classifyId (wordOfBytes (p.getD 0 0) (p.getD 1 0))) s2

/-- `SET_CHECKSUM_MODE mode` (R295): the local mode changes between the IfMode read and the IfMode write (R388). -/
def setChecksumMode (mode : ChecksumMode) (s : State) : SeqEnd Unit :=
  (issue (.frRead 0x02 2) s).bind fun _ s1 =>
  (issue (.bufRd 1) s1).bind fun b1 s2 =>
  (issue (.bufWr 1 (setIfMode mode (b1.getD 0))) s2).bind fun _ s3 =>
  (issue (.frSetMode mode) s3).bind fun _ s4 =>
  (issue (.frWrite 0x02 2) s4).bind fun _ s5 =>
  .done () s5

/-- The host function by which `SETUP_CHANNEL` changes the Channel payload (R297). -/
def channelUpdate (pos neg : BitVec 16) (index : Nat) (p : List Byte) : List Byte × Unit :=
  (bytesOfWord (enableChannel Config.pChannelLayout pos neg index (wordOfBytes (p.getD 0 0) (p.getD 1 0))), ())

/-- `SETUP_CHANNEL index, pos, neg` (R297). An index outside 0..3 is refused (U4). -/
def setupChannel (index : Nat) (pos neg : BitVec 16) (s : State) : SeqEnd Unit :=
  if index ≤ 3 then
    (writeBuf (bytesOfWord Config.pSetupconDefault) s).bind fun _ s1 =>
    (issue (.frWrite (indexedAddress 0x20 index) 2) s1).bind fun _ s2 =>
    (writeBuf (bytesOfWord Config.pFiltconDefault) s2).bind fun _ s3 =>
    (issue (.frWrite (indexedAddress (filtconBase Config.pFiltconBase) index) 2) s3).bind fun _ s4 =>
    updateReg (indexedAddress 0x10 index) 2 (channelUpdate pos neg index) s4
  else .refused .channelIndexOutOfRange

/-- `DEV_RESET` (R299): 64 one-bits under one chip-select window. -/
def devReset (s : State) : SeqEnd Unit :=
  (writeBuf (List.replicate 8 0xFF) s).bind fun _ s1 =>
  (issue (.frRaw 8) s1).bind fun _ s2 =>
  .done () s2

/-- `DATA_READY` (R301). -/
def dataReady (s : State) : SeqEnd Bool :=
  (issue (.frRead 0x00 1) s).bind fun _ s1 =>
  (readBuf 0 1 s1).bind fun p s2 =>
  .done (decodeStatus (p.getD 0 0)).ready s2

/-- `READ_DATA` (R302). -/
def readData (s : State) : SeqEnd (BitVec 24) :=
  (issue (.frRead 0x04 3) s).bind fun _ s1 =>
  (readBuf 0 3 s1).bind fun p s2 =>
  .done (dataOfBytes (p.getD 0 0) (p.getD 1 0) (p.getD 2 0)) s2

/-- `IDENTIFY`, repeated by the caller on an identification mismatch, at most `retries` times more (R294, R373). -/
def identifyRetry (retries : Nat) (s : State) : SeqEnd Identification :=
  (identify s).bind fun r s1 =>
  match r, retries with
  | .matched id, _ => .done (.matched id) s1
  | .mismatch id, 0 => .done (.mismatch id) s1
  | .mismatch _, n + 1 => identifyRetry n s1

/-- `SETUP_CHANNEL` for each channel used: index and input pair. -/
def setupChannels (channels : List (Nat × BitVec 16 × BitVec 16)) (s : State) : SeqEnd Unit :=
  match channels with
  | [] => .done () s
  | (index, pos, neg) :: rest => (setupChannel index pos neg s).bind fun _ s1 => setupChannels rest s1

/-- The boot order after a block reset (R373): reset the peer, talk without checksums until it is identified, switch the
mode, set up the channels. Where the peer is never identified the mode is not switched. -/
def boot (retries : Nat) (mode : ChecksumMode) (channels : List (Nat × BitVec 16 × BitVec 16)) (s : State) :
    SeqEnd Identification :=
  (devReset s).bind fun _ s1 =>
  (issue (.frSetMode .off) s1).bind fun _ s2 =>
  (identifyRetry retries s2).bind fun r s3 =>
  match r with
  | .mismatch id => .done (.mismatch id) s3
  | .matched id =>
    (setChecksumMode mode s3).bind fun _ s4 =>
    (setupChannels channels s4).bind fun _ s5 =>
    .done (.matched id) s5

end Sys2Proof.Machine
end

