-- ==== Sys2Proof/Machine/Run.lean ====
section
/-! DEFINITION. Runs and their observation (R397). -/

namespace Sys2Proof.Machine

/-- What the host reads after a command (R33, R348). -/
structure Response where
  code : ResultCode
  data : Option Byte
  exp : Option Byte
  rcv : Option Byte
  deriving DecidableEq, Repr

/-- The response registers of a state. -/
def responseOf (s : State) : Response := ⟨s.rspCode, s.rspData, s.rspExp, s.rspRcv⟩

/-- What is observed of a run (R397): the final state, with the event log in it, and the response after each command. -/
structure Observation where
  final : State
  responses : List Response
  deriving DecidableEq, Repr

/-- A list of command words, each executed to completion, in order (R240, R397). -/
def runAll (words : List CommandWord) (s : State) : Observation :=
  match words with
  | [] => ⟨s, []⟩
  | w :: rest =>
    match accept (.command w) s with
    | .next t =>
      let o := runAll rest t
      ⟨o.final, responseOf t :: o.responses⟩
    | .fault f => nomatch f
    | .refused _ => ⟨s, []⟩

/-- A run (R397): reset, then a finite list of command words, with the peer's answers as an input, and with them the line
layer's draw for each line operation (R336). A run has finitely many line operations, so every run is that of some list. -/
def run (words : List CommandWord) (script : List Level) (draws : List (Option LineFailure)) : Observation :=
  runAll words { State.reset with miso := script, lineDraws := draws }

/-- A faulted run (R397): its final state has `FAULTED = 1`. -/
def faultedRun (o : Observation) : Bool := o.final.faulted

end Sys2Proof.Machine
end

