-- ==== Sys2Proof/Safety.lean ====
section
/-! DEFINITION. The terms in which claims about the block are stated: when no line operation fails, what the peer
presents, what a byte and a frame look like on the link, which states are legal, and what a safe run is. -/

namespace Sys2Proof.Machine

/-- No line operation to come fails: the hardware's lines cannot fail, or no failure is drawn (R336). -/
def Quiet (s : State) : Prop := Config.pLineFault = false ∨ ∀ d ∈ s.lineDraws, d = none

/-- The peer's k-th answer from now on (R36): the script's, or a free level beyond it. -/
def peerAnswer (s : State) (k : Nat) : Level :=
  match s.miso[k]? with
  | some b => b
  | none => Config.misoLevel (s.samples + (k - s.miso.length))

/-- The byte whose bits, most significant first, are the levels `f 0` to `f 7` (R63, R104). -/
def byteOfLevels (f : Nat → Level) : Byte :=
  BitVec.ofBool (f 0) ++ BitVec.ofBool (f 1) ++ BitVec.ofBool (f 2) ++ BitVec.ofBool (f 3) ++
    BitVec.ofBool (f 4) ++ BitVec.ofBool (f 5) ++ BitVec.ofBool (f 6) ++ BitVec.ofBool (f 7)

/-- The next byte the peer presents (R104, R135). -/
def peerByte (s : State) : Byte := byteOfLevels (peerAnswer s)

/-- The line events of one bit period (R104): `MOSI` and the falling clock edge, the rising edge and the sample. -/
def bitEvents (tx rx : Byte) (k : Nat) : List Event :=
  [.drive .mosi (tx.getLsbD k), .drive .sck false, .drive .sck true, .sample (rx.getLsbD k)]

/-- The line events of one byte sent while another is received, bit 7 first (R104). -/
def byteEvents (tx rx : Byte) : List Event := [7, 6, 5, 4, 3, 2, 1, 0].flatMap (bitEvents tx rx)

/-- The state after one byte is exchanged from an idle engine and read (R104, R135, R140). -/
def afterByte (b : Byte) (s : State) : State :=
  { s with
    se := .idle, rxp := none, sck := true, mosi := b.getLsbD 0
    evt := s.evt ++ byteEvents b (peerByte s)
    miso := s.miso.drop 8, samples := s.samples + (8 - s.miso.length), lineDraws := s.lineDraws.drop 32 }

/-- The state after a list of bytes is exchanged (R140). -/
def afterBytes (bytes : List Byte) (s : State) : State :=
  match bytes with
  | [] => s
  | b :: rest => afterBytes rest (afterByte b s)

/-- The bytes the peer presents in the slots of that list (R140). -/
def slotBytes (bytes : List Byte) (s : State) : List Byte :=
  match bytes with
  | [] => []
  | b :: rest => peerByte s :: slotBytes rest (afterByte b s)

/-- Chip select driven to a level, its event logged (R241). -/
def csDriven (b : Level) (s : State) : State :=
  { s with csN := b, evt := s.evt ++ [.drive .csN b], lineDraws := s.lineDraws.tail }

/-- A chip-select window around a list of bytes (R241). -/
def afterWindow (bytes : List Byte) (s : State) : State := csDriven true (afterBytes bytes (csDriven false s))

/-- The bytes received in the slots of a window. -/
def windowBytes (bytes : List Byte) (s : State) : List Byte := slotBytes bytes (csDriven false s)

/-- The buffer with its first elements replaced by a list (R32, R64). -/
def overlay (bytes : List Byte) (buf : Vector Byte 15) : Vector Byte 15 :=
  Vector.ofFn fun i => bytes.getD i.val buf[i]

/-- The checksum of a byte list in a mode, from a fresh accumulator (R170, R171). -/
def checksumOf (m : ChecksumMode) (bytes : List Byte) : Byte := bytes.foldl (feedByte m) 0

/-- The checksum a frame carries, absent in `Off` mode (R172, R245). -/
def trailerOf (m : ChecksumMode) (bytes : List Byte) : Option Byte :=
  if m = .off then none else some (checksumOf m bytes)

/-- The legal states of the shift engine (R24). -/
def engineLegal : Engine → Bool
  | .idle => true
  | .xfer phase mask _ rx => maskLegal mask && (rx &&& (mask - 1)) == 0 && (phase || (rx &&& mask) == 0)

/-- The clock level that goes with an engine state: high at rest and before a setup tick, low before a sample tick
(R28, R104, R131). -/
def engineClock : Engine → Level
  | .idle => true
  | .xfer phase _ _ _ => !phase

/-- The invariant of the block: a legal engine (R24), no published byte while a transfer is in progress (R131), no
fault (R337), and, where lines cannot fail, a clock that idles high (R28). -/
def Inv (s : State) : Prop :=
  engineLegal s.se = true ∧ (s.se ≠ .idle → s.rxp = none) ∧ s.faulted = false ∧
    (Config.pLineFault = false → s.sck = engineClock s.se)

/-- A run is safe when it ends in a state that keeps the invariant. -/
def SafeRun (words : List CommandWord) (script : List Level) (draws : List (Option LineFailure)) : Prop :=
  Inv (run words script draws).final

/-- The levels an event list drives on `MOSI`, in order: what the peer takes (R73, R104). -/
def mosiBits (es : List Event) : List Level :=
  es.filterMap fun e => match e with
    | .drive .mosi b => some b
    | _ => none

/-- The levels an event list samples from `MISO`, in order (R73, R104). -/
def misoBits (es : List Event) : List Level :=
  es.filterMap fun e => match e with
    | .sample b => some b
    | _ => none

/-- The bits of a byte in link order, most significant first (R63). -/
def byteBits (b : Byte) : List Level := [7, 6, 5, 4, 3, 2, 1, 0].map fun k => b.getLsbD k

/-- No event of the list drives chip select. -/
def ChipSelectFree (es : List Event) : Prop := ∀ b, Event.drive .csN b ∉ es

/-- The operation codes whose command uses `MODE` (R92). -/
def usesMode (op : BitVec 4) : Bool := op == 0x3 || op == 0xA
/-- The operation codes whose command uses `BYTE` (R92). -/
def usesByte (op : BitVec 4) : Bool := op == 0x0 || op == 0x4 || op == 0x8 || op == 0x9 || op == 0xC
/-- The operation codes whose command uses `LEN` as a count (R92). -/
def usesCount (op : BitVec 4) : Bool := op == 0x6 || op == 0x7 || op == 0x8 || op == 0x9
/-- The operation codes whose command uses `LEN` as a buffer index (R92). -/
def usesIndex (op : BitVec 4) : Bool := op == 0xC || op == 0xD

/-- The illegal command words, as R94 and R96 list them. -/
def wordIllegal (w : CommandWord) : Bool :=
  rsv1Field w != 0 || rsv0Field w != 0 || opField w == 0xE || opField w == 0xF ||
    (!usesMode (opField w) && modeField w != 0) || (!usesByte (opField w) && byteField w != 0) ||
    (!usesCount (opField w) && !usesIndex (opField w) && lenField w != 0) ||
    (usesMode (opField w) && modeField w == 3) || (usesCount (opField w) && lenField w == 0) ||
    (usesIndex (opField w) && lenField w == 15)

/-- One of the eight shifts of the byte-wise CRC (R173). -/
def crcShift (c : Byte) : Byte := if c.getLsbD 7 then (c <<< 1) ^^^ 0x07 else c <<< 1

/-- The byte-wise form of the CRC feed (R173). -/
def crcBytewise (c byte : Byte) : Byte :=
  crcShift (crcShift (crcShift (crcShift (crcShift (crcShift (crcShift (crcShift (c ^^^ byte))))))))

/-- The host's commands (R92): every row but the two wire rows, which the peer reads (R100). -/
def commands : Instr → Bool
  | .wireReadAddr _ | .wireWriteAddr _ => false
  | _ => true

/-- The instructions that drive or sample a line other than by chip select: the tick and every transfer. -/
def clocks : Instr → Bool
  | .seTick | .seXfer _ | .frRaw _ | .frRead _ _ | .frWrite _ _ => true
  | _ => false

/-- The instructions that are synchronous transfers (R140, R240). -/
def transfers : Instr → Bool
  | .seXfer _ | .frRaw _ | .frRead _ _ | .frWrite _ _ => true
  | _ => false

/-- The framer commands that move a frame, and so drive chip select (R241). -/
def frames : Instr → Bool
  | .frRaw _ | .frRead _ _ | .frWrite _ _ => true
  | _ => false

/-- The instructions that make a fresh accumulator (R30). -/
def freshens : Instr → Bool
  | .ckNew _ | .frRead _ _ | .frWrite _ _ => true
  | _ => false

/-- Whether an instruction may write element `j` of `BUF` (R62). -/
def writesBuf (j : Nat) : Instr → Bool
  | .seXfer len | .frRaw len | .frRead _ len => j < len.toNat
  | .bufWr idx _ => j == idx.toNat
  | _ => false

/-- The state an outcome leads to, if it leads to one. -/
def nextOf : Host.Outcome State Fault Refusal → Option State
  | .next s => some s
  | _ => none

/-- `n` times `SE_TICK`, each executed to completion. -/
def execTicks (n : Nat) (s : State) : State :=
  match n with
  | 0 => s
  | k + 1 =>
    match exec .seTick s with
    | .next t => execTicks k t
    | _ => s

end Sys2Proof.Machine
end

