-- ==== Sys2Proof/Certificates/Slice0/Obligations.lean ====
section
/-! DEFINITION. The statements for the provers. -/

open Sys2Proof Sys2Proof.Machine

/-! ## Encoding -/

/-- Decoding the encoding of a well-formed instruction gives it back (R93, R97; the address rows R100: which of the two a
byte decodes to, and their operand without the read bit, is the model's choice, log entry 3). -/
def Obligations.DecodeOfEncode : Prop :=
  ∀ i : Instr, i.wf = true → decode (encode i) = .ok i

/-- What decodes is well-formed, and its encoding is the word decoded: no two words decode to one instruction and no bit
of a word is dropped (R93, R97; the address rows as in log entry 3). -/
def Obligations.EncodeOfDecode : Prop :=
  ∀ (c : Code) (i : Instr), decode c = .ok i → i.wf = true ∧ encode i = c

/-- A word is refused exactly when R94 or R96 calls it illegal. A refused word changes the response registers and nothing
else, and answers `ILLEGAL_COMMAND`, or `INVARIANT_FAULT` in a faulted block; any other word is executed (R331, R335,
R339). -/
def Obligations.IllegalWordsChangeOnlyResponses : Prop :=
  ∀ (w : CommandWord) (s : State),
    if wordIllegal w = true then
      accept (.command w) s = .next { s with
        rspCode := if s.faulted then .invariantFault else .illegalCommand
        rspData := none, rspExp := none, rspRcv := none }
    else ∃ i, decode (.command w) = .ok i ∧ accept (.command w) s = exec i s

/-- Words written out from R93 decode to their commands, and reserved ones are refused (R92, R93, R96). -/
def Obligations.SampleWordsDecode : Prop :=
  decode (.command 0x0000A500) = .ok (.seSend 0xA5) ∧
  decode (.command 0x00000023) = .ok (.ckNew .crc) ∧
  decode (.command 0x000F0006) = .ok (.seXfer 15) ∧
  decode (.command 0x00030408) = .ok (.frRead 0x04 3) ∧
  decode (.command 0x00020209) = .ok (.frWrite 0x02 2) ∧
  decode (.command 0x0001080C) = .ok (.bufWr 1 0x08) ∧
  decode (.command 0x000E000D) = .ok (.bufRd 14) ∧
  decode (.command 0x0000000E) = .error .reservedOp ∧
  decode (.command 0x00000033) = .error .reservedMode ∧
  decode (.command 0x000F000C) = .error .badIndex

/-- The address byte bit by bit (R100): a read frame's has bit 6 set and every other bit from the address, a write
frame's is the address unchanged; each is its frame's first byte. -/
def Obligations.AddressByteBits : Prop :=
  ∀ (addr : Byte) (m : ChecksumMode) (n : Nat) (p : List Byte) (c : Option Byte),
    (readFrame m addr n).head? = some (readAddress addr) ∧ (writeFrame addr p c).head? = some addr ∧
    ∀ k < 8, (readAddress addr).getLsbD k = if k = 6 then true else addr.getLsbD k

/-! ## Step, reset and the prelude -/

/-- When the next stimulus is an encoding that decodes to an instruction, the step is that instruction's `exec` with the
stimulus taken (R240, R331). That an address byte of the link, which the peer takes, is a stimulus of the model too is the
model's choice (log entry 3). -/
def Obligations.StepRunsDecodedInstruction : Prop :=
  ∀ (s : State) (c : Code) (rest : List Stimulus) (i : Instr),
    s.input = Stimulus.ofCode c :: rest → decode c = .ok i → step s = exec i { s with input := rest }

/-- Reset gives every element of the block its reset value, whatever the state (R370, R371); that it keeps the model's own
fields, what the host, the peer and the lines have still to do, is the model's choice (log entry 1). With nothing from the
host the block does nothing (R372). -/
def Obligations.StepTakesResetOrWaits : Prop :=
  ∀ s : State,
    (∀ rest, s.input = .reset :: rest → step s = .next { State.reset with
      input := rest, miso := s.miso, samples := s.samples, lineDraws := s.lineDraws }) ∧
    (s.input = [] → step s = .next s)

/-- The reset values of the table of R39. -/
def Obligations.ResetValues : Prop :=
  ∀ s t : State, step { s with input := [.reset] } = .next t →
    t.se = .idle ∧ t.rxp = none ∧ t.sck = true ∧ t.mosi = false ∧ t.csN = true ∧ t.ckMode = .off ∧ t.ckState = 0x00 ∧
    t.curMode = .off ∧ (∀ j (h : j < 15), t.buf[j] = 0x00) ∧ t.rspCode = .ok ∧ t.rspData = none ∧ t.rspExp = none ∧
    t.rspRcv = none ∧ t.faulted = false ∧ t.evt = []

/-- Every step of every state has a next state: no command faults the machine, none is refused (R332, R341). -/
def Obligations.EveryStepHasNextState : Prop :=
  ∀ s : State, ∃ t, step s = .next t

/-- A faulted block answers every command word, legal or not, with `INVARIANT_FAULT` and changes nothing but the responses; only
reset clears the flag (R337, R339). -/
def Obligations.FaultedBlockAnswersOnlyFault : Prop :=
  ∀ (w : CommandWord) (s : State), s.faulted = true →
    accept (.command w) s = .next { s with rspCode := .invariantFault, rspData := none, rspExp := none, rspRcv := none } ∧
    ∀ t, receive .reset s = .next t → t.faulted = false

/-- An instruction with a length 0 or an index 15, run without the decoder, answers `ILLEGAL_COMMAND` and has no other effect.
R94 and R335 say so of the command word; that the instruction itself does it too is the model's inference (log entry 9,
DEDUCED). -/
def Obligations.IllegalOperandIsRefused : Prop :=
  ∀ (i : Instr) (s : State), s.faulted = false →
    (i = .seXfer 0 ∨ i = .frRaw 0 ∨ (∃ a, i = .frRead a 0) ∨ (∃ a, i = .frWrite a 0) ∨ (∃ b, i = .bufWr 15 b) ∨
      i = .bufRd 15) →
    exec i s = .next { s with rspCode := .illegalCommand, rspData := none, rspExp := none, rspRcv := none }

/-- What the response registers hold after a command goes with the result code: data only with `OK`, checksums only with
`CHECKSUM_MISMATCH` (R33, R330). -/
def Obligations.ResponsesGoWithTheCode : Prop :=
  ∀ (i : Instr) (s t : State), commands i = true → exec i s = .next t →
    (t.rspCode ≠ .ok → t.rspData = none) ∧
    (t.rspCode ≠ .checksumMismatch → t.rspExp = none ∧ t.rspRcv = none)

/-! ## Shift engine -/

/-- `SE_SEND` (R130): from idle a transfer begins and no line is driven; in a transfer, `WOULD_BLOCK` and nothing of the
transfer changes. -/
def Obligations.SeSendStartsOrBlocks : Prop :=
  ∀ (byte : Byte) (s : State), s.faulted = false →
    (s.se = .idle → exec (.seSend byte) s = .next { s with
      se := .xfer false 0x80 byte 0x00, rxp := none
      rspCode := .ok, rspData := none, rspExp := none, rspRcv := none }) ∧
    (s.se ≠ .idle → exec (.seSend byte) s = .next { s with
      rspCode := .wouldBlock, rspData := none, rspExp := none, rspRcv := none })

/-- `SE_TICK` (R131), no line operation failing: nothing while idle; the setup half-phase; the sample half-phase, which
publishes after the last bit; `INVARIANT_FAULT` for a mask that is not a single bit. -/
def Obligations.SeTickHalfPhases : Prop :=
  ∀ s : State, s.faulted = false → Quiet s →
    (s.se = .idle → exec .seTick s = .next { s with
      rspCode := .ok, rspData := none, rspExp := none, rspRcv := none }) ∧
    (∀ mask tx rx, s.se = .xfer false mask tx rx → maskLegal mask = true → exec .seTick s = .next { s with
      se := .xfer true mask tx rx, mosi := (tx &&& mask != 0), sck := false
      evt := s.evt ++ [.drive .mosi (tx &&& mask != 0), .drive .sck false]
      lineDraws := s.lineDraws.drop 2
      rspCode := .ok, rspData := none, rspExp := none, rspRcv := none }) ∧
    (∀ mask tx rx, s.se = .xfer true mask tx rx → maskLegal mask = true →
      exec .seTick s = .next { s with
        se := if mask = 0x01 then .idle
          else .xfer false (mask >>> 1) tx (if peerAnswer s 0 then rx ||| mask else rx)
        rxp := if mask = 0x01 then some (if peerAnswer s 0 then rx ||| mask else rx) else s.rxp
        sck := true
        evt := s.evt ++ [.drive .sck true, .sample (peerAnswer s 0)]
        miso := s.miso.drop 1, samples := s.samples + (1 - s.miso.length), lineDraws := s.lineDraws.drop 2
        rspCode := .ok, rspData := none, rspExp := none, rspRcv := none }) ∧
    (∀ phase mask tx rx, s.se = .xfer phase mask tx rx → maskLegal mask = false → exec .seTick s = .next { s with
      faulted := true, rspCode := .invariantFault, rspData := none, rspExp := none, rspRcv := none })

/-- `SE_READ` (R132): `WOULD_BLOCK` in a transfer whatever is published; the published byte once; `EXHAUSTED`. -/
def Obligations.SeReadThreeOutcomes : Prop :=
  ∀ s : State, s.faulted = false →
    (s.se ≠ .idle → exec .seRead s = .next { s with
      rspCode := .wouldBlock, rspData := none, rspExp := none, rspRcv := none }) ∧
    (∀ v, s.se = .idle → s.rxp = some v → exec .seRead s = .next { s with
      rxp := none, rspCode := .ok, rspData := some v, rspExp := none, rspRcv := none }) ∧
    (s.se = .idle → s.rxp = none → exec .seRead s = .next { s with
      rspCode := .exhausted, rspData := none, rspExp := none, rspRcv := none })

/-- One byte takes exactly 16 ticks (R135): the engine's phase and mask after each, and after the sixteenth the byte the
peer presented, most significant bit first, with the line events of R104. -/
def Obligations.SixteenTicksMoveOneByte : Prop :=
  ∀ (byte : Byte) (s : State), s.faulted = false → Quiet s → s.se = .idle →
    ∃ s0, exec (.seSend byte) s = .next s0 ∧
      (∀ k ≤ 15, ∃ rx, (execTicks k s0).se = .xfer (k % 2 == 1) (0x80 >>> (k / 2)) byte rx) ∧
      (execTicks 16 s0).se = .idle ∧ (execTicks 16 s0).rxp = some (peerByte s) ∧
      (execTicks 16 s0).evt = s.evt ++ byteEvents byte (peerByte s)

/-- `SE_XFER` from an idle engine, no line operation failing (R140, R141): `BUF[0..len-1]` is sent and replaced by what the
peer presents; chip select, the checksum accumulator and everything else are untouched. -/
def Obligations.SeXferExchangesBuffer : Prop :=
  ∀ (len : BitVec 4) (s : State), len ≠ 0 → s.faulted = false → Quiet s → s.se = .idle →
    exec (.seXfer len) s = .next { afterBytes (payload len.toNat s) s with
      buf := overlay (slotBytes (payload len.toNat s) s) s.buf
      rspCode := .ok, rspData := none, rspExp := none, rspRcv := none }

/-- A byte in flight is clocked out before a transfer begins (R140): `SE_XFER` does what it does after sixteen more ticks.
The framer asserts chip select first (R253): it ends in the state it ends in after those ticks, but for the event log, where
the remaining bits stand behind the assertion. -/
def Obligations.TransferFirstClocksOutByteInFlight : Prop :=
  ∀ s : State, s.faulted = false → Quiet s →
    (∀ len : BitVec 4, len ≠ 0 → exec (.seXfer len) s = exec (.seXfer len) (execTicks 16 s)) ∧
    ∀ (i : Instr) (t u : State), frames i = true → i.wf = true → engineLegal s.se = true →
      exec i s = .next t → exec i (execTicks 16 s) = .next u →
      ∃ bits rest, (execTicks 16 s).evt = s.evt ++ bits ∧ u.evt = s.evt ++ bits ++ [.drive .csN false] ++ rest ∧
        t = { u with evt := s.evt ++ [.drive .csN false] ++ bits ++ rest }

/-- No synchronous transfer ever reports `WOULD_BLOCK` or `EXHAUSTED`, from any state (R140, R333). -/
def Obligations.TransfersNeverReportBlocking : Prop :=
  ∀ (i : Instr) (s t : State), transfers i = true → exec i s = .next t →
    t.rspCode ≠ .wouldBlock ∧ t.rspCode ≠ .exhausted

/-- From any legal engine state, a byte in flight or not, a transfer whose line operations do not fail ends: `OK` or a
checksum mismatch, the engine idle, nothing left published, the clock high (R140, R105). -/
def Obligations.TransfersEndFromAnyEngineState : Prop :=
  ∀ (i : Instr) (s : State), transfers i = true → s.faulted = false → Quiet s → engineLegal s.se = true →
    (∀ len, (i = .seXfer len ∨ i = .frRaw len ∨ (∃ a, i = .frRead a len) ∨ ∃ a, i = .frWrite a len) → len ≠ 0) →
    ∃ t, exec i s = .next t ∧ (t.rspCode = .ok ∨ t.rspCode = .checksumMismatch) ∧ t.se = .idle ∧ t.rxp = none ∧
      t.sck = true ∧ t.faulted = false

/-! ## Checksum accumulator -/

/-- `CK_NEW` (R170): the mode is set and the state zeroed, nothing else but the responses. -/
def Obligations.CkNewZeroesAccumulator : Prop :=
  ∀ (mode : ChecksumMode) (s : State), s.faulted = false →
    exec (.ckNew mode) s = .next { s with
      ckMode := mode, ckState := 0x00, rspCode := .ok, rspData := none, rspExp := none, rspRcv := none }

/-- `CK_FEED` (R171): nothing in `Off` mode, exclusive or in `Xor` mode, and in `Crc` mode one shift for each bit of the
byte, most significant first, with 0x07 XORed in where the bit shifted out differs from the incoming one. -/
def Obligations.CkFeedAddsByte : Prop :=
  ∀ (byte : Byte) (s : State), s.faulted = false →
    exec (.ckFeed byte) s = .next { s with
      ckState := match s.ckMode with
        | .off => s.ckState
        | .xor => s.ckState ^^^ byte
        | .crc => (byteBits byte).foldl
            (fun c inb => if inb != c.getLsbD 7 then (c <<< 1) ^^^ 0x07 else c <<< 1) s.ckState
      rspCode := .ok, rspData := none, rspExp := none, rspRcv := none }

/-- `CK_RESULT` (R172): `None` in `Off` mode, else the state; nothing changes but the responses. -/
def Obligations.CkResultAnswersChecksum : Prop :=
  ∀ s : State, s.faulted = false →
    exec .ckResult s = .next { s with
      rspCode := .ok, rspData := if s.ckMode = .off then none else some s.ckState, rspExp := none, rspRcv := none }

/-- The bit-wise feed equals the byte-wise form of R173, and the check value of R173 comes out. -/
def Obligations.CrcEqualsBytewiseForm : Prop :=
  (∀ (bytes : List Byte) (c : Byte), bytes.foldl (feedByte .crc) c = bytes.foldl crcBytewise c) ∧
  checksumOf .crc [0x31, 0x32, 0x33, 0x34, 0x35, 0x36, 0x37, 0x38, 0x39] = 0xF4

/-- The laws of R174: the XOR of a list ignores order, cancels a byte fed twice and ignores 0x00; the CRC depends on
order, keeps a zero state under 0x00, and feeding `b` from `c` is feeding `b xor c` from zero. -/
def Obligations.ChecksumLaws : Prop :=
  (∀ bytes : List Byte, checksumOf .xor bytes = bytes.foldr (· ^^^ ·) 0) ∧
  (∀ bs cs : List Byte, bs.Perm cs → checksumOf .xor bs = checksumOf .xor cs) ∧
  (∀ (b : Byte) (bs : List Byte), checksumOf .xor (bs ++ [b, b]) = checksumOf .xor bs) ∧
  (∀ bs : List Byte, checksumOf .xor (bs ++ [0x00]) = checksumOf .xor bs) ∧
  (∃ bs cs : List Byte, bs.Perm cs ∧ checksumOf .crc bs ≠ checksumOf .crc cs) ∧
  feedByte .crc 0x00 0x00 = 0x00 ∧
  (∀ c b : Byte, feedByte .crc c b = feedByte .crc 0x00 (b ^^^ c))

/-- A host that issues `CK_NEW`, one `CK_FEED` for each byte, and `CK_RESULT`, as command words, is answered the checksum
of the bytes (R170, R171, R172, R397). -/
def Obligations.HostFeedsAListOfBytes : Prop :=
  ∀ (mode : ChecksumMode) (bytes : List Byte) (s : State), s.faulted = false →
    (runAll (commandWord 0x3 (modeCode mode) 0 0 :: (bytes.map fun b => commandWord 0x4 0 b 0) ++ [commandWord 0x5 0 0 0])
      s).responses.getLast? = some ⟨.ok, trailerOf mode bytes, none, none⟩

/-! ## Framer -/

/-- `FR_READ` from an idle engine, no line operation failing (R242): one chip-select window of address byte, zeroed payload
and trailer slot; the received payload in `BUF` and in the checksum; `OK`, or `CHECKSUM_MISMATCH` with both checksums. -/
def Obligations.FrReadTransaction : Prop :=
  ∀ (addr : Byte) (len : BitVec 4) (s : State), len ≠ 0 → s.faulted = false → Quiet s → s.se = .idle →
    let n := len.toNat
    let frame := (addr ||| 0x40) :: List.replicate (if s.curMode = .off then n else n + 1) 0x00
    let got := windowBytes frame s
    let data := (got.drop 1).take n
    let expected := trailerOf s.curMode ((addr ||| 0x40) :: data)
    let received := if s.curMode = .off then none else got[n + 1]?
    let t := { afterWindow frame s with
      ckMode := s.curMode, ckState := checksumOf s.curMode ((addr ||| 0x40) :: data)
      buf := overlay data s.buf, rspData := none, rspExp := none, rspRcv := none }
    exec (.frRead addr len) s = .next
      (if expected = received then { t with rspCode := .ok }
        else { t with rspCode := .checksumMismatch, rspExp := expected, rspRcv := received })

/-- `FR_WRITE` from an idle engine, no line operation failing (R243): one chip-select window of address, payload and, unless
the mode is `Off`, the CRC of them; what is received is discarded and `BUF` is unchanged. -/
def Obligations.FrWriteTransaction : Prop :=
  ∀ (addr : Byte) (len : BitVec 4) (s : State), len ≠ 0 → s.faulted = false → Quiet s → s.se = .idle →
    let body := addr :: payload len.toNat s
    let mode := if s.curMode = .off then ChecksumMode.off else ChecksumMode.crc
    exec (.frWrite addr len) s = .next { afterWindow (body ++ (trailerOf mode body).toList) s with
      ckMode := mode, ckState := checksumOf mode body
      rspCode := .ok, rspData := none, rspExp := none, rspRcv := none }

/-- `FR_RAW` from an idle engine, no line operation failing (R244): one chip-select window of `BUF[0..len-1]`, in place,
without address byte or trailer; the accumulator and the mode are untouched. -/
def Obligations.FrRawTransaction : Prop :=
  ∀ (len : BitVec 4) (s : State), len ≠ 0 → s.faulted = false → Quiet s → s.se = .idle →
    exec (.frRaw len) s = .next { afterWindow (payload len.toNat s) s with
      buf := overlay (windowBytes (payload len.toNat s) s) s.buf
      rspCode := .ok, rspData := none, rspExp := none, rspRcv := none }

/-- The two wire rows name what the peer reads in the first byte of a register frame (R100): the first eight bits of every
`FR_READ` are a read address byte; those of `FR_WRITE` are the address unchanged, so one with bit 6 set reads as a read. A row
by itself changes nothing of the block: the register space is reached by the two commands alone (R61) and nothing but a
command changes the block (R348; that the model gives the peer's reading a step is its choice, log entry 3). -/
def Obligations.WireRowsNameTheFirstByteOfFrames : Prop :=
  (∀ (addr : Byte) (s : State), exec (.wireReadAddr addr) s = .next s ∧ exec (.wireWriteAddr addr) s = .next s) ∧
  ∀ (addr : Byte) (len : BitVec 4) (s t u : State), len ≠ 0 → s.faulted = false → Quiet s → s.se = .idle →
    exec (.frRead addr len) s = .next t → exec (.frWrite addr len) s = .next u →
    ∃ a b, (mosiBits (t.evt.drop s.evt.length)).take 8 = byteBits a ∧
      (mosiBits (u.evt.drop s.evt.length)).take 8 = byteBits b ∧
      decode (.address a) = .ok (.wireReadAddr (addr &&& 0xBF)) ∧
      decode (.address b) =
        .ok (if addr.getLsbD 6 then .wireReadAddr (addr &&& 0xBF) else .wireWriteAddr addr)

/-- What the peer takes from `MOSI` in each frame, most significant bit first: exactly the bytes R102 lists; the write
trailer is the CRC whenever the mode is not `Off` (R63, R102, R104, R246). -/
def Obligations.FrameBytesOnTheLink : Prop :=
  ∀ (addr : Byte) (len : BitVec 4) (s t u v : State), len ≠ 0 → s.faulted = false → Quiet s → s.se = .idle →
    exec (.frRead addr len) s = .next t → exec (.frWrite addr len) s = .next u → exec (.frRaw len) s = .next v →
    mosiBits (t.evt.drop s.evt.length) =
      ((addr ||| 0x40) :: List.replicate (if s.curMode = .off then len.toNat else len.toNat + 1) 0x00).flatMap byteBits ∧
    mosiBits (u.evt.drop s.evt.length) =
      (addr :: payload len.toNat s ++
        if s.curMode = .off then [] else [checksumOf .crc (addr :: payload len.toNat s)]).flatMap byteBits ∧
    mosiBits (v.evt.drop s.evt.length) = (payload len.toNat s).flatMap byteBits

/-- The checksum mode of each frame kind (R246): a read's is the current mode; a write's is `Off` when that is `Off` and
CRC otherwise. -/
def Obligations.WriteChecksumIsForcedToCrc : Prop :=
  ∀ (addr : Byte) (len : BitVec 4) (s t u : State), len ≠ 0 → s.faulted = false →
    exec (.frRead addr len) s = .next t → exec (.frWrite addr len) s = .next u →
    t.ckMode = s.curMode ∧
    (s.curMode = .off → u.ckMode = .off) ∧ (s.curMode = .xor → u.ckMode = .crc) ∧ (s.curMode = .crc → u.ckMode = .crc)

/-- Each framer frame that completes is one chip-select window (R68, R241): low before its first event, high after its
last, no other chip-select event between; no other command drives chip select. -/
def Obligations.FramesAreOneChipSelectWindow : Prop :=
  ∀ (i : Instr) (s t : State), exec i s = .next t →
    (frames i = true → (t.rspCode = .ok ∨ t.rspCode = .checksumMismatch) → t.csN = true ∧
      ∃ es, t.evt = s.evt ++ [.drive .csN false] ++ es ++ [.drive .csN true] ∧ ChipSelectFree es) ∧
    (frames i = false → t.csN = s.csN ∧ ∃ es, t.evt = s.evt ++ es ∧ ChipSelectFree es)

/-- How many line events a command causes, no line operation failing (R395): none for a command that clocks no byte, from any
state; two for a tick, none while idle; from an idle engine, 32 for each byte of a transfer, and two for chip select. -/
def Obligations.LineEventCounts : Prop :=
  (∀ (i : Instr) (s t : State), clocks i = false → exec i s = .next t → t.evt.length = s.evt.length) ∧
  (∀ s : State, s.faulted = false → Quiet s → engineLegal s.se = true →
    ∃ t, exec .seTick s = .next t ∧ t.evt.length = s.evt.length + if s.se = .idle then 0 else 2) ∧
  ∀ (addr : Byte) (len : BitVec 4) (s : State), len ≠ 0 → s.faulted = false → Quiet s → s.se = .idle →
    let trailer := if s.curMode = .off then 0 else 1
    (∃ t, exec (.seXfer len) s = .next t ∧ t.evt.length = s.evt.length + 32 * len.toNat) ∧
    (∃ t, exec (.frRaw len) s = .next t ∧ t.evt.length = s.evt.length + 32 * len.toNat + 2) ∧
    (∃ t, exec (.frRead addr len) s = .next t ∧
      t.evt.length = s.evt.length + 32 * (1 + len.toNat + trailer) + 2) ∧
    (∃ t, exec (.frWrite addr len) s = .next t ∧
      t.evt.length = s.evt.length + 32 * (1 + len.toNat + trailer) + 2)

/-- A checksum mismatch is reported by `FR_READ` alone, never in `Off` mode, and always with two different checksums
(R251, R338). -/
def Obligations.MismatchHasTwoDifferentChecksums : Prop :=
  ∀ (i : Instr) (s t : State), commands i = true → exec i s = .next t → t.rspCode = .checksumMismatch →
    (∃ a n, i = .frRead a n) ∧ s.curMode ≠ .off ∧ ∃ x y, t.rspExp = some x ∧ t.rspRcv = some y ∧ x ≠ y

/-- `FR_SETMODE` (R247): the local mode alone changes. -/
def Obligations.FrSetModeSetsLocalMode : Prop :=
  ∀ (mode : ChecksumMode) (s : State), s.faulted = false →
    exec (.frSetMode mode) s = .next { s with
      curMode := mode, rspCode := .ok, rspData := none, rspExp := none, rspRcv := none }

/-- `FR_GETMODE` (R250): 0x00 for `Off`, 0x01 for `Xor`, 0x02 for `Crc`; nothing changes but the responses. -/
def Obligations.FrGetModeAnswersCode : Prop :=
  ∀ s : State, s.faulted = false →
    exec .frGetMode s = .next { s with
      rspCode := .ok, rspExp := none, rspRcv := none
      rspData := some (match s.curMode with | .off => 0x00 | .xor => 0x01 | .crc => 0x02) }

/-- `BUF_WR` (R248): one element of the buffer changes. -/
def Obligations.BufWrWritesOneByte : Prop :=
  ∀ (idx : BitVec 4) (byte : Byte) (s : State), idx ≠ 15 → s.faulted = false →
    ∃ t, exec (.bufWr idx byte) s = .next t ∧
      t = { s with buf := t.buf, rspCode := .ok, rspData := none, rspExp := none, rspRcv := none } ∧
      ∀ j (h : j < 15), t.buf[j] = if j = idx.toNat then byte else s.buf[j]

/-- `BUF_RD` (R249): the element is answered, nothing changes but the responses. -/
def Obligations.BufRdReadsOneByte : Prop :=
  ∀ (idx : BitVec 4) (s : State) (h : idx.toNat < 15), s.faulted = false →
    exec (.bufRd idx) s = .next { s with
      rspCode := .ok, rspData := some s.buf[idx.toNat], rspExp := none, rspRcv := none }

/-! ## Line failures -/

/-- `TRANSPORT_ERROR` is answered only where the hardware's lines can fail and a failure was drawn (R336). -/
def Obligations.TransportErrorNeedsAFailingLine : Prop :=
  ∀ (i : Instr) (s t : State), commands i = true → exec i s = .next t →
    t.rspCode ≠ .transportError ∨ (Config.pLineFault = true ∧ ∃ f, some f ∈ s.lineDraws)

/-- `FR_READ` whose first line operation is drawn to fail (R336, R339): where lines can fail, `TRANSPORT_ERROR` at once,
`BUF` unchanged, chip select and the engine as drawn, no checksum compared; where they cannot, the draw has no effect. The
list of draws is the model's choice (log entry 5); that the engine and the published byte are one reachable pair, and that
`SCK` and `MOSI` keep their levels, is its inference (log entry 6, DEDUCED). -/
def Obligations.FrReadWithFailingChipSelect : Prop :=
  ∀ (addr : Byte) (len : BitVec 4) (s : State) (f : LineFailure) (rest : List (Option LineFailure)),
    len ≠ 0 → s.faulted = false → s.lineDraws = some f :: rest →
    if Config.pLineFault then
      ∃ t, exec (.frRead addr len) s = .next t ∧ t.rspCode = .transportError ∧ t.rspExp = none ∧ t.rspRcv = none ∧
        t.buf = s.buf ∧ t.csN = f.level ∧ t.se = drawnEngine f.engine ∧ t.rxp = drawnRxp f.engine ∧ t.sck = s.sck ∧
        t.mosi = s.mosi ∧ t.lineDraws = rest
    else exec (.frRead addr len) s = exec (.frRead addr len) { s with lineDraws := none :: rest }

/-- A register frame that ends in an error of a line operation or of the transfer leaves `BUF` as it was: `FR_WRITE` never
writes it (R243), and `FR_READ` writes it only once the frame is through (R242; for a failing second drive of chip select an
inference of the model, log entry 16, DEDUCED). After an impossible mask chip select is left asserted (R241, R336, R337). -/
def Obligations.FailedFramesLeaveBuffer : Prop :=
  ∀ (addr : Byte) (len : BitVec 4) (i : Instr) (s t : State), (i = .frRead addr len ∨ i = .frWrite addr len) →
    len ≠ 0 → s.faulted = false → exec i s = .next t → t.rspCode ≠ .ok → t.rspCode ≠ .checksumMismatch →
    t.buf = s.buf ∧ (t.rspCode = .transportError ∨ t.rspCode = .invariantFault ∧ t.faulted = true ∧ t.csN = false)

/-! ## Frames -/

/-- What a command that clocks no byte leaves unchanged: the lines, the event log, the peer's answers and the line draws;
and, but for `SE_SEND` and `SE_READ`, the shift engine (R27, R134, R395). -/
def Obligations.OtherCommandsLeaveTheLink : Prop :=
  ∀ (i : Instr) (s t : State), clocks i = false → exec i s = .next t →
    t.sck = s.sck ∧ t.mosi = s.mosi ∧ t.csN = s.csN ∧ t.evt = s.evt ∧ t.miso = s.miso ∧ t.samples = s.samples ∧
    t.lineDraws = s.lineDraws ∧ t.faulted = s.faulted ∧
    ((∀ b, i ≠ .seSend b) → t.se = s.se ∧ (i ≠ .seRead → t.rxp = s.rxp))

/-- Only `CK_NEW` and the fresh accumulator of a register frame change `CK_MODE`; besides these only `CK_FEED` changes
`CK_STATE` (R30). -/
def Obligations.OnlyFreshAccumulatorsChangeTheMode : Prop :=
  ∀ (i : Instr) (s t : State), freshens i = false → exec i s = .next t →
    t.ckMode = s.ckMode ∧ ((∀ b, i ≠ .ckFeed b) → t.ckState = s.ckState)

/-- Only `FR_SETMODE` writes `CUR_MODE` (R31), and no command takes or adds a stimulus of the host. -/
def Obligations.OnlyFrSetModeWritesCurMode : Prop :=
  ∀ (i : Instr) (s t : State), exec i s = .next t →
    ((∀ m, i ≠ .frSetMode m) → t.curMode = s.curMode) ∧ t.input = s.input

/-- The elements of `BUF` a command may change (R62): those of its own payload, or the one element `BUF_WR` names. -/
def Obligations.CommandsKeepTheRestOfBuf : Prop :=
  ∀ (i : Instr) (s t : State), exec i s = .next t →
    ∀ j (h : j < 15), writesBuf j i = false → t.buf[j] = s.buf[j]

/-- The event log only grows (R35), and `FAULTED` changes only with the answer `INVARIANT_FAULT` (R34, R337). -/
def Obligations.EventLogOnlyGrows : Prop :=
  ∀ (i : Instr) (s t : State), exec i s = .next t →
    s.evt <+: t.evt ∧ (t.faulted = s.faulted ∨ t.rspCode = .invariantFault)

/-! ## Invariant -/

/-- The invariant holds after reset (R24, R28, R39). -/
def Obligations.InvHoldsAtReset : Prop := Inv State.reset

/-- Every step of every state that has the invariant keeps it: legal engine state (R24), nothing published while a byte is
in flight (R131), no fault (R337), clock high when idle where lines cannot fail (R28); whatever the peer answers, whatever
line operations fail, whatever the host sends. -/
def Obligations.EveryStepKeepsInv : Prop :=
  ∀ s t : State, Inv s → step s = .next t → Inv t

/-- No state with the invariant raises `INVARIANT_FAULT` (R131, R337: no reachable state raises it). -/
def Obligations.InvariantFaultIsUnreachable : Prop :=
  ∀ (w : CommandWord) (s t : State), Inv s → accept (.command w) s = .next t → t.rspCode ≠ .invariantFault

/-- Every run from reset, whatever its command words, the peer's script and the draws of its line operations, is safe, is
answered once for each word, never answers `INVARIANT_FAULT`, and answers `TRANSPORT_ERROR` only where lines can fail and a
failure was drawn (R336, R337, R397; the draws as a list are the model's choice, log entry 5). -/
def Obligations.EveryRunIsSafe : Prop :=
  ∀ (words : List CommandWord) (script : List Level) (draws : List (Option LineFailure)),
    let o := run words script draws
    SafeRun words script draws ∧ faultedRun o = false ∧ o.responses.length = words.length ∧
    ∀ r ∈ o.responses, r.code ≠ .invariantFault ∧
      (r.code = .transportError → Config.pLineFault = true ∧ ∃ f, some f ∈ draws)

/-! ## The boundary: host codec and host sequences -/

/-- Multi-byte values are big-endian (R210) and survive the round trip; Status has the fields of R211, which do too (R215).
That its unnamed bits 3 and 2 are given to the encoder is the model's inference (log entry 14, DEDUCED). -/
def Obligations.PeerValuesRoundTrip : Prop :=
  (∀ v : BitVec 24, ∃ b0 b1 b2, bytesOfData v = [b0, b1, b2] ∧ dataOfBytes b0 b1 b2 = v ∧
    v.toNat = b0.toNat * 65536 + b1.toNat * 256 + b2.toNat) ∧
  (∀ v : BitVec 16, ∃ b0 b1, bytesOfWord v = [b0, b1] ∧ wordOfBytes b0 b1 = v ∧ v.toNat = b0.toNat * 256 + b1.toNat) ∧
  (∀ b : Byte, (decodeStatus b).ready = !b.getLsbD 7 ∧ (decodeStatus b).adcError = b.getLsbD 6 ∧
    (decodeStatus b).crcError = b.getLsbD 5 ∧ (decodeStatus b).regError = b.getLsbD 4 ∧
    (decodeStatus b).channel.toNat = b.toNat % 4) ∧
  ∀ (u : BitVec 2) (f : StatusFields), decodeStatus (encodeStatus u f) = f

/-- Encoding a register's fields and decoding them gives them back, in every layout (R215): IfMode's checksum mode, where the
other bits of the byte stay (R212, R295), and the fields of Channel, SetupCon, FiltCon and GpioCon, for values that fit their
fields (R213, R214; a field as a contiguous stretch of bits and disjoint fields in a layout, and a set
bit as true in a one-bit field, are the model's choice, log entry 11). -/
def Obligations.RegisterFieldsRoundTrip : Prop :=
  (∀ (m : ChecksumMode) (b1 : Byte), ifModeOf (setIfMode m b1) = some m ∧
    ∀ k, k ≠ 2 → k ≠ 3 → (setIfMode m b1).getLsbD k = b1.getLsbD k) ∧
  (∀ (l : ChannelLayout) (f : ChannelFields) (v : BitVec 16), f.fits l = true →
    decodeChannel l (encodeChannel l f v) = f) ∧
  (∀ (l : SetupConLayout) (f : SetupConFields) (v : BitVec 16), f.fits l = true →
    decodeSetupCon l (encodeSetupCon l f v) = f) ∧
  (∀ (l : FiltConLayout) (f : FiltConFields) (v : BitVec 16), f.fits l = true →
    decodeFiltCon l (encodeFiltCon l f v) = f) ∧
  ∀ (l : GpioConLayout) (b : Bool) (v : BitVec (8 * l.bytes)), gpioSyncEn l (setGpioSyncEn l b v) = b

/-- A field at any position inside the register is read back as written, cut to the field's width, and a mutator changes only
the bits of its own field (R215). That a field is one contiguous stretch of bits and that a wider value is cut is the model's
choice (log entry 11). -/
def Obligations.FieldMutatorsChangeOnlyTheirBits : Prop :=
  ∀ (n : Nat) (p : FieldPos) (x v : BitVec n), p.lo + p.width ≤ n →
    getField p (setField p x v) = x &&& fieldMask n p.width ∧
    ∀ k, (k < p.lo ∨ p.lo + p.width ≤ k) → (setField p x v).getLsbD k = v.getLsbD k

/-- `UPDATE_REG` stops at a failing read: nothing is written, the state is the one the read left (R290). -/
def Obligations.UpdateRegStopsAtFailedRead : Prop :=
  ∀ (addr : Byte) (len : BitVec 4) (f : List Byte → List Byte × Byte) (s t : State),
    exec (.frRead addr len) s = .next t → t.rspCode ≠ .ok →
    updateReg addr len f s = .failed t.rspCode t

/-- `UPDATE_REG` after a read that succeeded, no line operation failing (R290): the host function's payload lies in `BUF` and
is written back in one frame to the same address, and the function's value is returned. -/
def Obligations.UpdateRegWritesBack : Prop :=
  ∀ (addr : Byte) (len : BitVec 4) (f : List Byte → List Byte × Byte) (s t : State),
    (∀ p, (f p).1.length = p.length) → len ≠ 0 → s.faulted = false → Quiet s → s.se = .idle →
    exec (.frRead addr len) s = .next t → t.rspCode = .ok →
    let new := f (payload len.toNat t)
    let mode := if s.curMode = .off then ChecksumMode.off else ChecksumMode.crc
    ∃ u, updateReg addr len f s = .done new.2 u ∧ payload len.toNat u = new.1 ∧
      mosiBits (u.evt.drop t.evt.length) =
        (addr :: new.1 ++ (trailerOf mode (addr :: new.1)).toList).flatMap byteBits

/-- `SET_CHECKSUM_MODE` (R295, R296): if the IfMode read fails it stops there and the local mode is unchanged; if it
succeeds, IfMode's field is changed and written back to 0x02 in a frame of the new mode: address, `BUF[0]`, the changed
`BUF[1]`, and the CRC unless the new mode is `Off`. -/
def Obligations.SetChecksumModeOrder : Prop :=
  ∀ (mode : ChecksumMode) (s t : State), s.faulted = false → Quiet s → s.se = .idle →
    exec (.frRead 0x02 2) s = .next t →
    let frame : List Byte := [0x02, t.buf[0], setIfMode mode t.buf[1]]
    let forced := if mode = .off then ChecksumMode.off else ChecksumMode.crc
    if t.rspCode = .ok then
      ∃ u, setChecksumMode mode s = .done () u ∧ u.curMode = mode ∧ u.ckMode = forced ∧ u.rspCode = .ok ∧
        mosiBits (u.evt.drop t.evt.length) = (frame ++ (trailerOf forced frame).toList).flatMap byteBits ∧
        u.buf[1] = setIfMode mode t.buf[1] ∧ ∀ j (h : j < 15), j ≠ 1 → u.buf[j] = t.buf[j]
    else setChecksumMode mode s = .failed t.rspCode t ∧ t.curMode = s.curMode

/-- `IDENTIFY` without checksums (R293): the value is what the peer presents in the two payload slots, big-endian, and it
matches exactly from 0x00D0 to 0x00DF. -/
def Obligations.IdentifyClassifiesPeerId : Prop :=
  ∀ s : State, s.faulted = false → Quiet s → s.se = .idle → s.curMode = .off →
    let got := windowBytes [0x47, 0x00, 0x00] s
    ∃ t id, got[1]? = some (id.extractLsb' 8 8) ∧ got[2]? = some (id.extractLsb' 0 8) ∧
      identify s = .done
        (if 0x00D0 ≤ id.toNat ∧ id.toNat ≤ 0x00DF then .matched id else .mismatch id) t

/-- `DEV_RESET` (R299): 64 one-bits under one chip-select window; the local mode and the accumulator are unchanged. -/
def Obligations.DevResetSendsSixtyFourOnes : Prop :=
  ∀ s : State, s.faulted = false → Quiet s → s.se = .idle →
    ∃ t es, devReset s = .done () t ∧
      t.evt = s.evt ++ [.drive .csN false] ++ es ++ [.drive .csN true] ∧ ChipSelectFree es ∧
      mosiBits es = List.replicate 64 true ∧ t.curMode = s.curMode ∧ t.ckMode = s.ckMode ∧ t.ckState = s.ckState

/-- `SETUP_CHANNEL` with an index outside 0..3 is refused and nothing is issued (R201, R393). -/
def Obligations.SetupChannelRefusesBadIndex : Prop :=
  ∀ (index : Nat) (pos neg : BitVec 16) (s : State), 3 < index →
    setupChannel index pos neg s = .refused .channelIndexOutOfRange
end

