-- ==== Sys2Proof/Laws/State.lean ====
section
/-! SUPPORT. One lemma per field per update: what each named update of State leaves in each field. -/

namespace Sys2Proof.Machine

/-! ### logEvent -/

@[simp] theorem logEvent_se (e : Event) (s : State) : (logEvent e s).se = s.se := rfl
@[simp] theorem logEvent_rxp (e : Event) (s : State) : (logEvent e s).rxp = s.rxp := rfl
@[simp] theorem logEvent_sck (e : Event) (s : State) : (logEvent e s).sck = s.sck := rfl
@[simp] theorem logEvent_mosi (e : Event) (s : State) : (logEvent e s).mosi = s.mosi := rfl
@[simp] theorem logEvent_csN (e : Event) (s : State) : (logEvent e s).csN = s.csN := rfl
@[simp] theorem logEvent_ckMode (e : Event) (s : State) : (logEvent e s).ckMode = s.ckMode := rfl
@[simp] theorem logEvent_ckState (e : Event) (s : State) : (logEvent e s).ckState = s.ckState := rfl
@[simp] theorem logEvent_curMode (e : Event) (s : State) : (logEvent e s).curMode = s.curMode := rfl
@[simp] theorem logEvent_buf (e : Event) (s : State) : (logEvent e s).buf = s.buf := rfl
@[simp] theorem logEvent_rspCode (e : Event) (s : State) : (logEvent e s).rspCode = s.rspCode := rfl
@[simp] theorem logEvent_rspData (e : Event) (s : State) : (logEvent e s).rspData = s.rspData := rfl
@[simp] theorem logEvent_rspExp (e : Event) (s : State) : (logEvent e s).rspExp = s.rspExp := rfl
@[simp] theorem logEvent_rspRcv (e : Event) (s : State) : (logEvent e s).rspRcv = s.rspRcv := rfl
@[simp] theorem logEvent_faulted (e : Event) (s : State) : (logEvent e s).faulted = s.faulted := rfl
@[simp] theorem logEvent_evt (e : Event) (s : State) : (logEvent e s).evt = s.evt ++ [e] := rfl
@[simp] theorem logEvent_input (e : Event) (s : State) : (logEvent e s).input = s.input := rfl
@[simp] theorem logEvent_miso (e : Event) (s : State) : (logEvent e s).miso = s.miso := rfl
@[simp] theorem logEvent_samples (e : Event) (s : State) : (logEvent e s).samples = s.samples := rfl
@[simp] theorem logEvent_lineDraws (e : Event) (s : State) : (logEvent e s).lineDraws = s.lineDraws := rfl

/-! ### setLine -/

@[simp] theorem setLine_se (l : Line) (b : Level) (s : State) : (setLine l b s).se = s.se := by cases l <;> rfl
@[simp] theorem setLine_rxp (l : Line) (b : Level) (s : State) : (setLine l b s).rxp = s.rxp := by cases l <;> rfl
@[simp] theorem setLine_ckMode (l : Line) (b : Level) (s : State) : (setLine l b s).ckMode = s.ckMode := by cases l <;> rfl
@[simp] theorem setLine_ckState (l : Line) (b : Level) (s : State) : (setLine l b s).ckState = s.ckState := by cases l <;> rfl
@[simp] theorem setLine_curMode (l : Line) (b : Level) (s : State) : (setLine l b s).curMode = s.curMode := by cases l <;> rfl
@[simp] theorem setLine_buf (l : Line) (b : Level) (s : State) : (setLine l b s).buf = s.buf := by cases l <;> rfl
@[simp] theorem setLine_rspCode (l : Line) (b : Level) (s : State) : (setLine l b s).rspCode = s.rspCode := by cases l <;> rfl
@[simp] theorem setLine_rspData (l : Line) (b : Level) (s : State) : (setLine l b s).rspData = s.rspData := by cases l <;> rfl
@[simp] theorem setLine_rspExp (l : Line) (b : Level) (s : State) : (setLine l b s).rspExp = s.rspExp := by cases l <;> rfl
@[simp] theorem setLine_rspRcv (l : Line) (b : Level) (s : State) : (setLine l b s).rspRcv = s.rspRcv := by cases l <;> rfl
@[simp] theorem setLine_faulted (l : Line) (b : Level) (s : State) : (setLine l b s).faulted = s.faulted := by cases l <;> rfl
@[simp] theorem setLine_evt (l : Line) (b : Level) (s : State) : (setLine l b s).evt = s.evt := by cases l <;> rfl
@[simp] theorem setLine_input (l : Line) (b : Level) (s : State) : (setLine l b s).input = s.input := by cases l <;> rfl
@[simp] theorem setLine_miso (l : Line) (b : Level) (s : State) : (setLine l b s).miso = s.miso := by cases l <;> rfl
@[simp] theorem setLine_samples (l : Line) (b : Level) (s : State) : (setLine l b s).samples = s.samples := by cases l <;> rfl
@[simp] theorem setLine_lineDraws (l : Line) (b : Level) (s : State) : (setLine l b s).lineDraws = s.lineDraws := by cases l <;> rfl

/-! ### popDraw -/

@[simp] theorem popDraw_se (s : State) : (popDraw s).se = s.se := rfl
@[simp] theorem popDraw_rxp (s : State) : (popDraw s).rxp = s.rxp := rfl
@[simp] theorem popDraw_sck (s : State) : (popDraw s).sck = s.sck := rfl
@[simp] theorem popDraw_mosi (s : State) : (popDraw s).mosi = s.mosi := rfl
@[simp] theorem popDraw_csN (s : State) : (popDraw s).csN = s.csN := rfl
@[simp] theorem popDraw_ckMode (s : State) : (popDraw s).ckMode = s.ckMode := rfl
@[simp] theorem popDraw_ckState (s : State) : (popDraw s).ckState = s.ckState := rfl
@[simp] theorem popDraw_curMode (s : State) : (popDraw s).curMode = s.curMode := rfl
@[simp] theorem popDraw_buf (s : State) : (popDraw s).buf = s.buf := rfl
@[simp] theorem popDraw_rspCode (s : State) : (popDraw s).rspCode = s.rspCode := rfl
@[simp] theorem popDraw_rspData (s : State) : (popDraw s).rspData = s.rspData := rfl
@[simp] theorem popDraw_rspExp (s : State) : (popDraw s).rspExp = s.rspExp := rfl
@[simp] theorem popDraw_rspRcv (s : State) : (popDraw s).rspRcv = s.rspRcv := rfl
@[simp] theorem popDraw_faulted (s : State) : (popDraw s).faulted = s.faulted := rfl
@[simp] theorem popDraw_evt (s : State) : (popDraw s).evt = s.evt := rfl
@[simp] theorem popDraw_input (s : State) : (popDraw s).input = s.input := rfl
@[simp] theorem popDraw_miso (s : State) : (popDraw s).miso = s.miso := rfl
@[simp] theorem popDraw_samples (s : State) : (popDraw s).samples = s.samples := rfl
@[simp] theorem popDraw_lineDraws (s : State) : (popDraw s).lineDraws = s.lineDraws.tail := rfl

/-! ### popPeer -/

@[simp] theorem popPeer_se (s : State) : (popPeer s).se = s.se := by unfold popPeer; split <;> rfl
@[simp] theorem popPeer_rxp (s : State) : (popPeer s).rxp = s.rxp := by unfold popPeer; split <;> rfl
@[simp] theorem popPeer_sck (s : State) : (popPeer s).sck = s.sck := by unfold popPeer; split <;> rfl
@[simp] theorem popPeer_mosi (s : State) : (popPeer s).mosi = s.mosi := by unfold popPeer; split <;> rfl
@[simp] theorem popPeer_csN (s : State) : (popPeer s).csN = s.csN := by unfold popPeer; split <;> rfl
@[simp] theorem popPeer_ckMode (s : State) : (popPeer s).ckMode = s.ckMode := by unfold popPeer; split <;> rfl
@[simp] theorem popPeer_ckState (s : State) : (popPeer s).ckState = s.ckState := by unfold popPeer; split <;> rfl
@[simp] theorem popPeer_curMode (s : State) : (popPeer s).curMode = s.curMode := by unfold popPeer; split <;> rfl
@[simp] theorem popPeer_buf (s : State) : (popPeer s).buf = s.buf := by unfold popPeer; split <;> rfl
@[simp] theorem popPeer_rspCode (s : State) : (popPeer s).rspCode = s.rspCode := by unfold popPeer; split <;> rfl
@[simp] theorem popPeer_rspData (s : State) : (popPeer s).rspData = s.rspData := by unfold popPeer; split <;> rfl
@[simp] theorem popPeer_rspExp (s : State) : (popPeer s).rspExp = s.rspExp := by unfold popPeer; split <;> rfl
@[simp] theorem popPeer_rspRcv (s : State) : (popPeer s).rspRcv = s.rspRcv := by unfold popPeer; split <;> rfl
@[simp] theorem popPeer_faulted (s : State) : (popPeer s).faulted = s.faulted := by unfold popPeer; split <;> rfl
@[simp] theorem popPeer_evt (s : State) : (popPeer s).evt = s.evt := by unfold popPeer; split <;> rfl
@[simp] theorem popPeer_input (s : State) : (popPeer s).input = s.input := by unfold popPeer; split <;> rfl
@[simp] theorem popPeer_lineDraws (s : State) : (popPeer s).lineDraws = s.lineDraws := by unfold popPeer; split <;> rfl

/-! ### disturbEngine -/

@[simp] theorem disturbEngine_se (f : LineFailure) (s : State) : (disturbEngine f s).se = drawnEngine f.engine := rfl
@[simp] theorem disturbEngine_rxp (f : LineFailure) (s : State) : (disturbEngine f s).rxp = drawnRxp f.engine := rfl
@[simp] theorem disturbEngine_sck (f : LineFailure) (s : State) : (disturbEngine f s).sck = s.sck := rfl
@[simp] theorem disturbEngine_mosi (f : LineFailure) (s : State) : (disturbEngine f s).mosi = s.mosi := rfl
@[simp] theorem disturbEngine_csN (f : LineFailure) (s : State) : (disturbEngine f s).csN = s.csN := rfl
@[simp] theorem disturbEngine_ckMode (f : LineFailure) (s : State) : (disturbEngine f s).ckMode = s.ckMode := rfl
@[simp] theorem disturbEngine_ckState (f : LineFailure) (s : State) : (disturbEngine f s).ckState = s.ckState := rfl
@[simp] theorem disturbEngine_curMode (f : LineFailure) (s : State) : (disturbEngine f s).curMode = s.curMode := rfl
@[simp] theorem disturbEngine_buf (f : LineFailure) (s : State) : (disturbEngine f s).buf = s.buf := rfl
@[simp] theorem disturbEngine_rspCode (f : LineFailure) (s : State) : (disturbEngine f s).rspCode = s.rspCode := rfl
@[simp] theorem disturbEngine_rspData (f : LineFailure) (s : State) : (disturbEngine f s).rspData = s.rspData := rfl
@[simp] theorem disturbEngine_rspExp (f : LineFailure) (s : State) : (disturbEngine f s).rspExp = s.rspExp := rfl
@[simp] theorem disturbEngine_rspRcv (f : LineFailure) (s : State) : (disturbEngine f s).rspRcv = s.rspRcv := rfl
@[simp] theorem disturbEngine_faulted (f : LineFailure) (s : State) : (disturbEngine f s).faulted = s.faulted := rfl
@[simp] theorem disturbEngine_evt (f : LineFailure) (s : State) : (disturbEngine f s).evt = s.evt := rfl
@[simp] theorem disturbEngine_input (f : LineFailure) (s : State) : (disturbEngine f s).input = s.input := rfl
@[simp] theorem disturbEngine_miso (f : LineFailure) (s : State) : (disturbEngine f s).miso = s.miso := rfl
@[simp] theorem disturbEngine_samples (f : LineFailure) (s : State) : (disturbEngine f s).samples = s.samples := rfl
@[simp] theorem disturbEngine_lineDraws (f : LineFailure) (s : State) : (disturbEngine f s).lineDraws = s.lineDraws := rfl

/-! ### bufSet -/

@[simp] theorem bufSet_se (i : Nat) (b : Byte) (s : State) : (bufSet i b s).se = s.se := rfl
@[simp] theorem bufSet_rxp (i : Nat) (b : Byte) (s : State) : (bufSet i b s).rxp = s.rxp := rfl
@[simp] theorem bufSet_sck (i : Nat) (b : Byte) (s : State) : (bufSet i b s).sck = s.sck := rfl
@[simp] theorem bufSet_mosi (i : Nat) (b : Byte) (s : State) : (bufSet i b s).mosi = s.mosi := rfl
@[simp] theorem bufSet_csN (i : Nat) (b : Byte) (s : State) : (bufSet i b s).csN = s.csN := rfl
@[simp] theorem bufSet_ckMode (i : Nat) (b : Byte) (s : State) : (bufSet i b s).ckMode = s.ckMode := rfl
@[simp] theorem bufSet_ckState (i : Nat) (b : Byte) (s : State) : (bufSet i b s).ckState = s.ckState := rfl
@[simp] theorem bufSet_curMode (i : Nat) (b : Byte) (s : State) : (bufSet i b s).curMode = s.curMode := rfl
@[simp] theorem bufSet_buf (i : Nat) (b : Byte) (s : State) : (bufSet i b s).buf = s.buf.setIfInBounds i b := rfl
@[simp] theorem bufSet_rspCode (i : Nat) (b : Byte) (s : State) : (bufSet i b s).rspCode = s.rspCode := rfl
@[simp] theorem bufSet_rspData (i : Nat) (b : Byte) (s : State) : (bufSet i b s).rspData = s.rspData := rfl
@[simp] theorem bufSet_rspExp (i : Nat) (b : Byte) (s : State) : (bufSet i b s).rspExp = s.rspExp := rfl
@[simp] theorem bufSet_rspRcv (i : Nat) (b : Byte) (s : State) : (bufSet i b s).rspRcv = s.rspRcv := rfl
@[simp] theorem bufSet_faulted (i : Nat) (b : Byte) (s : State) : (bufSet i b s).faulted = s.faulted := rfl
@[simp] theorem bufSet_evt (i : Nat) (b : Byte) (s : State) : (bufSet i b s).evt = s.evt := rfl
@[simp] theorem bufSet_input (i : Nat) (b : Byte) (s : State) : (bufSet i b s).input = s.input := rfl
@[simp] theorem bufSet_miso (i : Nat) (b : Byte) (s : State) : (bufSet i b s).miso = s.miso := rfl
@[simp] theorem bufSet_samples (i : Nat) (b : Byte) (s : State) : (bufSet i b s).samples = s.samples := rfl
@[simp] theorem bufSet_lineDraws (i : Nat) (b : Byte) (s : State) : (bufSet i b s).lineDraws = s.lineDraws := rfl

/-! ### ckNew -/

@[simp] theorem ckNew_se (m : ChecksumMode) (s : State) : (ckNew m s).se = s.se := rfl
@[simp] theorem ckNew_rxp (m : ChecksumMode) (s : State) : (ckNew m s).rxp = s.rxp := rfl
@[simp] theorem ckNew_sck (m : ChecksumMode) (s : State) : (ckNew m s).sck = s.sck := rfl
@[simp] theorem ckNew_mosi (m : ChecksumMode) (s : State) : (ckNew m s).mosi = s.mosi := rfl
@[simp] theorem ckNew_csN (m : ChecksumMode) (s : State) : (ckNew m s).csN = s.csN := rfl
@[simp] theorem ckNew_ckMode (m : ChecksumMode) (s : State) : (ckNew m s).ckMode = m := rfl
@[simp] theorem ckNew_ckState (m : ChecksumMode) (s : State) : (ckNew m s).ckState = 0 := rfl
@[simp] theorem ckNew_curMode (m : ChecksumMode) (s : State) : (ckNew m s).curMode = s.curMode := rfl
@[simp] theorem ckNew_buf (m : ChecksumMode) (s : State) : (ckNew m s).buf = s.buf := rfl
@[simp] theorem ckNew_rspCode (m : ChecksumMode) (s : State) : (ckNew m s).rspCode = s.rspCode := rfl
@[simp] theorem ckNew_rspData (m : ChecksumMode) (s : State) : (ckNew m s).rspData = s.rspData := rfl
@[simp] theorem ckNew_rspExp (m : ChecksumMode) (s : State) : (ckNew m s).rspExp = s.rspExp := rfl
@[simp] theorem ckNew_rspRcv (m : ChecksumMode) (s : State) : (ckNew m s).rspRcv = s.rspRcv := rfl
@[simp] theorem ckNew_faulted (m : ChecksumMode) (s : State) : (ckNew m s).faulted = s.faulted := rfl
@[simp] theorem ckNew_evt (m : ChecksumMode) (s : State) : (ckNew m s).evt = s.evt := rfl
@[simp] theorem ckNew_input (m : ChecksumMode) (s : State) : (ckNew m s).input = s.input := rfl
@[simp] theorem ckNew_miso (m : ChecksumMode) (s : State) : (ckNew m s).miso = s.miso := rfl
@[simp] theorem ckNew_samples (m : ChecksumMode) (s : State) : (ckNew m s).samples = s.samples := rfl
@[simp] theorem ckNew_lineDraws (m : ChecksumMode) (s : State) : (ckNew m s).lineDraws = s.lineDraws := rfl

/-! ### ckFeed -/

@[simp] theorem ckFeed_se (b : Byte) (s : State) : (ckFeed b s).se = s.se := rfl
@[simp] theorem ckFeed_rxp (b : Byte) (s : State) : (ckFeed b s).rxp = s.rxp := rfl
@[simp] theorem ckFeed_sck (b : Byte) (s : State) : (ckFeed b s).sck = s.sck := rfl
@[simp] theorem ckFeed_mosi (b : Byte) (s : State) : (ckFeed b s).mosi = s.mosi := rfl
@[simp] theorem ckFeed_csN (b : Byte) (s : State) : (ckFeed b s).csN = s.csN := rfl
@[simp] theorem ckFeed_ckMode (b : Byte) (s : State) : (ckFeed b s).ckMode = s.ckMode := rfl
@[simp] theorem ckFeed_ckState (b : Byte) (s : State) : (ckFeed b s).ckState = feedByte s.ckMode s.ckState b := rfl
@[simp] theorem ckFeed_curMode (b : Byte) (s : State) : (ckFeed b s).curMode = s.curMode := rfl
@[simp] theorem ckFeed_buf (b : Byte) (s : State) : (ckFeed b s).buf = s.buf := rfl
@[simp] theorem ckFeed_rspCode (b : Byte) (s : State) : (ckFeed b s).rspCode = s.rspCode := rfl
@[simp] theorem ckFeed_rspData (b : Byte) (s : State) : (ckFeed b s).rspData = s.rspData := rfl
@[simp] theorem ckFeed_rspExp (b : Byte) (s : State) : (ckFeed b s).rspExp = s.rspExp := rfl
@[simp] theorem ckFeed_rspRcv (b : Byte) (s : State) : (ckFeed b s).rspRcv = s.rspRcv := rfl
@[simp] theorem ckFeed_faulted (b : Byte) (s : State) : (ckFeed b s).faulted = s.faulted := rfl
@[simp] theorem ckFeed_evt (b : Byte) (s : State) : (ckFeed b s).evt = s.evt := rfl
@[simp] theorem ckFeed_input (b : Byte) (s : State) : (ckFeed b s).input = s.input := rfl
@[simp] theorem ckFeed_miso (b : Byte) (s : State) : (ckFeed b s).miso = s.miso := rfl
@[simp] theorem ckFeed_samples (b : Byte) (s : State) : (ckFeed b s).samples = s.samples := rfl
@[simp] theorem ckFeed_lineDraws (b : Byte) (s : State) : (ckFeed b s).lineDraws = s.lineDraws := rfl

/-! ### clearResponses -/

@[simp] theorem clearResponses_se (s : State) : (clearResponses s).se = s.se := rfl
@[simp] theorem clearResponses_rxp (s : State) : (clearResponses s).rxp = s.rxp := rfl
@[simp] theorem clearResponses_sck (s : State) : (clearResponses s).sck = s.sck := rfl
@[simp] theorem clearResponses_mosi (s : State) : (clearResponses s).mosi = s.mosi := rfl
@[simp] theorem clearResponses_csN (s : State) : (clearResponses s).csN = s.csN := rfl
@[simp] theorem clearResponses_ckMode (s : State) : (clearResponses s).ckMode = s.ckMode := rfl
@[simp] theorem clearResponses_ckState (s : State) : (clearResponses s).ckState = s.ckState := rfl
@[simp] theorem clearResponses_curMode (s : State) : (clearResponses s).curMode = s.curMode := rfl
@[simp] theorem clearResponses_buf (s : State) : (clearResponses s).buf = s.buf := rfl
@[simp] theorem clearResponses_rspCode (s : State) : (clearResponses s).rspCode = s.rspCode := rfl
@[simp] theorem clearResponses_rspData (s : State) : (clearResponses s).rspData = none := rfl
@[simp] theorem clearResponses_rspExp (s : State) : (clearResponses s).rspExp = none := rfl
@[simp] theorem clearResponses_rspRcv (s : State) : (clearResponses s).rspRcv = none := rfl
@[simp] theorem clearResponses_faulted (s : State) : (clearResponses s).faulted = s.faulted := rfl
@[simp] theorem clearResponses_evt (s : State) : (clearResponses s).evt = s.evt := rfl
@[simp] theorem clearResponses_input (s : State) : (clearResponses s).input = s.input := rfl
@[simp] theorem clearResponses_miso (s : State) : (clearResponses s).miso = s.miso := rfl
@[simp] theorem clearResponses_samples (s : State) : (clearResponses s).samples = s.samples := rfl
@[simp] theorem clearResponses_lineDraws (s : State) : (clearResponses s).lineDraws = s.lineDraws := rfl

/-! ### answer -/

@[simp] theorem answer_se (c : ResultCode) (s : State) : (answer c s).se = s.se := rfl
@[simp] theorem answer_rxp (c : ResultCode) (s : State) : (answer c s).rxp = s.rxp := rfl
@[simp] theorem answer_sck (c : ResultCode) (s : State) : (answer c s).sck = s.sck := rfl
@[simp] theorem answer_mosi (c : ResultCode) (s : State) : (answer c s).mosi = s.mosi := rfl
@[simp] theorem answer_csN (c : ResultCode) (s : State) : (answer c s).csN = s.csN := rfl
@[simp] theorem answer_ckMode (c : ResultCode) (s : State) : (answer c s).ckMode = s.ckMode := rfl
@[simp] theorem answer_ckState (c : ResultCode) (s : State) : (answer c s).ckState = s.ckState := rfl
@[simp] theorem answer_curMode (c : ResultCode) (s : State) : (answer c s).curMode = s.curMode := rfl
@[simp] theorem answer_buf (c : ResultCode) (s : State) : (answer c s).buf = s.buf := rfl
@[simp] theorem answer_rspCode (c : ResultCode) (s : State) : (answer c s).rspCode = c := rfl
@[simp] theorem answer_rspData (c : ResultCode) (s : State) : (answer c s).rspData = s.rspData := rfl
@[simp] theorem answer_rspExp (c : ResultCode) (s : State) : (answer c s).rspExp = s.rspExp := rfl
@[simp] theorem answer_rspRcv (c : ResultCode) (s : State) : (answer c s).rspRcv = s.rspRcv := rfl
@[simp] theorem answer_faulted (c : ResultCode) (s : State) : (answer c s).faulted = s.faulted := rfl
@[simp] theorem answer_evt (c : ResultCode) (s : State) : (answer c s).evt = s.evt := rfl
@[simp] theorem answer_input (c : ResultCode) (s : State) : (answer c s).input = s.input := rfl
@[simp] theorem answer_miso (c : ResultCode) (s : State) : (answer c s).miso = s.miso := rfl
@[simp] theorem answer_samples (c : ResultCode) (s : State) : (answer c s).samples = s.samples := rfl
@[simp] theorem answer_lineDraws (c : ResultCode) (s : State) : (answer c s).lineDraws = s.lineDraws := rfl

/-! ### answerData -/

@[simp] theorem answerData_se (d : Option Byte) (s : State) : (answerData d s).se = s.se := rfl
@[simp] theorem answerData_rxp (d : Option Byte) (s : State) : (answerData d s).rxp = s.rxp := rfl
@[simp] theorem answerData_sck (d : Option Byte) (s : State) : (answerData d s).sck = s.sck := rfl
@[simp] theorem answerData_mosi (d : Option Byte) (s : State) : (answerData d s).mosi = s.mosi := rfl
@[simp] theorem answerData_csN (d : Option Byte) (s : State) : (answerData d s).csN = s.csN := rfl
@[simp] theorem answerData_ckMode (d : Option Byte) (s : State) : (answerData d s).ckMode = s.ckMode := rfl
@[simp] theorem answerData_ckState (d : Option Byte) (s : State) : (answerData d s).ckState = s.ckState := rfl
@[simp] theorem answerData_curMode (d : Option Byte) (s : State) : (answerData d s).curMode = s.curMode := rfl
@[simp] theorem answerData_buf (d : Option Byte) (s : State) : (answerData d s).buf = s.buf := rfl
@[simp] theorem answerData_rspCode (d : Option Byte) (s : State) : (answerData d s).rspCode = .ok := rfl
@[simp] theorem answerData_rspData (d : Option Byte) (s : State) : (answerData d s).rspData = d := rfl
@[simp] theorem answerData_rspExp (d : Option Byte) (s : State) : (answerData d s).rspExp = s.rspExp := rfl
@[simp] theorem answerData_rspRcv (d : Option Byte) (s : State) : (answerData d s).rspRcv = s.rspRcv := rfl
@[simp] theorem answerData_faulted (d : Option Byte) (s : State) : (answerData d s).faulted = s.faulted := rfl
@[simp] theorem answerData_evt (d : Option Byte) (s : State) : (answerData d s).evt = s.evt := rfl
@[simp] theorem answerData_input (d : Option Byte) (s : State) : (answerData d s).input = s.input := rfl
@[simp] theorem answerData_miso (d : Option Byte) (s : State) : (answerData d s).miso = s.miso := rfl
@[simp] theorem answerData_samples (d : Option Byte) (s : State) : (answerData d s).samples = s.samples := rfl
@[simp] theorem answerData_lineDraws (d : Option Byte) (s : State) : (answerData d s).lineDraws = s.lineDraws := rfl

/-! ### resetBlock -/

@[simp] theorem resetBlock_se (s : State) : (resetBlock s).se = State.reset.se := rfl
@[simp] theorem resetBlock_rxp (s : State) : (resetBlock s).rxp = State.reset.rxp := rfl
@[simp] theorem resetBlock_sck (s : State) : (resetBlock s).sck = State.reset.sck := rfl
@[simp] theorem resetBlock_mosi (s : State) : (resetBlock s).mosi = State.reset.mosi := rfl
@[simp] theorem resetBlock_csN (s : State) : (resetBlock s).csN = State.reset.csN := rfl
@[simp] theorem resetBlock_ckMode (s : State) : (resetBlock s).ckMode = State.reset.ckMode := rfl
@[simp] theorem resetBlock_ckState (s : State) : (resetBlock s).ckState = State.reset.ckState := rfl
@[simp] theorem resetBlock_curMode (s : State) : (resetBlock s).curMode = State.reset.curMode := rfl
@[simp] theorem resetBlock_buf (s : State) : (resetBlock s).buf = State.reset.buf := rfl
@[simp] theorem resetBlock_rspCode (s : State) : (resetBlock s).rspCode = State.reset.rspCode := rfl
@[simp] theorem resetBlock_rspData (s : State) : (resetBlock s).rspData = State.reset.rspData := rfl
@[simp] theorem resetBlock_rspExp (s : State) : (resetBlock s).rspExp = State.reset.rspExp := rfl
@[simp] theorem resetBlock_rspRcv (s : State) : (resetBlock s).rspRcv = State.reset.rspRcv := rfl
@[simp] theorem resetBlock_faulted (s : State) : (resetBlock s).faulted = State.reset.faulted := rfl
@[simp] theorem resetBlock_evt (s : State) : (resetBlock s).evt = State.reset.evt := rfl
@[simp] theorem resetBlock_input (s : State) : (resetBlock s).input = s.input := rfl
@[simp] theorem resetBlock_miso (s : State) : (resetBlock s).miso = s.miso := rfl
@[simp] theorem resetBlock_samples (s : State) : (resetBlock s).samples = s.samples := rfl
@[simp] theorem resetBlock_lineDraws (s : State) : (resetBlock s).lineDraws = s.lineDraws := rfl

/-! ### csDriven -/

@[simp] theorem csDriven_se (b : Level) (s : State) : (csDriven b s).se = s.se := rfl
@[simp] theorem csDriven_rxp (b : Level) (s : State) : (csDriven b s).rxp = s.rxp := rfl
@[simp] theorem csDriven_sck (b : Level) (s : State) : (csDriven b s).sck = s.sck := rfl
@[simp] theorem csDriven_mosi (b : Level) (s : State) : (csDriven b s).mosi = s.mosi := rfl
@[simp] theorem csDriven_csN (b : Level) (s : State) : (csDriven b s).csN = b := rfl
@[simp] theorem csDriven_ckMode (b : Level) (s : State) : (csDriven b s).ckMode = s.ckMode := rfl
@[simp] theorem csDriven_ckState (b : Level) (s : State) : (csDriven b s).ckState = s.ckState := rfl
@[simp] theorem csDriven_curMode (b : Level) (s : State) : (csDriven b s).curMode = s.curMode := rfl
@[simp] theorem csDriven_buf (b : Level) (s : State) : (csDriven b s).buf = s.buf := rfl
@[simp] theorem csDriven_rspCode (b : Level) (s : State) : (csDriven b s).rspCode = s.rspCode := rfl
@[simp] theorem csDriven_rspData (b : Level) (s : State) : (csDriven b s).rspData = s.rspData := rfl
@[simp] theorem csDriven_rspExp (b : Level) (s : State) : (csDriven b s).rspExp = s.rspExp := rfl
@[simp] theorem csDriven_rspRcv (b : Level) (s : State) : (csDriven b s).rspRcv = s.rspRcv := rfl
@[simp] theorem csDriven_faulted (b : Level) (s : State) : (csDriven b s).faulted = s.faulted := rfl
@[simp] theorem csDriven_evt (b : Level) (s : State) : (csDriven b s).evt = s.evt ++ [.drive .csN b] := rfl
@[simp] theorem csDriven_input (b : Level) (s : State) : (csDriven b s).input = s.input := rfl
@[simp] theorem csDriven_miso (b : Level) (s : State) : (csDriven b s).miso = s.miso := rfl
@[simp] theorem csDriven_samples (b : Level) (s : State) : (csDriven b s).samples = s.samples := rfl
@[simp] theorem csDriven_lineDraws (b : Level) (s : State) : (csDriven b s).lineDraws = s.lineDraws.tail := rfl

/-! ### setLine, line by line -/

@[simp] theorem setLine_csN_sck (b : Level) (s : State) : (setLine .csN b s).sck = s.sck := rfl
@[simp] theorem setLine_csN_mosi (b : Level) (s : State) : (setLine .csN b s).mosi = s.mosi := rfl
@[simp] theorem setLine_csN_csN (b : Level) (s : State) : (setLine .csN b s).csN = b := rfl
@[simp] theorem setLine_sck_sck (b : Level) (s : State) : (setLine .sck b s).sck = b := rfl
@[simp] theorem setLine_sck_mosi (b : Level) (s : State) : (setLine .sck b s).mosi = s.mosi := rfl
@[simp] theorem setLine_sck_csN (b : Level) (s : State) : (setLine .sck b s).csN = s.csN := rfl
@[simp] theorem setLine_mosi_sck (b : Level) (s : State) : (setLine .mosi b s).sck = s.sck := rfl
@[simp] theorem setLine_mosi_mosi (b : Level) (s : State) : (setLine .mosi b s).mosi = b := rfl
@[simp] theorem setLine_mosi_csN (b : Level) (s : State) : (setLine .mosi b s).csN = s.csN := rfl

end Sys2Proof.Machine
end

