-- ==== Sys2Proof/Laws/Ops.lean ====
section
/-! SUPPORT. What each shared operation can do, said once: the frame of every line operation, the progress of the shift
engine, and how a synchronous transfer can end. Later proofs cite these instead of unfolding the operations. -/

namespace Sys2Proof.Machine

/-! ## Results -/

/-- A result's value and state satisfy `P`, or its raised code and state satisfy `Q`. -/
def Res.Sat {α : Type} (P : α → State → Prop) (Q : ResultCode → State → Prop) : Res α → Prop
  | .ok a t => P a t
  | .stop e t => Q e t

/-- The state a result leaves, however it ends. -/
def Res.state {α : Type} : Res α → State
  | .ok _ t => t
  | .stop _ t => t

@[simp] theorem Res.bind_ok {α β : Type} (a : α) (s : State) (k : α → State → Res β) :
    (Res.ok a s).bind k = k a s := rfl

@[simp] theorem Res.bind_stop {α β : Type} (e : ResultCode) (s : State) (k : α → State → Res β) :
    (Res.stop e s : Res α).bind k = .stop e s := rfl

theorem Res.Sat.bind {α β : Type} {P : α → State → Prop} {P' : β → State → Prop} {Q : ResultCode → State → Prop}
    {r : Res α} {k : α → State → Res β} (h : r.Sat P Q) (hk : ∀ a t, P a t → (k a t).Sat P' Q) :
    (r.bind k).Sat P' Q := by
  cases r with
  | ok a t => exact hk a t h
  | stop e t => exact h

theorem Res.Sat.mono {α : Type} {P P' : α → State → Prop} {Q Q' : ResultCode → State → Prop} {r : Res α}
    (h : r.Sat P Q) (hP : ∀ a t, P a t → P' a t) (hQ : ∀ e t, Q e t → Q' e t) : r.Sat P' Q' := by
  cases r with
  | ok a t => exact hP a t h
  | stop e t => exact hQ e t h

/-! ## Frames of the line operations -/

/-- What no line operation and no step of the shift engine changes; draws are only used up, the event log only grows. -/
structure Framed (s t : State) : Prop where
  ckMode : t.ckMode = s.ckMode
  ckState : t.ckState = s.ckState
  curMode : t.curMode = s.curMode
  buf : t.buf = s.buf
  rspCode : t.rspCode = s.rspCode
  rspData : t.rspData = s.rspData
  rspExp : t.rspExp = s.rspExp
  rspRcv : t.rspRcv = s.rspRcv
  input : t.input = s.input
  draws : t.lineDraws <:+ s.lineDraws
  evt : ∃ es, t.evt = s.evt ++ es

/-- What the shift engine leaves besides: chip select and its events (R27, R382). -/
structure LinkFramed (s t : State) : Prop extends Framed s t where
  csN : t.csN = s.csN
  noChipSelect : ∃ es, t.evt = s.evt ++ es ∧ ∀ b, Event.drive .csN b ∉ es

theorem Framed.refl (s : State) : Framed s s :=
  ⟨rfl, rfl, rfl, rfl, rfl, rfl, rfl, rfl, rfl, List.suffix_refl _, [], by simp⟩

theorem LinkFramed.refl (s : State) : LinkFramed s s := ⟨Framed.refl s, rfl, [], by simp, by simp⟩

theorem Framed.trans {s t u : State} (h : Framed s t) (k : Framed t u) : Framed s u := by
  obtain ⟨es, he⟩ := h.evt
  obtain ⟨fs, hf⟩ := k.evt
  exact ⟨k.ckMode.trans h.ckMode, k.ckState.trans h.ckState, k.curMode.trans h.curMode, k.buf.trans h.buf,
    k.rspCode.trans h.rspCode, k.rspData.trans h.rspData, k.rspExp.trans h.rspExp, k.rspRcv.trans h.rspRcv,
    k.input.trans h.input, k.draws.trans h.draws, es ++ fs, by rw [hf, he, List.append_assoc]⟩

theorem LinkFramed.trans {s t u : State} (h : LinkFramed s t) (k : LinkFramed t u) : LinkFramed s u := by
  obtain ⟨es, he, hn⟩ := h.noChipSelect
  obtain ⟨fs, hf, hm⟩ := k.noChipSelect
  refine ⟨h.toFramed.trans k.toFramed, k.csN.trans h.csN, es ++ fs, by rw [hf, he, List.append_assoc], ?_⟩
  intro b hb
  rcases List.mem_append.mp hb with hb | hb
  exacts [hn b hb, hm b hb]

/-- `drive` ends in one of two ways (R11, R336): the level is driven and logged, or the drawn failure strikes. -/
theorem drive_cases (l : Line) (b : Level) (s : State) :
    (lineFailure s = none ∧ drive l b s = .ok () (logEvent (.drive l b) (setLine l b (popDraw s)))) ∨
    (∃ f, lineFailure s = some f ∧ drive l b s = .stop .transportError (failedDrive l f (popDraw s))) := by
  unfold drive
  cases h : lineFailure s with
  | none => exact .inl ⟨rfl, rfl⟩
  | some f => exact .inr ⟨f, rfl, rfl⟩

/-- `sample` ends in one of two ways (R11, R336). -/
theorem sample_cases (s : State) :
    (lineFailure s = none ∧
      sample s = .ok (peerLevel s) (logEvent (.sample (peerLevel s)) (popPeer (popDraw s)))) ∨
    (∃ f, lineFailure s = some f ∧ sample s = .stop .transportError (failedSample f (popDraw s))) := by
  unfold sample
  cases h : lineFailure s with
  | none => exact .inl ⟨rfl, rfl⟩
  | some f => exact .inr ⟨f, rfl, rfl⟩

/-- A failure is drawn only where the hardware's lines can fail (R336). -/
theorem lineFailure_pLineFault {s : State} {f : LineFailure} (h : lineFailure s = some f) :
    Config.pLineFault = true := by
  unfold lineFailure at h
  split at h
  · split at h
    · assumption
    · cases h
  · cases h

/-- A quiet line layer fails no operation. -/
theorem lineFailure_quiet {s : State} (h : Quiet s) : lineFailure s = none := by
  unfold lineFailure
  split
  · rename_i f rest heq
    rcases h with h | h
    · simp [h]
    · exact absurd (h (some f) (by simp [heq])) (by simp)
  · rfl

theorem Quiet.drop {s t : State} (h : Quiet s) (n : Nat) (ht : t.lineDraws = s.lineDraws.drop n) : Quiet t := by
  rcases h with h | h
  · exact .inl h
  · exact .inr fun d hd => h d (List.mem_of_mem_drop (ht ▸ hd))

theorem Quiet.same {s t : State} (h : Quiet s) (ht : t.lineDraws = s.lineDraws) : Quiet t :=
  h.drop 0 (by simpa using ht)

theorem Quiet.tail {s t : State} (h : Quiet s) (ht : t.lineDraws = s.lineDraws.tail) : Quiet t :=
  h.drop 1 (by simpa using ht)

theorem drive_quiet (l : Line) (b : Level) {s : State} (h : Quiet s) :
    drive l b s = .ok () (logEvent (.drive l b) (setLine l b (popDraw s))) := by
  simp [drive, lineFailure_quiet h]

theorem sample_quiet {s : State} (h : Quiet s) :
    sample s = .ok (peerLevel s) (logEvent (.sample (peerLevel s)) (popPeer (popDraw s))) := by
  simp [sample, lineFailure_quiet h]

theorem failedDrive_framed (l : Line) (f : LineFailure) (s : State) : Framed s (failedDrive l f s) := by
  unfold failedDrive
  split <;> constructor <;> simp

theorem failedDrive_linkFramed {l : Line} (hl : l ≠ .csN) (f : LineFailure) (s : State) :
    LinkFramed s (failedDrive l f s) := by
  refine ⟨failedDrive_framed l f s, ?_, ?_⟩
  · cases l <;> simp_all [failedDrive] <;> split <;> simp
  · cases l <;> simp_all [failedDrive] <;> split <;> simp

theorem failedSample_linkFramed (f : LineFailure) (s : State) : LinkFramed s (failedSample f s) := by
  unfold failedSample
  split
  · exact ⟨⟨by simp, by simp, by simp, by simp, by simp, by simp, by simp, by simp, by simp, by simp, by simp⟩, by simp,
      [.sample f.level], by simp, by simp⟩
  · exact ⟨⟨by simp, by simp, by simp, by simp, by simp, by simp, by simp, by simp, by simp, by simp, by simp⟩, by simp,
      [], by simp, by simp⟩

@[simp] theorem failedDrive_se (l : Line) (f : LineFailure) (s : State) :
    (failedDrive l f s).se = drawnEngine f.engine := by unfold failedDrive; split <;> simp
@[simp] theorem failedDrive_rxp (l : Line) (f : LineFailure) (s : State) :
    (failedDrive l f s).rxp = drawnRxp f.engine := by unfold failedDrive; split <;> simp
@[simp] theorem failedDrive_faulted (l : Line) (f : LineFailure) (s : State) :
    (failedDrive l f s).faulted = s.faulted := by unfold failedDrive; split <;> simp
@[simp] theorem failedSample_se (f : LineFailure) (s : State) :
    (failedSample f s).se = drawnEngine f.engine := by unfold failedSample; split <;> simp
@[simp] theorem failedSample_rxp (f : LineFailure) (s : State) :
    (failedSample f s).rxp = drawnRxp f.engine := by unfold failedSample; split <;> simp
@[simp] theorem failedSample_faulted (f : LineFailure) (s : State) :
    (failedSample f s).faulted = s.faulted := by unfold failedSample; split <;> simp

/-- Every engine state a failure draws is legal, and a transfer drawn has no published byte (R336, R24). -/
theorem drawnEngine_legal (d : EngineDraw) : engineLegal (drawnEngine d) = true := by
  cases d with
  | idle p => rfl
  | xfer k tx r =>
    obtain ⟨k, hk⟩ := k
    simp only [drawnEngine, engineLegal]
    interval_cases k <;> revert r <;> decide

theorem drawnRxp_none (d : EngineDraw) (h : drawnEngine d ≠ .idle) : drawnRxp d = none := by
  cases d with
  | idle p => exact absurd rfl h
  | xfer k tx r => rfl

theorem Framed.quiet {s t : State} (h : Framed s t) (q : Quiet s) : Quiet t :=
  q.imp_right fun q d hd => q d (h.draws.subset hd)

theorem lineFailure_notQuiet {s : State} {f : LineFailure} (h : lineFailure s = some f) : ¬ Quiet s := fun q => by
  simp [lineFailure_quiet q] at h

/-! ## The tick -/

/-- How many half-phases the byte in flight still needs (R135). -/
def ticksLeft : Engine → Nat
  | .idle => 0
  | .xfer phase mask _ _ => 2 * (mask.toNat.log2 + 1) - phase.toNat

theorem ticksLeft_le (e : Engine) : ticksLeft e ≤ 16 := by
  cases e with
  | idle => simp [ticksLeft]
  | xfer phase mask tx rx =>
    have h : mask.toNat.log2 < 8 := by
      rcases Nat.eq_zero_or_pos mask.toNat with h | h
      · simp [h]
      · exact (Nat.log2_lt h.ne').mpr mask.isLt
    simp only [ticksLeft]
    omega

theorem ticksLeft_pos (phase : Bool) (mask tx rx : Byte) : 0 < ticksLeft (.xfer phase mask tx rx) := by
  have : phase.toNat ≤ 1 := Bool.toNat_le phase
  simp only [ticksLeft]
  omega

theorem maskLegal_cases {mask : Byte} (h : maskLegal mask = true) :
    mask = 0x80 ∨ mask = 0x40 ∨ mask = 0x20 ∨ mask = 0x10 ∨ mask = 0x08 ∨ mask = 0x04 ∨ mask = 0x02 ∨ mask = 0x01 := by
  simpa [maskLegal, or_assoc] using h

/-- What a tick does when it succeeds: nothing while idle; else one half-phase, and the last one publishes (R131). -/
structure Ticked (s t : State) : Prop where
  framed : LinkFramed s t
  faulted : t.faulted = s.faulted
  idle : s.se = .idle → t = s
  advances : s.se ≠ .idle → ticksLeft t.se + 1 = ticksLeft s.se
  publishes : s.se ≠ .idle → t.se = .idle → t.rxp.isSome ∧ t.sck = true

/-- How a line operation can be stopped: the line layer failed it (R336). -/
structure LineStopped (e : ResultCode) (s t : State) : Prop where
  framed : LinkFramed s t
  code : e = .transportError
  canFail : Config.pLineFault = true
  notQuiet : ¬ Quiet s
  faulted : t.faulted = s.faulted
  drawn : ∃ d, t.se = drawnEngine d ∧ t.rxp = drawnRxp d

/-- How a tick can be stopped: a line operation was, or the mask was impossible (R337). -/
structure Stopped (e : ResultCode) (s t : State) : Prop where
  framed : LinkFramed s t
  why : LineStopped e s t ∨
    (e = .invariantFault ∧ t.faulted = true ∧ ∃ phase mask tx rx, t.se = .xfer phase mask tx rx ∧ maskLegal mask = false)

theorem LineStopped.of_framed {e : ResultCode} {s t u : State} (h : LinkFramed s t) (hf : t.faulted = s.faulted)
    (k : LineStopped e t u) : LineStopped e s u :=
  ⟨h.trans k.framed, k.code, k.canFail, fun q => k.notQuiet (h.quiet q), k.faulted.trans hf, k.drawn⟩

theorem LineStopped.stopped {e : ResultCode} {s t : State} (h : LineStopped e s t) : Stopped e s t := ⟨h.framed, .inl h⟩

theorem Stopped.of_framed {e : ResultCode} {s t u : State} (h : LinkFramed s t) (hf : t.faulted = s.faulted)
    (k : Stopped e t u) : Stopped e s u :=
  ⟨h.trans k.framed, k.why.imp_left (·.of_framed h hf)⟩

theorem driven_linkFramed {l : Line} (hl : l ≠ .csN) (b : Level) (s : State) :
    LinkFramed s (logEvent (.drive l b) (setLine l b (popDraw s))) := by
  refine ⟨⟨by simp, by simp, by simp, by simp, by simp, by simp, by simp, by simp, by simp, by simp [List.tail_suffix], by simp⟩, ?_,
    [.drive l b], by simp, by simp [Ne.symm hl]⟩
  cases l <;> simp_all

theorem drive_spec {l : Line} (hl : l ≠ .csN) (b : Level) (s : State) :
    (drive l b s).Sat (fun _ t => t = logEvent (.drive l b) (setLine l b (popDraw s))) (fun e t => LineStopped e s t) := by
  rcases drive_cases l b s with ⟨-, h⟩ | ⟨f, hf, h⟩ <;> rw [h]
  · rfl
  · refine ⟨?_, rfl, lineFailure_pLineFault hf, lineFailure_notQuiet hf, by simp, f.engine, by simp, by simp⟩
    exact LinkFramed.trans (t := popDraw s) ⟨⟨rfl, rfl, rfl, rfl, rfl, rfl, rfl, rfl, rfl, List.tail_suffix _, [], by simp⟩, rfl, [], by simp, by simp⟩
      (failedDrive_linkFramed hl f _)

theorem sample_spec (s : State) :
    (sample s).Sat (fun b t => b = peerLevel s ∧ t = logEvent (.sample (peerLevel s)) (popPeer (popDraw s)))
      (fun e t => LineStopped e s t) := by
  rcases sample_cases s with ⟨-, h⟩ | ⟨f, hf, h⟩ <;> rw [h]
  · exact ⟨rfl, rfl⟩
  · refine ⟨?_, rfl, lineFailure_pLineFault hf, lineFailure_notQuiet hf, by simp, f.engine, by simp, by simp⟩
    exact LinkFramed.trans (t := popDraw s) ⟨⟨rfl, rfl, rfl, rfl, rfl, rfl, rfl, rfl, rfl, List.tail_suffix _, [], by simp⟩, rfl, [], by simp, by simp⟩
      (failedSample_linkFramed f _)

theorem sampled_linkFramed (b : Level) (s : State) : LinkFramed s (logEvent (.sample b) (popPeer (popDraw s))) :=
  ⟨⟨by simp, by simp, by simp, by simp, by simp, by simp, by simp, by simp, by simp, by simp [List.tail_suffix], by simp⟩, by simp,
    [.sample b], by simp, by simp⟩

/-- Changing only the engine and the published byte is inside the link frame. -/
theorem engine_linkFramed (e : Engine) (r : Option Byte) (s : State) :
    LinkFramed s { s with se := e, rxp := r } :=
  ⟨⟨rfl, rfl, rfl, rfl, rfl, rfl, rfl, rfl, rfl, by simp, [], by simp⟩, rfl, [], by simp, by simp⟩

/-- What a setup tick does (R131). -/
theorem setupTick_spec (mask tx rx : Byte) (s : State) :
    (setupTick mask tx rx s).Sat
      (fun _ t => LinkFramed s t ∧ t.faulted = s.faulted ∧ t.se = .xfer true mask tx rx ∧ t.rxp = s.rxp ∧ t.sck = false)
      (fun e t => LineStopped e s t) := by
  refine (drive_spec (by decide) _ s).bind fun _ s1 h1 => ?_
  have f1 : LinkFramed s s1 := h1 ▸ driven_linkFramed (by decide) _ s
  refine ((drive_spec (l := .sck) (by decide) false s1).mono (fun _ _ h => h)
    (fun _ _ h => h.of_framed f1 (by simp [h1]))).bind fun _ s2 h2 => ?_
  have f2 : LinkFramed s s2 := f1.trans (h2 ▸ driven_linkFramed (by decide) _ s1)
  exact ⟨f2.trans (engine_linkFramed _ s2.rxp s2), by simp [h1, h2], rfl, by simp [h1, h2], by simp [h2]⟩

/-- What a sample tick does (R131). -/
theorem sampleTick_spec (mask tx rx : Byte) (s : State) :
    (sampleTick mask tx rx s).Sat
      (fun _ t => LinkFramed s t ∧ t.faulted = s.faulted ∧ t.sck = true ∧ ∃ b,
        if mask = 0x01 then t.se = .idle ∧ t.rxp = some (receiveBit mask rx b)
        else t.se = .xfer false (mask >>> 1) tx (receiveBit mask rx b) ∧ t.rxp = s.rxp)
      (fun e t => LineStopped e s t) := by
  refine (drive_spec (l := .sck) (by decide) true s).bind fun _ s1 h1 => ?_
  have f1 : LinkFramed s s1 := h1 ▸ driven_linkFramed (by decide) _ s
  refine ((sample_spec s1).mono (fun _ _ h => h) (fun _ _ h => h.of_framed f1 (by simp [h1]))).bind fun b s2 h2 => ?_
  have f2 : LinkFramed s s2 := f1.trans (h2.2 ▸ sampled_linkFramed _ s1)
  split
  · exact ⟨f2.trans (engine_linkFramed _ _ s2), by simp [h1, h2.2], by simp [h1, h2.2], b, rfl, rfl⟩
  · exact ⟨f2.trans (engine_linkFramed _ s2.rxp s2), by simp [h1, h2.2], by simp [h1, h2.2], b, rfl, by simp [h1, h2.2]⟩

theorem tick_idle {s : State} (h : s.se = .idle) : tick s = .ok () s := by
  simp [tick, h]

theorem tick_setup {s : State} {mask tx rx : Byte} (h : s.se = .xfer false mask tx rx) (hm : maskLegal mask = true) :
    tick s = setupTick mask tx rx s := by
  simp [tick, h, hm]

theorem tick_sample {s : State} {mask tx rx : Byte} (h : s.se = .xfer true mask tx rx) (hm : maskLegal mask = true) :
    tick s = sampleTick mask tx rx s := by
  simp [tick, h, hm]

theorem tick_badMask {s : State} {phase : Bool} {mask tx rx : Byte} (h : s.se = .xfer phase mask tx rx)
    (hm : maskLegal mask = false) : tick s = .stop .invariantFault { s with faulted := true } := by
  simp [tick, h, hm, invariantFault]

/-- Everything a tick can do (R131, R336, R337). -/
theorem tick_spec (s : State) : (tick s).Sat (fun _ t => Ticked s t) (fun e t => Stopped e s t) := by
  cases hs : s.se with
  | idle =>
    rw [tick_idle hs]
    exact ⟨LinkFramed.refl s, rfl, fun _ => rfl, fun h => absurd hs h, fun h => absurd hs h⟩
  | xfer phase mask tx rx =>
    cases hm : maskLegal mask with
    | false =>
      rw [tick_badMask hs hm]
      exact ⟨⟨⟨rfl, rfl, rfl, rfl, rfl, rfl, rfl, rfl, rfl, by simp, [], by simp⟩, rfl, [], by simp, by simp⟩,
        .inr ⟨rfl, rfl, phase, mask, tx, rx, hs, hm⟩⟩
    | true =>
      cases phase with
      | false =>
        rw [tick_setup hs hm]
        refine (setupTick_spec mask tx rx s).mono (fun _ t h => ?_) (fun _ _ h => h.stopped)
        refine ⟨h.1, h.2.1, fun h' => by simp [hs] at h', fun _ => ?_, fun _ hi => by simp [h.2.2.1] at hi⟩
        rw [h.2.2.1, hs]
        simp [ticksLeft]
        omega
      | true =>
        rw [tick_sample hs hm]
        refine (sampleTick_spec mask tx rx s).mono (fun _ t h => ?_) (fun _ _ h => h.stopped)
        obtain ⟨hf, hfa, hck, b, hb⟩ := h
        refine ⟨hf, hfa, fun h' => by simp [hs] at h', fun _ => ?_, fun _ hi => ?_⟩
        · split at hb
          · rename_i h1
            rw [hb.1, hs, h1]
            rfl
          · rename_i h1
            rw [hb.1, hs]
            rcases maskLegal_cases hm with h | h | h | h | h | h | h | h <;> subst h <;> first | rfl | exact absurd rfl h1
        · split at hb
          · simp [hb.2, hck]
          · simp [hb.1] at hi

/-! ## The synchronous transfer -/

theorem send_idle {s : State} (b : Byte) (h : s.se = .idle) :
    send b s = some { s with se := .xfer false 0x80 b 0, rxp := none } := by
  simp [send, h]

theorem send_xfer {s : State} (b : Byte) (h : s.se ≠ .idle) : send b s = none := by
  unfold send
  split
  · rfl
  · contradiction

theorem read_xfer {s : State} (h : s.se ≠ .idle) : read s = .wouldBlock := by
  unfold read
  split
  · rfl
  · contradiction

theorem read_published {s : State} {v : Byte} (h : s.se = .idle) (hv : s.rxp = some v) :
    read s = .byte v { s with rxp := none } := by
  simp [read, h, hv]

/-- The first loop of R140 ends with the byte submitted, or with the error of a tick; it never gives up. -/
theorem submit_spec (n : Nat) (b : Byte) (s : State) (hn : ticksLeft s.se ≤ n) :
    (submit n b s).Sat
      (fun _ t => LinkFramed s t ∧ t.faulted = s.faulted ∧ t.se = .xfer false 0x80 b 0 ∧ t.rxp = none)
      (fun e t => Stopped e s t) := by
  induction n generalizing s with
  | zero =>
    cases hs : s.se with
    | idle =>
      rw [submit, send_idle b hs]
      exact ⟨engine_linkFramed _ _ s, rfl, rfl, rfl⟩
    | xfer p m x r =>
      have := ticksLeft_pos p m x r
      rw [hs] at hn
      omega
  | succ n ih =>
    rw [submit]
    cases hs : s.se with
    | idle =>
      rw [send_idle b hs]
      exact ⟨engine_linkFramed _ _ s, rfl, rfl, rfl⟩
    | xfer p m x r =>
      have hx : s.se ≠ .idle := by simp [hs]
      rw [send_xfer b hx]
      refine (tick_spec s).bind fun _ t ht => ?_
      have := ht.advances hx
      refine (ih t (by omega)).mono (fun _ u h => ?_) (fun _ _ h => h.of_framed ht.framed ht.faulted)
      exact ⟨ht.framed.trans h.1, h.2.1.trans ht.faulted, h.2.2⟩

/-- The second loop of R140 ends with the received byte, the engine idle and nothing left published, or with the error
of a tick; it neither gives up nor finds the engine exhausted. -/
theorem collect_spec (n : Nat) (s : State) (hn : ticksLeft s.se ≤ n)
    (hs : s.se = .idle → s.rxp.isSome ∧ s.sck = true) :
    (collect n s).Sat
      (fun _ t => LinkFramed s t ∧ t.faulted = s.faulted ∧ t.se = .idle ∧ t.rxp = none ∧ t.sck = true)
      (fun e t => Stopped e s t) := by
  induction n generalizing s with
  | zero =>
    cases he : s.se with
    | idle =>
      obtain ⟨v, hv⟩ := Option.isSome_iff_exists.mp (hs he).1
      rw [collect, read_published he hv]
      exact ⟨by simpa [he] using engine_linkFramed s.se none s, rfl, he, rfl, (hs he).2⟩
    | xfer p m x r =>
      have := ticksLeft_pos p m x r
      rw [he] at hn
      omega
  | succ n ih =>
    rw [collect]
    cases he : s.se with
    | idle =>
      obtain ⟨v, hv⟩ := Option.isSome_iff_exists.mp (hs he).1
      rw [read_published he hv]
      exact ⟨by simpa [he] using engine_linkFramed s.se none s, rfl, he, rfl, (hs he).2⟩
    | xfer p m x r =>
      have hx : s.se ≠ .idle := by simp [he]
      rw [read_xfer hx]
      refine (tick_spec s).bind fun _ t ht => ?_
      have := ht.advances hx
      refine (ih t (by omega) (ht.publishes hx)).mono (fun _ u h => ?_) (fun _ _ h => h.of_framed ht.framed ht.faulted)
      exact ⟨ht.framed.trans h.1, h.2.1.trans ht.faulted, h.2.2⟩

/-- Everything `xfer_byte` can do (R140): from any state it exchanges the byte, or ends with a tick's error. -/
theorem xferByte_spec (b : Byte) (s : State) :
    (xferByte b s).Sat
      (fun _ t => LinkFramed s t ∧ t.faulted = s.faulted ∧ t.se = .idle ∧ t.rxp = none ∧ t.sck = true)
      (fun e t => Stopped e s t) := by
  refine (submit_spec 16 b s (ticksLeft_le _)).bind fun _ t ht => ?_
  refine (collect_spec 16 t (ticksLeft_le _) (by simp [ht.2.2.1])).mono (fun _ u h => ?_)
    (fun _ _ h => h.of_framed ht.1 ht.2.1)
  exact ⟨ht.1.trans h.1, h.2.1.trans ht.2.1, h.2.2⟩

/-- Everything a synchronous transfer can do (R140): the list keeps its length; without an error the engine ends idle
with nothing published (if there was a byte to send); with one, the error is a tick's. -/
theorem xfer_spec (bytes : List Byte) (s : State) :
    LinkFramed s (xfer bytes s).state ∧ (xfer bytes s).bytes.length = bytes.length ∧
      match (xfer bytes s).error with
      | none => (xfer bytes s).state.faulted = s.faulted ∧
          (bytes ≠ [] → (xfer bytes s).state.se = .idle ∧ (xfer bytes s).state.rxp = none ∧
            (xfer bytes s).state.sck = true)
      | some e => Stopped e s (xfer bytes s).state := by
  induction bytes generalizing s with
  | nil => exact ⟨LinkFramed.refl s, rfl, rfl, by simp⟩
  | cons b rest ih =>
    have hb := xferByte_spec b s
    rw [xfer]
    cases hx : xferByte b s with
    | stop e t =>
      rw [hx] at hb
      exact ⟨hb.framed, rfl, hb⟩
    | ok v t =>
      rw [hx] at hb
      obtain ⟨h1, h2, h3⟩ := ih t
      refine ⟨hb.1.trans h1, by simp [h2], ?_⟩
      simp only
      cases he : (xfer rest t).error with
      | none =>
        rw [he] at h3
        refine ⟨h3.1.trans hb.2.1, fun _ => ?_⟩
        cases rest with
        | nil => exact hb.2.2
        | cons c more => exact h3.2 (by simp)
      | some e =>
        rw [he] at h3
        exact h3.of_framed hb.1 hb.2.1

/-! ## Frame buffer and checksum -/

theorem bufStore_other (i : Nat) (bytes : List Byte) (s : State) :
    bufStore i bytes s = { s with buf := (bufStore i bytes s).buf } := by
  induction bytes generalizing i s with
  | nil => rfl
  | cons b rest ih =>
    rw [bufStore, ih]
    rfl

/-- The buffer after a list is stored from element `i` on (R32). -/
theorem bufStore_getElem (i : Nat) (bytes : List Byte) (s : State) (j : Nat) (hj : j < 15) :
    (bufStore i bytes s).buf[j] = if i ≤ j ∧ j - i < bytes.length then bytes.getD (j - i) 0 else s.buf[j] := by
  induction bytes generalizing i s with
  | nil => simp [bufStore]
  | cons b rest ih =>
    rw [bufStore, ih]
    simp only [bufSet, List.length_cons]
    rcases Nat.lt_trichotomy i j with h | h | h
    · have e : j - i = (j - (i + 1)) + 1 := by omega
      rw [e]
      simp only [List.getD_cons_succ, Nat.add_lt_add_iff_right]
      have hne : i ≠ j := by omega
      simp [Nat.succ_le_of_lt h, h.le, hne]
    · subst h
      simp
    · simp [show ¬ (i + 1 ≤ j) by omega, show ¬ (i ≤ j) by omega, show i ≠ j by omega]

/-- Storing from the first element lays the list over the buffer. -/
theorem bufStore_overlay (bytes : List Byte) (s : State) :
    bufStore 0 bytes s = { s with buf := overlay bytes s.buf } := by
  rw [bufStore_other]
  congr 1
  apply Vector.ext
  intro j hj
  rw [bufStore_getElem 0 bytes s j hj]
  simp only [overlay, Vector.getElem_ofFn, Nat.zero_le, true_and, Nat.sub_zero, Fin.getElem_fin]
  split
  · rename_i h; simp [List.getD_eq_getElem?_getD, List.getElem?_eq_getElem h]
  · rename_i h; simp [List.getD_eq_getElem?_getD, List.getElem?_eq_none (Nat.le_of_not_lt h)]

/-- Feeding a list (R171): only the accumulator's state changes. -/
theorem ckFeedAll_eq (bytes : List Byte) (s : State) :
    ckFeedAll bytes s = { s with ckState := bytes.foldl (feedByte s.ckMode) s.ckState } := by
  induction bytes generalizing s with
  | nil => rfl
  | cons b rest ih => rw [ckFeedAll, ih]; rfl

theorem ckResult_eq (s : State) : ckResult s = if s.ckMode = .off then none else some s.ckState := by
  unfold ckResult
  split <;> simp_all

/-! ## Commands -/

/-- Every command has a next state (R332, R341): a result code, never a fault or a refusal. -/
theorem command_next (legal : Bool) (rule : State → Res (Option Byte)) (s : State) :
    ∃ t, command legal rule s = .next t := by
  unfold command
  split
  · exact ⟨_, rfl⟩
  · split
    · split <;> exact ⟨_, rfl⟩
    · exact ⟨_, rfl⟩

/-- A command that the prelude lets through (R331). -/
theorem command_run {legal : Bool} (rule : State → Res (Option Byte)) {s : State} (hf : s.faulted = false)
    (hl : legal = true) :
    command legal rule s = match rule (clearResponses s) with
      | .ok d t => .next (answerData d t)
      | .stop e t => .next (answer e t) := by
  rw [command, hf, hl]
  rfl

/-- A command whose rule ends normally (R331). -/
theorem command_ok {rule : State → Res (Option Byte)} {s t : State} {d : Option Byte} (hf : s.faulted = false)
    (h : rule (clearResponses s) = .ok d t) : command true rule s = .next (answerData d t) := by
  simp [command, hf, h]

/-- A command whose rule raises a code (R331). -/
theorem command_stop {rule : State → Res (Option Byte)} {s t : State} {e : ResultCode} (hf : s.faulted = false)
    (h : rule (clearResponses s) = .stop e t) : command true rule s = .next (answer e t) := by
  simp [command, hf, h]

/-- A faulted block (R337), and an illegal operand (R335). -/
theorem command_refused {legal : Bool} {rule : State → Res (Option Byte)} {s : State}
    (h : s.faulted = true ∨ legal = false) : command legal rule s = .next (refuseWord s) := by
  rcases h with h | h <;> simp [command, h]

end Sys2Proof.Machine
end

