-- ==== Sys2Proof/Laws/Exec.lean ====
section
/-! SUPPORT. Each instruction's meaning as the command it is: its legality and its rule (R331). -/

namespace Sys2Proof.Machine

theorem exec_seSend (byte : Byte) (s : State) : exec (.seSend byte) s = command true (fun s0 =>
    match send byte s0 with
    | some s1 => .ok none s1
    | none => .stop .wouldBlock s0) s := rfl

theorem exec_seTick (s : State) :
    exec .seTick s = command true (fun s0 => (tick s0).bind fun _ s1 => .ok none s1) s := rfl

theorem exec_seRead (s : State) : exec .seRead s = command true (fun s0 =>
    match read s0 with
    | .byte v s1 => .ok (some v) s1
    | .wouldBlock => .stop .wouldBlock s0
    | .exhausted => .stop .exhausted s0) s := rfl

theorem exec_ckNew (m : ChecksumMode) (s : State) :
    exec (.ckNew m) s = command true (fun s0 => .ok none (ckNew m s0)) s := rfl

theorem exec_ckFeed (b : Byte) (s : State) :
    exec (.ckFeed b) s = command true (fun s0 => .ok none (ckFeed b s0)) s := rfl

theorem exec_ckResult (s : State) :
    exec .ckResult s = command true (fun s0 => .ok (ckResult s0) s0) s := rfl

theorem exec_seXfer (len : BitVec 4) (s : State) : exec (.seXfer len) s =
    command (lenLegal len) (fun s0 => (xferBuf len.toNat s0).bind fun _ s1 => .ok none s1) s := rfl

theorem exec_frRaw (len : BitVec 4) (s : State) :
    exec (.frRaw len) s = command (lenLegal len) (fun s0 => rawTransaction len.toNat s0) s := rfl

theorem exec_frRead (addr : Byte) (len : BitVec 4) (s : State) : exec (.frRead addr len) s =
    command (lenLegal len) (fun s0 => readTransaction s0.curMode addr len.toNat s0) s := rfl

theorem exec_frWrite (addr : Byte) (len : BitVec 4) (s : State) : exec (.frWrite addr len) s =
    command (lenLegal len) (fun s0 => writeTransaction s0.curMode addr len.toNat s0) s := rfl

theorem exec_frSetMode (m : ChecksumMode) (s : State) :
    exec (.frSetMode m) s = command true (fun s0 => .ok none { s0 with curMode := m }) s := rfl

theorem exec_frGetMode (s : State) :
    exec .frGetMode s = command true (fun s0 => .ok (some (modeByte s0.curMode)) s0) s := rfl

theorem exec_bufWr (idx : BitVec 4) (b : Byte) (s : State) :
    exec (.bufWr idx b) s = command (idxLegal idx) (fun s0 => .ok none (bufSet idx.toNat b s0)) s := rfl

theorem exec_bufRd (idx : BitVec 4) (s : State) :
    exec (.bufRd idx) s = command (idxLegal idx) (fun s0 => .ok (bufByte idx.toNat s0) s0) s := rfl

theorem exec_wireReadAddr (addr : Byte) (s : State) : exec (.wireReadAddr addr) s = .next s := rfl

theorem exec_wireWriteAddr (addr : Byte) (s : State) : exec (.wireWriteAddr addr) s = .next s := rfl

/-- Every command has some legality and some rule (R331). -/
theorem exec_command {i : Instr} (h : commands i = true) : ∃ legal rule, ∀ s, exec i s = command legal rule s := by
  cases i with
  | seSend b => exact ⟨_, _, exec_seSend b⟩
  | seTick => exact ⟨_, _, exec_seTick⟩
  | seRead => exact ⟨_, _, exec_seRead⟩
  | ckNew m => exact ⟨_, _, exec_ckNew m⟩
  | ckFeed b => exact ⟨_, _, exec_ckFeed b⟩
  | ckResult => exact ⟨_, _, exec_ckResult⟩
  | seXfer n => exact ⟨_, _, exec_seXfer n⟩
  | frRaw n => exact ⟨_, _, exec_frRaw n⟩
  | frRead a n => exact ⟨_, _, exec_frRead a n⟩
  | frWrite a n => exact ⟨_, _, exec_frWrite a n⟩
  | frSetMode m => exact ⟨_, _, exec_frSetMode m⟩
  | frGetMode => exact ⟨_, _, exec_frGetMode⟩
  | bufWr i b => exact ⟨_, _, exec_bufWr i b⟩
  | bufRd i => exact ⟨_, _, exec_bufRd i⟩
  | wireReadAddr a => cases h
  | wireWriteAddr a => cases h

/-- Everything an instruction can be (R100, R331): a command with its legality and its rule, or a wire row, which leaves the
block as it is. -/
theorem exec_cases (i : Instr) :
    (commands i = true ∧ ∃ legal rule, ∀ s, exec i s = command legal rule s) ∨
    (commands i = false ∧ ∀ s, exec i s = .next s) := by
  cases hc : commands i with
  | true => exact .inl ⟨rfl, exec_command hc⟩
  | false => cases i <;> first | exact .inr ⟨rfl, fun _ => rfl⟩ | cases hc

theorem require_eq {c : Bool} {why : Illegal} {i j : Instr} (h : require c why i = .ok j) : j = i := by
  cases c <;> cases h; rfl

theorem map_eq {α : Type} {r : Except Illegal α} {f : α → Instr} {j : Instr} (h : r.map f = .ok j) : ∃ a, j = f a := by
  cases r <;> cases h; exact ⟨_, rfl⟩

/-- What decodes from a command word is a command (R97). -/
theorem commands_of_decode {w : CommandWord} {i : Instr} (h : decode (.command w) = .ok i) : commands i = true := by
  simp only [decode, decodeCommand, decodeFields] at h
  repeat' split at h
  all_goals first
    | cases h
    | rw [require_eq h]; rfl
    | obtain ⟨m, rfl⟩ := map_eq h; rfl

/-- A faulted block refuses every command (R337). -/
theorem exec_faulted {i : Instr} (hc : commands i = true) {s : State} (h : s.faulted = true) :
    exec i s = .next (refuseWord s) := by
  obtain ⟨legal, rule, he⟩ := exec_command hc
  rw [he, command_refused (.inl h)]

theorem lenLegal_of_ne {len : BitVec 4} (h : len ≠ 0) : lenLegal len = true := by
  simpa [lenLegal] using h

theorem idxLegal_of_ne {idx : BitVec 4} (h : idx ≠ 15) : idxLegal idx = true := by
  simpa [idxLegal] using h

/-- A payload is not empty when its length is legal. -/
theorem payload_length (n : Nat) (h : n ≤ 15) (s : State) : (payload n s).length = n := by
  simp [payload, h]

theorem payload_ne_nil {len : BitVec 4} (h : len ≠ 0) (s : State) : payload len.toNat s ≠ [] := by
  intro hp
  have hl := congrArg List.length hp
  rw [payload_length _ (by omega)] at hl
  exact h (BitVec.eq_of_toNat_eq (by simpa using hl))

end Sys2Proof.Machine
end

