-- ==== Sys2Proof/Laws/Quiet.lean ====
section
/-! SUPPORT. The exact result of every transfer whose line operations do not fail: the bit period, the byte, the list
and the chip-select window (R104, R135, R140, R241). -/

namespace Sys2Proof.Machine

theorem tail_tail {α : Type} (l : List α) : l.tail.tail = l.drop 2 := by
  simp [← List.drop_one]

theorem peerLevel_eq (s : State) : peerLevel s = peerAnswer s 0 := by
  unfold peerLevel peerAnswer
  cases s.miso <;> simp

theorem popPeer_eq (s : State) :
    popPeer s = { s with miso := s.miso.drop 1, samples := s.samples + (1 - s.miso.length) } := by
  unfold popPeer
  split <;> rename_i h <;> simp [h]

/-- After `k` answers, the peer's next answer is its k-th from the start. -/
theorem peerAnswer_drained {s t : State} (k j : Nat) (hm : t.miso = s.miso.drop k)
    (hs : t.samples = s.samples + (k - s.miso.length)) : peerAnswer t j = peerAnswer s (k + j) := by
  unfold peerAnswer
  rw [hm, hs]
  simp only [List.getElem?_drop, List.length_drop]
  split
  · rfl
  · rename_i h
    rw [List.getElem?_eq_none_iff] at h
    congr 1
    omega

/-- The state after one bit period that is not a byte's last (R131). -/
def bitDone (mask tx rx : Byte) (s : State) : State :=
  { s with
    se := .xfer false (mask >>> 1) tx (receiveBit mask rx (peerAnswer s 0))
    sck := true, mosi := (tx &&& mask != 0)
    evt := s.evt ++ [.drive .mosi (tx &&& mask != 0), .drive .sck false, .drive .sck true, .sample (peerAnswer s 0)]
    miso := s.miso.drop 1, samples := s.samples + (1 - s.miso.length), lineDraws := s.lineDraws.drop 4 }

theorem setupTick_quiet {s : State} (h : Quiet s) (mask tx rx : Byte) :
    setupTick mask tx rx s = .ok ()
      { s with
        se := .xfer true mask tx rx, sck := false, mosi := (tx &&& mask != 0)
        evt := s.evt ++ [.drive .mosi (tx &&& mask != 0), .drive .sck false]
        lineDraws := s.lineDraws.drop 2 } := by
  rw [setupTick, drive_quiet _ _ h, Res.bind_ok, drive_quiet .sck false (h.tail (by simp)), Res.bind_ok]
  simp [logEvent, setLine, popDraw, tail_tail]

/-- A sample tick whose line operations succeed: the engine's next state by whether the bit was the last (R131). -/
theorem sampleTick_quiet {s : State} (h : Quiet s) (mask tx rx : Byte) :
    sampleTick mask tx rx s = .ok ()
      { s with
        se := if mask = 0x01 then .idle else .xfer false (mask >>> 1) tx (receiveBit mask rx (peerAnswer s 0))
        rxp := if mask = 0x01 then some (receiveBit mask rx (peerAnswer s 0)) else s.rxp
        sck := true
        evt := s.evt ++ [.drive .sck true, .sample (peerAnswer s 0)]
        miso := s.miso.drop 1, samples := s.samples + (1 - s.miso.length), lineDraws := s.lineDraws.drop 2 } := by
  rw [sampleTick, drive_quiet .sck true h, Res.bind_ok, sample_quiet (h.tail (by simp)), Res.bind_ok, popPeer_eq,
    peerLevel_eq]
  have e : peerAnswer (logEvent (.drive .sck true) (setLine .sck true (popDraw s))) 0 = peerAnswer s 0 := rfl
  rw [e]
  by_cases hm : mask = 0x01
  · simp only [if_pos hm]
    simp [logEvent, setLine, popDraw, tail_tail]
  · simp only [if_neg hm]
    simp [logEvent, setLine, popDraw, tail_tail]

/-- One bit period inside the collecting loop (R131, R140). -/
theorem collect_bit {s : State} (h : Quiet s) {mask tx rx : Byte} (hs : s.se = .xfer false mask tx rx)
    (hm : maskLegal mask = true) (h1 : mask ≠ 0x01) (n : Nat) :
    collect (n + 2) s = collect n (bitDone mask tx rx s) := by
  rw [collect, read_xfer (by simp [hs]), tick_setup hs hm, setupTick_quiet h]
  simp only [Res.bind_ok]
  rw [collect, read_xfer (by simp), tick_sample rfl hm, sampleTick_quiet (h.drop 2 rfl)]
  simp only [if_neg h1]
  simp [bitDone, peerAnswer]

/-- The last bit period of a byte: the engine is idle and the byte is handed over (R131, R132, R140). -/
theorem collect_lastBit {s : State} (h : Quiet s) {tx rx : Byte} (hs : s.se = .xfer false 0x01 tx rx) (n : Nat) :
    collect (n + 2) s = .ok (receiveBit 0x01 rx (peerAnswer s 0))
      { bitDone 0x01 tx rx s with se := .idle, rxp := none } := by
  rw [collect, read_xfer (by simp [hs]), tick_setup hs rfl, setupTick_quiet h]
  simp only [Res.bind_ok]
  rw [collect, read_xfer (by simp), tick_sample rfl rfl, sampleTick_quiet (h.drop 2 rfl)]
  simp only [Res.bind_ok, if_true]
  cases n <;> rw [collect, read_published rfl rfl] <;> simp [bitDone, peerAnswer]

theorem receivedBits (b7 b6 b5 b4 b3 b2 b1 b0 : Bool) :
    receiveBit 0x01 (receiveBit 0x02 (receiveBit 0x04 (receiveBit 0x08 (receiveBit 0x10 (receiveBit 0x20
      (receiveBit 0x40 (receiveBit 0x80 0 b7) b6) b5) b4) b3) b2) b1) b0 =
    BitVec.ofBool b7 ++ BitVec.ofBool b6 ++ BitVec.ofBool b5 ++ BitVec.ofBool b4 ++ BitVec.ofBool b3 ++
      BitVec.ofBool b2 ++ BitVec.ofBool b1 ++ BitVec.ofBool b0 := by
  revert b7 b6 b5 b4 b3 b2 b1 b0
  decide

theorem maskedBits (tx : Byte) :
    (tx &&& 0x80 != 0) = tx.getLsbD 7 ∧ (tx &&& 0x40 != 0) = tx.getLsbD 6 ∧ (tx &&& 0x20 != 0) = tx.getLsbD 5 ∧
    (tx &&& 0x10 != 0) = tx.getLsbD 4 ∧ (tx &&& 0x08 != 0) = tx.getLsbD 3 ∧ (tx &&& 0x04 != 0) = tx.getLsbD 2 ∧
    (tx &&& 0x02 != 0) = tx.getLsbD 1 ∧ (tx &&& 0x01 != 0) = tx.getLsbD 0 := by
  revert tx
  decide

theorem byteOfLevels_bits (f : Nat → Level) :
    (byteOfLevels f).getLsbD 7 = f 0 ∧ (byteOfLevels f).getLsbD 6 = f 1 ∧ (byteOfLevels f).getLsbD 5 = f 2 ∧
    (byteOfLevels f).getLsbD 4 = f 3 ∧ (byteOfLevels f).getLsbD 3 = f 4 ∧ (byteOfLevels f).getLsbD 2 = f 5 ∧
    (byteOfLevels f).getLsbD 1 = f 6 ∧ (byteOfLevels f).getLsbD 0 = f 7 := by
  simp only [byteOfLevels]
  generalize f 0 = b0; generalize f 1 = b1; generalize f 2 = b2; generalize f 3 = b3
  generalize f 4 = b4; generalize f 5 = b5; generalize f 6 = b6; generalize f 7 = b7
  revert b0 b1 b2 b3 b4 b5 b6 b7
  decide

/-- The state before bit `k` of a byte begun at `s`, `es` being the events so far. -/
def atBit (k : Nat) (mask tx rx : Byte) (c m : Level) (es : List Event) (s : State) : State :=
  { s with
    se := .xfer false mask tx rx, rxp := none, sck := c, mosi := m, evt := s.evt ++ es
    miso := s.miso.drop k, samples := s.samples + (k - s.miso.length), lineDraws := s.lineDraws.drop (4 * k) }

theorem peerAnswer_atBit (k : Nat) (mask tx rx : Byte) (c m : Level) (es : List Event) (s : State) :
    peerAnswer (atBit k mask tx rx c m es s) 0 = peerAnswer s k := by
  simpa using peerAnswer_drained (t := atBit k mask tx rx c m es s) k 0 rfl rfl

theorem bitDone_atBit (k : Nat) (mask tx rx : Byte) (c m : Level) (es : List Event) (s : State) :
    bitDone mask tx rx (atBit k mask tx rx c m es s) =
      atBit (k + 1) (mask >>> 1) tx (receiveBit mask rx (peerAnswer s k)) true (tx &&& mask != 0)
        (es ++ [.drive .mosi (tx &&& mask != 0), .drive .sck false, .drive .sck true, .sample (peerAnswer s k)]) s := by
  rw [bitDone, peerAnswer_atBit]
  have h1 : s.samples + (k - s.miso.length) + (1 - (s.miso.length - k)) = s.samples + (k + 1 - s.miso.length) := by
    omega
  simp [atBit, List.drop_drop, h1, Nat.mul_add]

theorem collect_atBit {s : State} (h : Quiet s) {k : Nat} {mask tx rx : Byte} {c m : Level} {es : List Event}
    (hm : maskLegal mask = true) (h1 : mask ≠ 0x01) (n : Nat) :
    collect (n + 2) (atBit k mask tx rx c m es s) =
      collect n (atBit (k + 1) (mask >>> 1) tx (receiveBit mask rx (peerAnswer s k)) true (tx &&& mask != 0)
        (es ++ [.drive .mosi (tx &&& mask != 0), .drive .sck false, .drive .sck true, .sample (peerAnswer s k)]) s) := by
  rw [collect_bit (h.drop (4 * k) rfl) rfl hm h1, bitDone_atBit]

/-- One byte from an idle engine: the peer's byte is received and the line events are those of R104. -/
theorem xferByte_quiet {s : State} (h : Quiet s) (hs : s.se = .idle) (b : Byte) :
    xferByte b s = .ok (peerByte s) (afterByte b s) := by
  have hsub : submit 16 b s = .ok () (atBit 0 0x80 b 0 s.sck s.mosi [] s) := by
    rw [submit, send_idle b hs]
    simp [atBit]
  rw [xferByte, hsub, Res.bind_ok]
  refine (collect_atBit (mask := 0x80) h (by decide) (by decide) 14).trans ?_
  refine (collect_atBit (mask := 0x40) h (by decide) (by decide) 12).trans ?_
  refine (collect_atBit (mask := 0x20) h (by decide) (by decide) 10).trans ?_
  refine (collect_atBit (mask := 0x10) h (by decide) (by decide) 8).trans ?_
  refine (collect_atBit (mask := 0x08) h (by decide) (by decide) 6).trans ?_
  refine (collect_atBit (mask := 0x04) h (by decide) (by decide) 4).trans ?_
  refine (collect_atBit (mask := 0x02) h (by decide) (by decide) 2).trans ?_
  refine (collect_lastBit (h.drop 28 rfl) rfl 0).trans ?_
  obtain ⟨m7, m6, m5, m4, m3, m2, m1, m0⟩ := maskedBits b
  obtain ⟨r7, r6, r5, r4, r3, r2, r1, r0⟩ := byteOfLevels_bits (peerAnswer s)
  rw [peerAnswer_atBit, receivedBits, show (0x02 : Byte) >>> 1 = 0x01 by rfl, bitDone_atBit, m7, m6, m5, m4, m3, m2, m1, m0]
  simp [atBit, afterByte, byteEvents, bitEvents, peerByte]
  exact ⟨rfl, r7.symm, r6.symm, r5.symm, r4.symm, r3.symm, r2.symm, r1.symm, r0.symm⟩

/-- A list from an idle engine (R140). -/
theorem xfer_quiet {s : State} (h : Quiet s) (hs : s.se = .idle) (bytes : List Byte) :
    xfer bytes s = ⟨slotBytes bytes s, none, afterBytes bytes s⟩ := by
  induction bytes generalizing s with
  | nil => rfl
  | cons b rest ih =>
    rw [xfer, xferByte_quiet h hs]
    simp only
    rw [ih (h.drop 32 rfl) rfl]
    rfl

/-- Chip select driven (R241). -/
theorem drive_csN_quiet {s : State} (h : Quiet s) (b : Level) : drive .csN b s = .ok () (csDriven b s) := by
  rw [drive_quiet _ _ h]
  rfl

theorem byteEvents_length (tx rx : Byte) : (byteEvents tx rx).length = 32 := rfl

/-- The line events of a list of bytes (R104). -/
def linkEvents (bytes : List Byte) (s : State) : List Event :=
  match bytes with
  | [] => []
  | b :: rest => byteEvents b (peerByte s) ++ linkEvents rest (afterByte b s)

/-- What the state after a list of bytes keeps, and where the rest stands. -/
theorem afterBytes_eq (bytes : List Byte) (s : State) :
    afterBytes bytes s = { s with
      se := if bytes = [] then s.se else .idle
      rxp := if bytes = [] then s.rxp else none
      sck := if bytes = [] then s.sck else true
      mosi := match bytes.getLast? with | some b => b.getLsbD 0 | none => s.mosi
      evt := s.evt ++ linkEvents bytes s
      miso := s.miso.drop (8 * bytes.length)
      samples := s.samples + (8 * bytes.length - s.miso.length)
      lineDraws := s.lineDraws.drop (32 * bytes.length) } := by
  induction bytes generalizing s with
  | nil => simp [afterBytes, linkEvents]
  | cons b rest ih =>
    rw [afterBytes, ih]
    have e : s.samples + (8 - s.miso.length) + (8 * rest.length - (s.miso.length - 8)) =
        s.samples + (8 * (rest.length + 1) - s.miso.length) := by omega
    cases rest with
    | nil => simp [afterByte, linkEvents]
    | cons c more =>
      obtain ⟨l, hlast⟩ : ∃ l, (c :: more).getLast? = some l := ⟨_, List.getLast?_eq_some_getLast (by simp)⟩
      simp only [afterByte, List.length_drop, e]
      simp [List.drop_drop, Nat.mul_add, Nat.add_comm, List.getLast?_cons, hlast, linkEvents, afterByte]

theorem linkEvents_length (bytes : List Byte) (s : State) : (linkEvents bytes s).length = 32 * bytes.length := by
  induction bytes generalizing s with
  | nil => rfl
  | cons b rest ih =>
    rw [linkEvents, List.length_append, byteEvents_length, ih, List.length_cons]
    omega

theorem linkEvents_chipSelectFree (bytes : List Byte) (s : State) : ChipSelectFree (linkEvents bytes s) := by
  induction bytes generalizing s with
  | nil => intro b hb; simp [linkEvents] at hb
  | cons c rest ih =>
    intro b hb
    rcases List.mem_append.mp hb with hb | hb
    · simp [byteEvents, bitEvents] at hb
    · exact ih _ b hb

/-- What the peer presents depends on its script and the answers it has given, and on nothing else. -/
theorem slotBytes_congr (bytes : List Byte) {s t : State} (hm : t.miso = s.miso) (hs : t.samples = s.samples) :
    slotBytes bytes t = slotBytes bytes s := by
  induction bytes generalizing s t with
  | nil => rfl
  | cons b rest ih =>
    have hp : peerByte t = peerByte s := by
      unfold peerByte
      congr 1
      funext k
      unfold peerAnswer
      rw [hm, hs]
    rw [slotBytes, slotBytes, hp, ih (s := afterByte b s) (t := afterByte b t) (by simp [afterByte, hm])
      (by simp [afterByte, hm, hs])]

theorem linkEvents_congr (bytes : List Byte) {s t : State} (hm : t.miso = s.miso) (hs : t.samples = s.samples) :
    linkEvents bytes t = linkEvents bytes s := by
  induction bytes generalizing s t with
  | nil => rfl
  | cons b rest ih =>
    have hp : peerByte t = peerByte s := by
      unfold peerByte
      congr 1
      funext k
      unfold peerAnswer
      rw [hm, hs]
    rw [linkEvents, linkEvents, hp, ih (s := afterByte b s) (t := afterByte b t) (by simp [afterByte, hm])
      (by simp [afterByte, hm, hs])]

theorem afterBytes_quiet {s : State} (h : Quiet s) (bytes : List Byte) : Quiet (afterBytes bytes s) :=
  h.drop (32 * bytes.length) (by rw [afterBytes_eq])

theorem slotBytes_length (bytes : List Byte) (s : State) : (slotBytes bytes s).length = bytes.length := by
  induction bytes generalizing s with
  | nil => rfl
  | cons b rest ih => simp [slotBytes, ih]

theorem mosiBits_append (es fs : List Event) : mosiBits (es ++ fs) = mosiBits es ++ mosiBits fs := by
  simp [mosiBits]

/-- What the peer takes from `MOSI` while a list is sent (R63, R104). -/
theorem mosiBits_linkEvents (bytes : List Byte) (s : State) :
    mosiBits (linkEvents bytes s) = bytes.flatMap byteBits := by
  induction bytes generalizing s with
  | nil => rfl
  | cons b rest ih =>
    rw [linkEvents, mosiBits_append, ih]
    rfl

end Sys2Proof.Machine
end

