-- ==== Sys2Proof/Laws/Framer.lean ====
section
/-! SUPPORT. What the framer's transactions can do, said once: the chip-select window around a transfer, how it can stop,
its exact result where no line operation fails, and the transactions as a window with its checksum (R241 to R244). -/

namespace Sys2Proof.Machine

theorem Res.bind_assoc {α β γ : Type} (r : Res α) (f : α → State → Res β) (g : β → State → Res γ) :
    (r.bind f).bind g = r.bind fun a s => (f a s).bind g := by
  cases r <;> rfl

/-- How a command ends (R331): refused by its prelude, or by its own rule, with a value or with a raised code. -/
theorem command_cases {legal : Bool} {rule : State → Res (Option Byte)} {s t : State}
    (h : command legal rule s = .next t) :
    ((s.faulted = true ∨ legal = false) ∧ t = refuseWord s) ∨
    (s.faulted = false ∧ legal = true ∧
      ((∃ d u, rule (clearResponses s) = .ok d u ∧ t = answerData d u) ∨
       (∃ e u, rule (clearResponses s) = .stop e u ∧ t = answer e u))) := by
  cases hf : s.faulted with
  | true => rw [command_refused (.inl hf)] at h; cases h; exact .inl ⟨.inl rfl, rfl⟩
  | false =>
    cases hl : legal with
    | false => rw [command_refused (.inr hl)] at h; cases h; exact .inl ⟨.inr rfl, rfl⟩
    | true =>
      rw [command_run rule hf hl] at h
      split at h <;> cases h
      · exact .inr ⟨rfl, rfl, .inl ⟨_, _, by assumption, rfl⟩⟩
      · exact .inr ⟨rfl, rfl, .inr ⟨_, _, by assumption, rfl⟩⟩

/-! ## The chip-select window -/

/-- A list transferred inside one chip-select window, as `FR_READ` and `FR_WRITE` do (R241). -/
def window (bytes : List Byte) (s : State) : Res (List Byte) :=
  (drive .csN false s).bind fun _ s1 =>
  (xfer bytes s1).raise.bind fun frame s2 =>
  (drive .csN true s2).bind fun _ s3 =>
  .ok frame s3

theorem readTransaction_window (m : ChecksumMode) (addr : Byte) (n : Nat) (s : State) :
    readTransaction m addr n s =
      (window (readFrame m addr n) (ckFeed (readAddress addr) (ckNew m s))).bind (verifyRead m n) := by
  simp [readTransaction, window, Res.bind_assoc]

theorem writeTransaction_window (m : ChecksumMode) (addr : Byte) (n : Nat) (s : State) :
    writeTransaction m addr n s =
      (window (writeFrame addr (payload n s) (ckResult (writeChecksum m addr (payload n s) s)))
        (writeChecksum m addr (payload n s) s)).bind fun _ t => .ok none t := by
  simp [writeTransaction, window, Res.bind_assoc]

/-- A window that went through (R68, R241): low before its first event, high after its last, the engine at rest. -/
structure Windowed (s t : State) : Prop where
  framed : Framed s t
  faulted : t.faulted = s.faulted
  atRest : t.se = .idle ∧ t.rxp = none ∧ t.sck = true
  csN : t.csN = true
  events : ∃ es, t.evt = s.evt ++ [.drive .csN false] ++ es ++ [.drive .csN true] ∧ ChipSelectFree es

/-- How a window can be stopped: the line layer failed an operation (R336), or the byte in flight had an impossible mask,
which leaves chip select asserted (R241, R337). -/
structure WindowStopped (e : ResultCode) (s t : State) : Prop where
  framed : Framed s t
  why : (e = .transportError ∧ Config.pLineFault = true ∧ ¬ Quiet s ∧ t.faulted = s.faulted) ∨
    (e = .invariantFault ∧ t.faulted = true ∧ t.csN = false)

theorem csDriven_framed (b : Level) (s : State) : Framed s (csDriven b s) :=
  ⟨rfl, rfl, rfl, rfl, rfl, rfl, rfl, rfl, rfl, List.tail_suffix _, [.drive .csN b], rfl⟩

theorem popDraw_framed (s : State) : Framed s (popDraw s) :=
  ⟨rfl, rfl, rfl, rfl, rfl, rfl, rfl, rfl, rfl, List.tail_suffix _, [], by simp⟩

/-- How a chip-select drive can be stopped (R336). -/
structure SelectStopped (e : ResultCode) (s t : State) : Prop where
  framed : Framed s t
  code : e = .transportError
  canFail : Config.pLineFault = true
  notQuiet : ¬ Quiet s
  faulted : t.faulted = s.faulted

/-- Everything a chip-select drive can do (R241, R336). -/
theorem drive_csN_spec (b : Level) (s : State) :
    (drive .csN b s).Sat (fun _ t => t = csDriven b s) (fun e t => SelectStopped e s t) := by
  rcases drive_cases .csN b s with ⟨-, h⟩ | ⟨f, hf, h⟩ <;> rw [h]
  · rfl
  · exact ⟨(popDraw_framed s).trans (failedDrive_framed _ _ _), rfl, lineFailure_pLineFault hf,
      lineFailure_notQuiet hf, by simp⟩

theorem SelectStopped.window {e : ResultCode} {s t u : State} (h : Framed s t) (hf : t.faulted = s.faulted)
    (k : SelectStopped e t u) : WindowStopped e s u :=
  ⟨h.trans k.framed, .inl ⟨k.code, k.canFail, fun q => k.notQuiet (h.quiet q), k.faulted.trans hf⟩⟩

theorem Stopped.window {e : ResultCode} {s t u : State} (h : Framed s t) (hf : t.faulted = s.faulted)
    (hc : t.csN = false) (k : Stopped e t u) : WindowStopped e s u := by
  refine ⟨h.trans k.framed.toFramed, k.why.imp (fun w => ?_) (fun w => ?_)⟩
  · exact ⟨w.code, w.canFail, fun q => w.notQuiet (h.quiet q), w.faulted.trans hf⟩
  · exact ⟨w.1, w.2.1, k.framed.csN.trans hc⟩

/-- Everything a synchronous transfer that raises can do (R140). -/
theorem xfer_raise_spec (bytes : List Byte) (s : State) :
    (xfer bytes s).raise.Sat
      (fun frame t => LinkFramed s t ∧ t.faulted = s.faulted ∧ frame.length = bytes.length ∧
        (bytes ≠ [] → t.se = .idle ∧ t.rxp = none ∧ t.sck = true))
      (fun e t => Stopped e s t) := by
  obtain ⟨h1, h2, h3⟩ := xfer_spec bytes s
  unfold Xfer.raise
  split <;> rename_i he <;> rw [he] at h3
  · exact h3
  · exact ⟨h1, h3.1, h2, h3.2⟩

/-- Everything a window can do (R241). -/
theorem window_spec {bytes : List Byte} (hb : bytes ≠ []) (s : State) :
    (window bytes s).Sat (fun frame t => Windowed s t ∧ frame.length = bytes.length)
      (fun e t => WindowStopped e s t) := by
  refine ((drive_csN_spec false s).mono (fun _ _ h => h) (fun _ _ h => h.window (.refl s) rfl)).bind fun _ s1 h1 => ?_
  have f1 : Framed s s1 := h1 ▸ csDriven_framed false s
  refine ((xfer_raise_spec bytes s1).mono (fun _ _ h => h)
    (fun _ _ h => h.window f1 (by simp [h1]) (by simp [h1]))).bind fun frame s2 h2 => ?_
  obtain ⟨l2, fa2, len2, rest2⟩ := h2
  have f2 : Framed s s2 := f1.trans l2.toFramed
  refine ((drive_csN_spec true s2).mono (fun _ _ h => h) (fun _ _ h => h.window f2 (by simp [fa2, h1]))).bind
    fun _ s3 h3 => ?_
  obtain ⟨es, he, hn⟩ := l2.noChipSelect
  refine ⟨⟨f2.trans (h3 ▸ csDriven_framed true s2), by simp [h1, h3, fa2], by simpa [h3] using rest2 hb, by simp [h3], es, ?_,
    hn⟩, len2⟩
  simp [h3, h1, he]

/-- The exact result of a window where no line operation fails, from an idle engine (R241). -/
theorem window_quiet {s : State} (h : Quiet s) (hs : s.se = .idle) (bytes : List Byte) :
    window bytes s = .ok (windowBytes bytes s) (afterWindow bytes s) := by
  have q1 : Quiet (csDriven false s) := h.tail rfl
  rw [window, drive_csN_quiet h, Res.bind_ok, xfer_quiet q1 (by simpa using hs)]
  simp only [Xfer.raise, Res.bind_ok]
  rw [drive_csN_quiet (afterBytes_quiet q1 bytes)]
  rfl

/-! ## The transactions -/

/-- The end of a read frame (R242): payload and checksum state are written, then the trailers are compared. -/
theorem verifyRead_eq (m : ChecksumMode) (n : Nat) (frame : List Byte) (s : State) :
    verifyRead m n frame s =
      let data := receivedPayload n frame
      let state := data.foldl (feedByte s.ckMode) s.ckState
      let t := { s with buf := overlay data s.buf, ckState := state }
      let expected := if s.ckMode = .off then none else some state
      if expected = receivedTrailer m n frame then .ok none t
      else .stop .checksumMismatch { t with rspExp := expected, rspRcv := receivedTrailer m n frame } := by
  simp only [verifyRead, bufStore_overlay, ckFeedAll_eq, ckResult_eq]
  rfl

/-- Everything `FR_READ` can do (R242). -/
theorem readTransaction_cases (m : ChecksumMode) (addr : Byte) (n : Nat) (s : State) :
    (∃ frame t, Windowed (ckFeed (readAddress addr) (ckNew m s)) t ∧ frame.length = n + 1 + trailerLength m ∧
      readTransaction m addr n s = verifyRead m n frame t) ∨
    (∃ e t, WindowStopped e (ckFeed (readAddress addr) (ckNew m s)) t ∧ readTransaction m addr n s = .stop e t) := by
  have h := window_spec (bytes := readFrame m addr n) (by simp [readFrame]) (ckFeed (readAddress addr) (ckNew m s))
  rw [readTransaction_window]
  cases hw : window (readFrame m addr n) (ckFeed (readAddress addr) (ckNew m s)) with
  | stop e t => rw [hw] at h; exact .inr ⟨e, t, h, rfl⟩
  | ok frame t =>
    rw [hw] at h
    refine .inl ⟨frame, t, h.1, ?_, rfl⟩
    rw [h.2]
    simp [readFrame]
    omega

/-- Everything `FR_WRITE` can do (R243). -/
theorem writeTransaction_cases (m : ChecksumMode) (addr : Byte) (n : Nat) (s : State) :
    (∃ t, Windowed (writeChecksum m addr (payload n s) s) t ∧ writeTransaction m addr n s = .ok none t) ∨
    (∃ e t, WindowStopped e (writeChecksum m addr (payload n s) s) t ∧ writeTransaction m addr n s = .stop e t) := by
  have h := window_spec
    (bytes := writeFrame addr (payload n s) (ckResult (writeChecksum m addr (payload n s) s)))
    (by simp [writeFrame]) (writeChecksum m addr (payload n s) s)
  rw [writeTransaction_window]
  cases hw : window (writeFrame addr (payload n s) (ckResult (writeChecksum m addr (payload n s) s)))
      (writeChecksum m addr (payload n s) s) with
  | stop e t => rw [hw] at h; exact .inr ⟨e, t, h, rfl⟩
  | ok frame t => rw [hw] at h; exact .inl ⟨t, h.1, rfl⟩

theorem writeChecksum_eq (m : ChecksumMode) (addr : Byte) (bytes : List Byte) (s : State) :
    writeChecksum m addr bytes s =
      { s with ckMode := writeMode m, ckState := checksumOf (writeMode m) (addr :: bytes) } := by
  simp [writeChecksum, ckFeedAll_eq, ckFeed, ckNew, writeAddress, checksumOf]

theorem readChecksum_eq (m : ChecksumMode) (a : Byte) (s : State) :
    ckFeed a (ckNew m s) = { s with ckMode := m, ckState := checksumOf m [a] } := rfl

/-- Everything a transfer of the buffer in place can do (R141, R244): some bytes, as many as were sent, lie over the
payload, and the rest is as after the transfer. -/
theorem xferBuf_spec (n : Nat) (s : State) :
    (xferBuf n s).Sat
      (fun _ t => ∃ bytes u, bytes.length = (payload n s).length ∧ t = { u with buf := overlay bytes s.buf } ∧
        LinkFramed s u ∧ u.faulted = s.faulted ∧ (payload n s ≠ [] → u.se = .idle ∧ u.rxp = none ∧ u.sck = true))
      (fun e t => ∃ bytes u, bytes.length = (payload n s).length ∧ t = { u with buf := overlay bytes s.buf } ∧
        Stopped e s u) := by
  obtain ⟨h1, h2, h3⟩ := xfer_spec (payload n s) s
  unfold xferBuf
  simp only [bufStore_overlay, h1.buf]
  split <;> rename_i he <;> rw [he] at h3
  · exact ⟨_, _, h2, rfl, h3⟩
  · exact ⟨_, _, h2, rfl, h1, h3⟩

/-- Laying bytes over the buffer commutes with everything the framer does with chip select. -/
theorem drive_csN_overlay (b : Level) (buf : Vector Byte 15) (s : State) :
    drive .csN b { s with buf := buf } = match drive .csN b s with
      | .ok a t => .ok a { t with buf := buf }
      | .stop e t => .stop e { t with buf := buf } := by
  have hl : lineFailure { s with buf := buf } = lineFailure s := rfl
  unfold drive
  rw [hl]
  split
  · rename_i f _
    simp only [failedDrive]
    split <;> rfl
  · rfl

/-- Everything `FR_RAW` can do (R244): a window as of the other frames, but for the bytes of the payload. -/
theorem rawTransaction_cases {n : Nat} {s : State} (hn : payload n s ≠ []) :
    ∃ bytes : List Byte, bytes.length ≤ (payload n s).length ∧
      ((∃ u, Windowed s u ∧ rawTransaction n s = .ok none { u with buf := overlay bytes s.buf }) ∨
       (∃ e u, WindowStopped e s u ∧ rawTransaction n s = .stop e { u with buf := overlay bytes s.buf })) := by
  have self : ∀ buf : Vector Byte 15, overlay [] buf = buf := fun buf => by
    apply Vector.ext; intro i hi; simp [overlay]
  unfold rawTransaction
  have h1 := drive_csN_spec false s
  cases hd : drive .csN false s with
  | stop e t =>
    rw [hd] at h1
    exact ⟨[], Nat.zero_le _, .inr ⟨e, t, h1.window (.refl s) rfl, by rw [self, ← h1.framed.buf]; rfl⟩⟩
  | ok _ s1 =>
    rw [hd] at h1
    obtain rfl : s1 = csDriven false s := h1
    have f1 := csDriven_framed false s
    have h2 := xferBuf_spec n (csDriven false s)
    rw [Res.bind_ok]
    cases hx : xferBuf n (csDriven false s) with
    | stop e t =>
      rw [hx] at h2
      obtain ⟨bytes, u, hl, rfl, hu⟩ := h2
      exact ⟨bytes, hl.le, .inr ⟨e, u, hu.window f1 rfl rfl, rfl⟩⟩
    | ok _ t =>
      rw [hx] at h2
      obtain ⟨bytes, u, hl, rfl, hu, hf, hr⟩ := h2
      refine ⟨bytes, hl.le, ?_⟩
      have f2 : Framed s u := f1.trans hu.toFramed
      rw [Res.bind_ok, drive_csN_overlay]
      have h3 := drive_csN_spec true u
      cases hk : drive .csN true u with
      | stop e v =>
        rw [hk] at h3
        exact .inr ⟨e, v, h3.window f2 (by simp [hf]), rfl⟩
      | ok _ v =>
        rw [hk] at h3
        obtain rfl : v = csDriven true u := h3
        obtain ⟨es, he, hn'⟩ := hu.noChipSelect
        exact .inl ⟨csDriven true u, ⟨f2.trans (csDriven_framed true u), by simp [hf], hr hn, rfl, es, by simp [he], hn'⟩,
          rfl⟩

end Sys2Proof.Machine
end

