-- ==== Sys2Proof/Laws/Invariant.lean ====
section
/-! SUPPORT. The shift engine's operations keep the engine's part of the invariant (R24, R28, R131), and in a state that
has it no tick finds an impossible mask (R337). -/

namespace Sys2Proof.Machine

/-- The engine's part of the invariant. -/
structure LinkInv (s : State) : Prop where
  legal : engineLegal s.se = true
  unpublished : s.se ≠ .idle → s.rxp = none
  clock : Config.pLineFault = false → s.sck = engineClock s.se

theorem Inv.link {s : State} (h : Inv s) : LinkInv s := ⟨h.1, h.2.1, h.2.2.2⟩

theorem LinkInv.inv {s : State} (h : LinkInv s) (hf : s.faulted = false) : Inv s :=
  ⟨h.legal, h.unpublished, hf, h.clock⟩

/-- The engine's part of the invariant depends on the engine, the published byte and the clock alone. -/
theorem LinkInv.same {s t : State} (h : LinkInv s) (hse : t.se = s.se) (hr : t.rxp = s.rxp) (hc : t.sck = s.sck) :
    LinkInv t := ⟨hse ▸ h.legal, by rw [hse, hr]; exact h.unpublished, by rw [hse, hc]; exact h.clock⟩

/-- After the line layer failed an operation the engine is still in a state its rules reach (R336). -/
theorem LinkInv.drawn {t : State} {d : EngineDraw} (hp : Config.pLineFault = true) (hse : t.se = drawnEngine d)
    (hr : t.rxp = drawnRxp d) : LinkInv t :=
  ⟨by rw [hse]; exact drawnEngine_legal d, fun h => by rw [hr]; exact drawnRxp_none d (hse ▸ h),
    fun h => by simp [hp] at h⟩

theorem engineLegal_mask {phase : Bool} {mask tx rx : Byte} (h : engineLegal (.xfer phase mask tx rx) = true) :
    maskLegal mask = true := by
  simp only [engineLegal, Bool.and_eq_true] at h
  exact h.1.1

theorem engineLegal_setup {mask tx rx : Byte} (h : engineLegal (.xfer false mask tx rx) = true) :
    engineLegal (.xfer true mask tx rx) = true := by
  simp only [engineLegal, Bool.and_eq_true] at h ⊢
  exact ⟨⟨h.1.1, h.1.2⟩, by simp⟩

theorem engineLegal_sample {mask tx rx : Byte} (b : Level) (h : engineLegal (.xfer true mask tx rx) = true)
    (h1 : mask ≠ 0x01) : engineLegal (.xfer false (mask >>> 1) tx (receiveBit mask rx b)) = true := by
  have hm := engineLegal_mask h
  rcases maskLegal_cases hm with e | e | e | e | e | e | e | e <;> subst e
  · revert rx b; simp only [engineLegal]; decide
  · revert rx b; simp only [engineLegal]; decide
  · revert rx b; simp only [engineLegal]; decide
  · revert rx b; simp only [engineLegal]; decide
  · revert rx b; simp only [engineLegal]; decide
  · revert rx b; simp only [engineLegal]; decide
  · revert rx b; simp only [engineLegal]; decide
  · exact absurd rfl h1

theorem LineStopped.inv {e : ResultCode} {s t : State} (h : LineStopped e s t) :
    e = .transportError ∧ t.faulted = s.faulted ∧ LinkInv t := by
  obtain ⟨d, hd, hr⟩ := h.drawn
  exact ⟨h.code, h.faulted, .drawn h.canFail hd hr⟩

/-- A tick keeps the engine's invariant, and only the line layer can stop it (R24, R131, R336). -/
theorem tick_inv {s : State} (h : LinkInv s) :
    (tick s).Sat (fun _ t => LinkInv t)
      (fun e t => e = .transportError ∧ t.faulted = s.faulted ∧ LinkInv t) := by
  cases hs : s.se with
  | idle =>
    rw [tick_idle hs]
    exact h
  | xfer phase mask tx rx =>
    have hl := h.legal
    have hr := h.unpublished (by simp [hs])
    rw [hs] at hl
    cases phase with
    | false =>
      rw [tick_setup hs (engineLegal_mask hl)]
      refine (setupTick_spec mask tx rx s).mono (fun _ t ht => ?_) (fun _ _ ht => ht.inv)
      obtain ⟨-, -, he, hp, hc⟩ := ht
      exact ⟨he ▸ engineLegal_setup hl, fun _ => hp.trans hr, fun _ => by rw [hc, he]; rfl⟩
    | true =>
      rw [tick_sample hs (engineLegal_mask hl)]
      refine (sampleTick_spec mask tx rx s).mono (fun _ t ht => ?_) (fun _ _ ht => ht.inv)
      obtain ⟨-, -, hc, b, hb⟩ := ht
      split at hb
      · exact ⟨by rw [hb.1]; rfl, fun hn => absurd hb.1 hn, fun _ => by rw [hc, hb.1]; rfl⟩
      · rename_i h1
        exact ⟨hb.1 ▸ engineLegal_sample b hl h1, fun _ => hb.2.trans hr, fun _ => by rw [hc, hb.1]; rfl⟩

theorem send_inv {s t : State} {b : Byte} (h : LinkInv s) (ht : send b s = some t) : LinkInv t := by
  cases hs : s.se with
  | idle =>
    rw [send_idle b hs] at ht
    obtain rfl := Option.some.inj ht
    exact ⟨by simp only [engineLegal]; decide, fun _ => rfl, fun hp => by simpa [hs, engineClock] using h.clock hp⟩
  | xfer p m x r => simp [send_xfer b (by simp [hs] : s.se ≠ .idle)] at ht

theorem read_inv {s t : State} {v : Byte} (h : LinkInv s) (ht : read s = .byte v t) : LinkInv t := by
  unfold read at ht
  split at ht
  · cases ht
  · split at ht
    · cases ht
      exact ⟨h.legal, fun _ => rfl, h.clock⟩
    · cases ht

theorem submit_inv (n : Nat) (b : Byte) {s : State} (h : LinkInv s) (hn : ticksLeft s.se ≤ n) :
    (submit n b s).Sat (fun _ t => LinkInv t)
      (fun e t => e = .transportError ∧ t.faulted = s.faulted ∧ LinkInv t) := by
  induction n generalizing s with
  | zero =>
    cases hs : s.se with
    | idle =>
      rw [submit]
      cases hq : send b s with
      | some t => exact send_inv h hq
      | none => simp [send_idle b hs] at hq
    | xfer p m x r =>
      have := ticksLeft_pos p m x r
      rw [hs] at hn
      omega
  | succ n ih =>
    rw [submit]
    cases hq : send b s with
    | some t => exact send_inv h hq
    | none =>
      have hx : s.se ≠ .idle := fun hs => by simp [send_idle b hs] at hq
      refine Res.Sat.bind (P := fun _ t => LinkInv t ∧ Ticked s t) ?_ fun _ t ht => ?_
      · have h1 := tick_inv h
        have h2 := tick_spec s
        cases hk : tick s with
        | ok a t => rw [hk] at h1 h2; exact ⟨h1, h2⟩
        | stop e t => rw [hk] at h1; exact h1
      · have := ht.2.advances hx
        exact (ih ht.1 (by omega)).mono (fun _ _ k => k) (fun _ _ k => ⟨k.1, k.2.1.trans ht.2.faulted, k.2.2⟩)

theorem collect_inv (n : Nat) {s : State} (h : LinkInv s) (hn : ticksLeft s.se ≤ n) (hp : s.se = .idle → s.rxp.isSome ∧ s.sck = true) :
    (collect n s).Sat (fun _ t => LinkInv t)
      (fun e t => e = .transportError ∧ t.faulted = s.faulted ∧ LinkInv t) := by
  induction n generalizing s with
  | zero =>
    cases hs : s.se with
    | idle =>
      obtain ⟨v, hv⟩ := Option.isSome_iff_exists.mp (hp hs).1
      rw [collect]
      have hq := read_published hs hv
      rw [hq]
      exact read_inv h hq
    | xfer p m x r =>
      have := ticksLeft_pos p m x r
      rw [hs] at hn
      omega
  | succ n ih =>
    rw [collect]
    cases hs : s.se with
    | idle =>
      obtain ⟨v, hv⟩ := Option.isSome_iff_exists.mp (hp hs).1
      have hq := read_published hs hv
      rw [hq]
      exact read_inv h hq
    | xfer p m x r =>
      have hx : s.se ≠ .idle := by simp [hs]
      rw [read_xfer hx]
      refine Res.Sat.bind (P := fun _ t => LinkInv t ∧ Ticked s t) ?_ fun _ t ht => ?_
      · have h1 := tick_inv h
        have h2 := tick_spec s
        cases hk : tick s with
        | ok a t => rw [hk] at h1 h2; exact ⟨h1, h2⟩
        | stop e t => rw [hk] at h1; exact h1
      · have := ht.2.advances hx
        exact (ih ht.1 (by omega) (ht.2.publishes hx)).mono (fun _ _ k => k)
          (fun _ _ k => ⟨k.1, k.2.1.trans ht.2.faulted, k.2.2⟩)

/-- A byte exchange keeps the engine's invariant, and only the line layer can stop it (R140, R336). -/
theorem xferByte_inv (b : Byte) {s : State} (h : LinkInv s) :
    (xferByte b s).Sat (fun _ t => LinkInv t ∧ t.faulted = s.faulted)
      (fun e t => e = .transportError ∧ t.faulted = s.faulted ∧ LinkInv t) := by
  have h1 := submit_inv 16 b h (ticksLeft_le _)
  have h2 := submit_spec 16 b s (ticksLeft_le _)
  unfold xferByte
  cases hq : submit 16 b s with
  | stop e t => rw [hq] at h1; exact h1
  | ok a t =>
    rw [hq] at h1 h2
    have k1 := collect_inv 16 h1 (ticksLeft_le _) (by simp [h2.2.2.1])
    have k2 := collect_spec 16 t (ticksLeft_le _) (by simp [h2.2.2.1])
    rw [Res.bind_ok]
    cases hc : collect 16 t with
    | ok v u => rw [hc] at k1 k2; exact ⟨k1, k2.2.1.trans h2.2.1⟩
    | stop e u => rw [hc] at k1; exact ⟨k1.1, k1.2.1.trans h2.2.1, k1.2.2⟩

/-- A synchronous transfer keeps the engine's invariant, and its only error is the line layer's (R140, R336). -/
theorem xfer_inv (bytes : List Byte) {s : State} (h : LinkInv s) :
    LinkInv (xfer bytes s).state ∧ (xfer bytes s).state.faulted = s.faulted ∧
      ((xfer bytes s).error = none ∨ (xfer bytes s).error = some .transportError) := by
  induction bytes generalizing s with
  | nil => exact ⟨h, rfl, .inl rfl⟩
  | cons b rest ih =>
    have hb := xferByte_inv b h
    rw [xfer]
    cases hx : xferByte b s with
    | stop e t =>
      rw [hx] at hb
      obtain ⟨rfl, hf, hl⟩ := hb
      exact ⟨hl, hf, .inr rfl⟩
    | ok v t =>
      rw [hx] at hb
      obtain ⟨h1, h2, h3⟩ := ih hb.1
      exact ⟨h1, h2.trans hb.2, h3⟩

end Sys2Proof.Machine
end

