-- ==== Sys2Proof/Laws/PerInstr.lean ====
section
/-! SUPPORT. For every instruction: its encoding carries the match bits of its row of spec/opcode_table.json (R93, R100).
The family's statement is about the instruction as syntax, one lemma for each constructor. -/

namespace Sys2Proof.Laws.TableRow

/-- The width, the mask and the match of an instruction's row, as spec/opcode_table.json writes them. -/
def row : Instr → Nat × Nat × Nat
  | .seSend _ => (32, 0xFFFF00FF, 0x00000000)
  | .seTick => (32, 0xFFFFFFFF, 0x00000001)
  | .seRead => (32, 0xFFFFFFFF, 0x00000002)
  | .ckNew _ => (32, 0xFFFFFFCF, 0x00000003)
  | .ckFeed _ => (32, 0xFFFF00FF, 0x00000004)
  | .ckResult => (32, 0xFFFFFFFF, 0x00000005)
  | .seXfer _ => (32, 0xFFF0FFFF, 0x00000006)
  | .frRaw _ => (32, 0xFFF0FFFF, 0x00000007)
  | .frRead _ _ => (32, 0xFFF000FF, 0x00000008)
  | .frWrite _ _ => (32, 0xFFF000FF, 0x00000009)
  | .frSetMode _ => (32, 0xFFFFFFCF, 0x0000000A)
  | .frGetMode => (32, 0xFFFFFFFF, 0x0000000B)
  | .bufWr _ _ => (32, 0xFFF000FF, 0x0000000C)
  | .bufRd _ => (32, 0xFFF0FFFF, 0x0000000D)
  | .wireReadAddr _ => (8, 0x40, 0x40)
  | .wireWriteAddr _ => (8, 0x00, 0x00)

/-- The width and the bits of a delivery. -/
def bits : Code → Nat × Nat
  | .command w => (32, w.toNat)
  | .address b => (8, b.toNat)

/-- A well-formed instruction's encoding has its row's width and its row's fixed bits. -/
def Statement (i : Instr) : Prop :=
  i.wf = true → (bits (encode i)).1 = (row i).1 ∧ (bits (encode i)).2 &&& (row i).2.1 = (row i).2.2

theorem seSend (byte : Byte) : Statement (.seSend byte) := by
  unfold Statement; revert byte; decide +kernel

theorem seTick : Statement .seTick := by unfold Statement; decide

theorem seRead : Statement .seRead := by unfold Statement; decide

theorem ckNew (mode : ChecksumMode) : Statement (.ckNew mode) := by
  unfold Statement; cases mode <;> decide

theorem ckFeed (byte : Byte) : Statement (.ckFeed byte) := by
  unfold Statement; revert byte; decide +kernel

theorem ckResult : Statement .ckResult := by unfold Statement; decide

theorem seXfer (len : BitVec 4) : Statement (.seXfer len) := by
  unfold Statement; revert len; decide +kernel

theorem frRaw (len : BitVec 4) : Statement (.frRaw len) := by
  unfold Statement; revert len; decide +kernel

theorem frRead (addr : Byte) (len : BitVec 4) : Statement (.frRead addr len) := by
  unfold Statement; revert addr len; decide +kernel

theorem frWrite (addr : Byte) (len : BitVec 4) : Statement (.frWrite addr len) := by
  unfold Statement; revert addr len; decide +kernel

theorem frSetMode (mode : ChecksumMode) : Statement (.frSetMode mode) := by
  unfold Statement; cases mode <;> decide

theorem frGetMode : Statement .frGetMode := by unfold Statement; decide

theorem bufWr (idx : BitVec 4) (byte : Byte) : Statement (.bufWr idx byte) := by
  unfold Statement; revert idx byte; decide +kernel

theorem bufRd (idx : BitVec 4) : Statement (.bufRd idx) := by
  unfold Statement; revert idx; decide +kernel

theorem wireReadAddr (addr : Byte) : Statement (.wireReadAddr addr) := by
  unfold Statement; revert addr; decide +kernel

theorem wireWriteAddr (addr : Byte) : Statement (.wireWriteAddr addr) := by
  unfold Statement; revert addr; decide +kernel

end Sys2Proof.Laws.TableRow
end

