-- ==== Sys2Proof/Tests/Slice0.lean ====
section
/-! SUPPORT. The model's own tests. Expected values are those of spec/95_test_vectors.md (its name is in the theorem's
docstring), of a rule's worked example, or words written out from R93 and R100. Then, for every statement with hypotheses, a
witness: a concrete state and operands that meet them. -/

namespace Sys2Proof.Tests

open Sys2Proof.Machine

-- One proof after another: as one text, the package would start a thread with its stack for every proof below.
set_option Elab.async false

/-! ## Helpers -/

/-- The peer's script from bytes, most significant bit first (R36). -/
def scripted (bytes : List Byte) : State := { State.reset with miso := bytes.flatMap byteBits }

/-- The state after one instruction. -/
def after (i : Instr) (s : State) : State := (nextOf (exec i s)).getD State.reset

/-- The result code of one instruction; none where it has no next state. -/
def codeOf (i : Instr) (s : State) : Option ResultCode := (nextOf (exec i s)).map (·.rspCode)

/-- The bytes of a list over the frame buffer after reset. -/
def buffered (bytes : List Byte) (s : State) : State := { s with buf := overlay bytes s.buf }

/-- One byte in flight. -/
def inFlight (phase : Bool) (mask tx rx : Byte) (s : State) : State := { s with se := .xfer phase mask tx rx }

theorem next_of_codeOf {i : Instr} {s : State} {c : ResultCode} (h : codeOf i s = some c) :
    ∃ t, exec i s = .next t ∧ t.rspCode = c := by
  unfold codeOf at h
  cases he : exec i s with
  | next t => rw [he] at h; exact ⟨t, rfl, Option.some.inj h⟩
  | fault f => exact nomatch f
  | refused r => rw [he] at h; cases h

theorem exec_next (i : Instr) (s : State) : ∃ t, exec i s = .next t := by
  rcases exec_cases i with ⟨-, legal, rule, h⟩ | ⟨-, h⟩
  · rw [h]; exact command_next legal rule s
  · exact ⟨s, h s⟩

theorem quiet_of_noDraws {s : State} (h : s.lineDraws = []) : Quiet s := .inr (by simp [h])

/-! ## Well-formedness: one ill-formed term for each check -/

theorem test_wf_seXfer_zero : (Instr.seXfer 0).wf = false := by decide
theorem test_wf_frRaw_zero : (Instr.frRaw 0).wf = false := by decide
theorem test_wf_frRead_zero : (Instr.frRead 0x04 0).wf = false := by decide
theorem test_wf_frWrite_zero : (Instr.frWrite 0x04 0).wf = false := by decide
theorem test_wf_bufWr_index15 : (Instr.bufWr 15 0xAA).wf = false := by decide
theorem test_wf_bufRd_index15 : (Instr.bufRd 15).wf = false := by decide
theorem test_wf_wireReadAddr_readBit : (Instr.wireReadAddr 0x47).wf = false := by decide
theorem test_wf_wireWriteAddr_readBit : (Instr.wireWriteAddr 0x42).wf = false := by decide

/-! ## Decoding: a word of every row, written out from R93 and R100, as the table numbers its bits -/

theorem test_decode_seSend :
    decodeTableWord 32 0b0000_0000_0000_0000_1010_0101_0000_0000 = some (.seSend 0xA5) := by decide
theorem test_decode_seTick : decodeTableWord 32 0b0000_0000_0000_0000_0000_0000_0000_0001 = some .seTick := by decide
theorem test_decode_seRead : decodeTableWord 32 0b0000_0000_0000_0000_0000_0000_0000_0010 = some .seRead := by decide
theorem test_decode_ckNew : decodeTableWord 32 0b0000_0000_0000_0000_0000_0000_0010_0011 = some (.ckNew .crc) := by decide
theorem test_decode_ckFeed :
    decodeTableWord 32 0b0000_0000_0000_0000_0101_0101_0000_0100 = some (.ckFeed 0x55) := by decide
theorem test_decode_ckResult : decodeTableWord 32 0b0000_0000_0000_0000_0000_0000_0000_0101 = some .ckResult := by decide
theorem test_decode_seXfer : decodeTableWord 32 0b0000_0000_0000_1111_0000_0000_0000_0110 = some (.seXfer 15) := by decide
theorem test_decode_frRaw : decodeTableWord 32 0b0000_0000_0000_1000_0000_0000_0000_0111 = some (.frRaw 8) := by decide
theorem test_decode_frRead :
    decodeTableWord 32 0b0000_0000_0000_0011_0000_0100_0000_1000 = some (.frRead 0x04 3) := by decide
theorem test_decode_frWrite :
    decodeTableWord 32 0b0000_0000_0000_0010_1000_0011_0000_1001 = some (.frWrite 0x83 2) := by decide
theorem test_decode_frSetMode :
    decodeTableWord 32 0b0000_0000_0000_0000_0000_0000_0001_1010 = some (.frSetMode .xor) := by decide
theorem test_decode_frGetMode :
    decodeTableWord 32 0b0000_0000_0000_0000_0000_0000_0000_1011 = some .frGetMode := by decide
theorem test_decode_bufWr :
    decodeTableWord 32 0b0000_0000_0000_1110_0101_1010_0000_1100 = some (.bufWr 14 0x5A) := by decide
theorem test_decode_bufRd : decodeTableWord 32 0b0000_0000_0000_1110_0000_0000_0000_1101 = some (.bufRd 14) := by decide
theorem test_decode_wireReadAddr : decodeTableWord 8 0b0110_0010 = some (.wireReadAddr 0x22) := by decide
theorem test_decode_wireWriteAddr : decodeTableWord 8 0b1000_0011 = some (.wireWriteAddr 0x83) := by decide

/-- V-DEC-1 to V-DEC-18: the words refused, each by name. -/
theorem test_decode_illegal :
    [0x0000000E, 0x0000000F].map decodeCommand = List.replicate 2 (.error .reservedOp) ∧
    [0x00100001, 0x80000000, 0x00000041].map decodeCommand = List.replicate 3 (.error .reservedBits) ∧
    [0x00000033, 0x0000003A].map decodeCommand = List.replicate 2 (.error .reservedMode) ∧
    [0x00000006, 0x00000007, 0x00000008, 0x00000009].map decodeCommand = List.replicate 4 (.error .zeroLength) ∧
    [0x000F000C, 0x000F000D].map decodeCommand = List.replicate 2 (.error .badIndex) ∧
    [0x00000101, 0x00010001, 0x00000113, 0x00000014, 0x00000107].map decodeCommand =
      List.replicate 5 (.error .unusedField) := by decide

/-! ## Instructions -/

/-- V-SE-3. -/
theorem test_seSend_begins :
    (after (.seSend 0xA5) State.reset).se = .xfer false 0x80 0xA5 0x00 ∧ (after (.seSend 0xA5) State.reset).evt = [] := by
  decide

/-- V-SE-4. -/
theorem test_seSend_blocks : codeOf (.seSend 0x11) (inFlight false 0x80 0xA5 0 State.reset) = some .wouldBlock := by
  decide

/-- V-SE-6. -/
theorem test_seTick_setup :
    (after .seTick (inFlight false 0x80 0xA5 0 State.reset)).evt = [.drive .mosi true, .drive .sck false] ∧
    (after .seTick (inFlight false 0x80 0xA5 0 State.reset)).se = .xfer true 0x80 0xA5 0x00 := by decide

/-- V-SE-15, its tick: an impossible mask. -/
theorem test_seTick_invariantFault :
    codeOf .seTick (inFlight false 0x03 0x01 0 State.reset) = some .invariantFault ∧
    (after .seTick (inFlight false 0x03 0x01 0 State.reset)).faulted = true := by decide

/-- V-SE-1. -/
theorem test_seRead_exhausted : codeOf .seRead State.reset = some .exhausted := by decide

/-- V-SE-10, its first read. -/
theorem test_seRead_once : (after .seRead { State.reset with rxp := some 0x3C }).rspData = some 0x3C ∧
    (after .seRead { State.reset with rxp := some 0x3C }).rxp = none := by decide

/-- V-CK-1: a fresh accumulator, whatever the one before held. -/
theorem test_ckNew_zeroes : (after (.ckNew .crc) { State.reset with ckState := 0xAC }).ckState = 0x00 := by decide

/-- V-CK-6 (W1). -/
theorem test_ckFeed_crc : (after (.ckFeed 0x55) { State.reset with ckMode := .crc }).ckState = 0xAC := by decide

/-- V-CK-18, its second feed. -/
theorem test_ckFeed_crc_next : (after (.ckFeed 0x12) { State.reset with ckMode := .crc, ckState := 0xAC }).ckState = 0x33 := by
  decide

/-- V-CK-31. -/
theorem test_ckResult_off : (after .ckResult State.reset).rspData = none ∧ codeOf .ckResult State.reset = some .ok := by
  decide

/-- V-CK-22. -/
theorem test_ckResult_xor : (after .ckResult { State.reset with ckMode := .xor }).rspData = some 0x00 := by decide

/-- V-SE-13. -/
theorem test_seXfer_exchanges :
    let t := after (.seXfer 2) (buffered [0xAB, 0xCD] (scripted [0x12, 0x34]))
    t.buf.toList.take 3 = [0x12, 0x34, 0x00] ∧ mosiBits t.evt = [0xAB, 0xCD].flatMap byteBits ∧ t.evt.length = 64 := by
  decide

/-- V-SE-16: five bits of a byte in flight go out inside the window, then the frame. -/
theorem test_frRaw_afterByteInFlight :
    let t := after (.frRaw 1) (buffered [0x55] (inFlight false 0x10 0x0F 0xE0 (scripted [0xFF, 0xFF])))
    t.buf.toList.take 1 = [0xFF] ∧ mosiBits t.evt =
      [false, true, true, true, true, false, true, false, true, false, true, false, true] := by decide

/-- V-FR-14. -/
theorem test_frRaw_resetPattern :
    let t := after (.frRaw 8) (buffered (List.replicate 8 0xFF) (scripted (List.replicate 8 0x00)))
    t.evt.length = 258 ∧ mosiBits t.evt = List.replicate 64 true ∧ t.buf = State.reset.buf := by decide +kernel

/-- V-FR-3. -/
theorem test_frRead_crc :
    let t := after (.frRead 0x00 1) { scripted [0x00, 0x80, 0xD2] with curMode := .crc }
    t.rspCode = .ok ∧ t.buf.toList.take 1 = [0x80] ∧ t.ckState = 0xD2 ∧ t.evt.length = 98 := by decide +kernel

/-- V-FR-6. -/
theorem test_frRead_xorMismatch :
    let t := after (.frRead 0x04 3) { scripted [0x00, 0x12, 0x35, 0x56, 0x34] with curMode := .xor }
    responseOf t = ⟨.checksumMismatch, none, some 0x35, some 0x34⟩ ∧ t.buf.toList.take 3 = [0x12, 0x35, 0x56] ∧
      t.csN = true := by decide +kernel

/-- V-FR-11 (W7): the trailer is the CRC although the mode is XOR. -/
theorem test_frWrite_forcesCrc :
    let t := after (.frWrite 0x02 2) { buffered [0x00, 0x08] (scripted [0, 0, 0, 0]) with curMode := .xor }
    mosiBits t.evt = [0x02, 0x00, 0x08, 0xEE].flatMap byteBits ∧ t.ckMode = .crc ∧ t.ckState = 0xEE ∧
      t.buf.toList.take 2 = [0x00, 0x08] := by decide +kernel

/-- V-FR-20: the address is not masked. -/
theorem test_frWrite_addressUnchanged :
    mosiBits (after (.frWrite 0x42 1) (scripted [0, 0])).evt = [0x42, 0x00].flatMap byteBits := by decide +kernel

/-- V-FR-16, its first command. -/
theorem test_frSetMode_crc : (after (.frSetMode .crc) State.reset).curMode = .crc ∧
    (after (.frSetMode .crc) State.reset).ckMode = .off := by decide

/-- V-FR-16, its second command. -/
theorem test_frGetMode_crc : (after .frGetMode { State.reset with curMode := .crc }).rspData = some 0x02 := by decide

/-- V-FR-18, its first command. -/
theorem test_bufWr_last : (after (.bufWr 14 0x5A) State.reset).buf.toList = List.replicate 14 0x00 ++ [0x5A] := by
  decide

/-- V-FR-18, its second command. -/
theorem test_bufRd_last :
    (after (.bufRd 14) (buffered (List.replicate 14 0x11 ++ [0x5A]) State.reset)).rspData = some 0x5A := by decide

/-- W8: what a read of SetupCon[2] begins with is the row's byte, and the row by itself drives nothing (R61, R348). -/
theorem test_wireReadAddr_byte :
    encode (.wireReadAddr 0x22) = .address 0x62 ∧ readAddress 0x22 = 0x62 ∧
    after (.wireReadAddr 0x22) (scripted [0xFF]) = scripted [0xFF] := by decide

/-- W8: what a write of SetupCon[2] begins with. -/
theorem test_wireWriteAddr_byte :
    encode (.wireWriteAddr 0x22) = .address 0x22 ∧ writeAddress 0x22 = 0x22 ∧
    after (.wireWriteAddr 0x22) (scripted [0xFF]) = scripted [0xFF] := by decide

/-- V-FR-22: where lines can fail, a failing first drive. -/
theorem test_transportError (h : Config.pLineFault = true) :
    codeOf (.frRead 0x00 1) { State.reset with lineDraws := [some ⟨false, .idle none, false⟩] } = some .transportError := by
  simp [codeOf, nextOf, exec, execFrRead, command, lenLegal, readTransaction, drive, lineFailure, ckFeed, ckNew,
    clearResponses, State.reset, h, answer, Res.bind]

/-- A run whose lines can fail (R397): the draw for the first drive of its one frame. -/
theorem test_run_lineFails (h : Config.pLineFault = true) :
    (run [0x00010008] [] [some ⟨false, .idle none, false⟩]).responses.map (·.code) = [.transportError] := by
  have hd : decode (.command 0x00010008) = .ok (.frRead 0x00 1) := by decide
  rw [run, runAll, accept, hd]
  simp [runAll, exec, execFrRead, command, lenLegal, readTransaction, drive, lineFailure, ckFeed, ckNew, clearResponses,
    State.reset, h, answer, Res.bind, responseOf]

/-- V-EX-1: the fault comes before the decoder. -/
theorem test_faulted_beforeIllegal :
    (nextOf (accept (.command 0x0000000E) { State.reset with faulted := true })).map (·.rspCode) = some .invariantFault := by
  decide

/-- V-DEC-1 with a transfer in progress: the transfer stays as it was. -/
theorem test_illegal_keepsTransfer :
    (nextOf (accept (.command 0x0000000E) (inFlight true 0x20 0xA5 0x80 State.reset))).map (fun t => (t.se, t.rspCode)) =
      some (.xfer true 0x20 0xA5 0x80, .illegalCommand) := by decide

/-- A word placed where step fetches is the next one run (R240). -/
theorem test_step_runsTheWord :
    (nextOf (step (State.reset.withFetchWord 32 0x0000A500))).map (·.se) = some (.xfer false 0x80 0xA5 0x00) := by
  decide

/-- W4. -/
theorem test_codec_workedExamples :
    bytesOfData 0x123456 = [0x12, 0x34, 0x56] ∧ dataOfBytes 0x12 0x34 0x56 = 0x123456 ∧
    wordOfBytes 0x00 0xD4 = 0x00D4 ∧ encodeStatus 0 ⟨false, true, false, false, 3⟩ = 0xC3 ∧
    decodeStatus 0x00 = ⟨true, false, false, false, 0⟩ ∧ setIfMode .crc 0x01 = 0x09 ∧ ifModeOf 0x09 = some .crc := by
  decide

/-- W8. -/
theorem test_peerAddress_indexed : peerAddress (.setupCon 2) = 0x22 ∧ indexedAddress (filtconBase .base28) 3 = 0x2B ∧
    indexedAddress (filtconBase .base80) 3 = 0x83 := by decide

/-- G9's layout (informative): CH_EN is bit 15, SETUP_SEL 13:12, AINPOS 9:5, AINNEG 4:0. -/
theorem test_codec_channel :
    encodeChannel {} ⟨true, 3, 0x02, 0x1F⟩ 0x4C00 = 0xFC5F ∧ decodeChannel {} 0xB05F = ⟨true, 3, 0x02, 0x1F⟩ := by decide

/-! ## Witnesses: the hypotheses of every statement are met -/

theorem test_witness_DecodeOfEncode :
    (Instr.frRead 0xFF 15).wf = true ∧ (Instr.seXfer 1).wf = true ∧ (Instr.bufWr 14 0xFF).wf = true ∧
    (Instr.wireWriteAddr 0xBF).wf = true := by decide

theorem test_witness_EncodeOfDecode :
    decode (.command 0x000FFF08) = .ok (.frRead 0xFF 15) ∧ decode (.address 0xFF) = .ok (.wireReadAddr 0xBF) := by decide

theorem test_witness_IllegalWordsChangeOnlyResponses :
    wordIllegal 0x000F000C = true ∧ wordIllegal 0x000E000C = false ∧ wordIllegal 0x00000007 = true ∧
    wordIllegal 0x00010007 = false := by decide

theorem test_witness_AddressByteBits : (readAddress 0x80).getLsbD 7 = true ∧ (readAddress 0x80).getLsbD 6 = true ∧
    (readAddress 0x80).getLsbD 0 = false := by decide

theorem test_witness_StepRunsDecodedInstruction :
    (State.reset.withFetchWord 32 0x00030408).input = Stimulus.ofCode (.command 0x00030408) :: [] ∧
    decode (.command 0x00030408) = .ok (.frRead 0x04 3) := by decide

theorem test_witness_StepTakesResetOrWaits :
    ({ State.reset with input := [.reset] } : State).input = .reset :: [] ∧ State.reset.input = [] := by decide

theorem test_witness_ResetValues :
    ∃ t, step { inFlight true 0x01 0xFF 0xFE State.reset with input := [.reset] } = .next t := ⟨_, rfl⟩

theorem test_witness_FaultedBlockAnswersOnlyFault :
    ({ State.reset with faulted := true } : State).faulted = true ∧
    ∃ t, receive .reset { State.reset with faulted := true } = .next t := ⟨rfl, _, rfl⟩

theorem test_witness_IllegalOperandIsRefused :
    State.reset.faulted = false ∧ codeOf (.seXfer 0) State.reset = some .illegalCommand ∧
    codeOf (.frRaw 0) State.reset = some .illegalCommand ∧ codeOf (.frRead 0xFF 0) State.reset = some .illegalCommand ∧
    codeOf (.frWrite 0xFF 0) State.reset = some .illegalCommand ∧ codeOf (.bufWr 15 0) State.reset = some .illegalCommand ∧
    codeOf (.bufRd 15) State.reset = some .illegalCommand := by
  decide

theorem test_witness_ResponsesGoWithTheCode :
    commands .seRead = true ∧ ∃ t, exec .seRead State.reset = .next t ∧ t.rspCode = .exhausted :=
  ⟨rfl, next_of_codeOf (by decide)⟩

theorem test_witness_SeSendStartsOrBlocks :
    State.reset.faulted = false ∧ State.reset.se = .idle ∧
    (inFlight true 0x01 0xFF 0xFE State.reset).faulted = false ∧ (inFlight true 0x01 0xFF 0xFE State.reset).se ≠ .idle := by
  decide

theorem test_witness_SeTickHalfPhases :
    Quiet State.reset ∧ State.reset.faulted = false ∧ State.reset.se = .idle ∧ maskLegal 0x80 = true ∧ maskLegal 0x01 = true ∧
    maskLegal 0x00 = false ∧ maskLegal 0x03 = false ∧ Quiet (inFlight false 0x80 0xA5 0 State.reset) ∧
    (inFlight false 0x80 0xA5 0 State.reset).se = .xfer false 0x80 0xA5 0 ∧ Quiet (inFlight true 0x01 0xA5 0xFE State.reset) ∧
    (inFlight true 0x01 0xA5 0xFE State.reset).se = .xfer true 0x01 0xA5 0xFE ∧ Quiet (inFlight true 0x00 1 0 State.reset) :=
  ⟨quiet_of_noDraws rfl, rfl, rfl, rfl, rfl, rfl, rfl, quiet_of_noDraws rfl, rfl, quiet_of_noDraws rfl, rfl,
    quiet_of_noDraws rfl⟩

theorem test_witness_SeReadThreeOutcomes :
    (inFlight false 0x80 0 0 State.reset).se ≠ .idle ∧ (inFlight false 0x80 0 0 State.reset).faulted = false ∧
    ({ State.reset with rxp := some 0xFF } : State).se = .idle ∧ ({ State.reset with rxp := some 0xFF } : State).faulted = false ∧
    State.reset.se = .idle ∧ State.reset.rxp = none := by decide

/-- What the statements about a whole transfer ask of the state: no fault, no failing line, an idle engine. -/
theorem test_witness_transferFromIdle : (15 : BitVec 4) ≠ 0 ∧ (1 : BitVec 4) ≠ 0 ∧
    State.reset.faulted = false ∧ Quiet State.reset ∧ State.reset.se = .idle :=
  ⟨by decide, by decide, rfl, quiet_of_noDraws rfl, rfl⟩

theorem test_witness_SixteenTicksMoveOneByte :
    (scripted [0x3C]).faulted = false ∧ Quiet (scripted [0x3C]) ∧ (scripted [0x3C]).se = .idle ∧
    peerByte (scripted [0x3C]) = 0x3C := ⟨rfl, quiet_of_noDraws rfl, rfl, by decide⟩

theorem test_witness_SeXferExchangesBuffer :
    (15 : BitVec 4) ≠ 0 ∧ (scripted [0x12]).faulted = false ∧ Quiet (scripted [0x12]) ∧ (scripted [0x12]).se = .idle :=
  ⟨by decide, rfl, quiet_of_noDraws rfl, rfl⟩

theorem test_witness_TransferFirstClocksOutByteInFlight :
    (1 : BitVec 4) ≠ 0 ∧ (inFlight false 0x80 0x0F 0 State.reset).faulted = false ∧
    Quiet (inFlight false 0x80 0x0F 0 State.reset) ∧ engineLegal (inFlight false 0x80 0x0F 0 State.reset).se = true ∧
    frames (.frRead 0x00 1) = true ∧ (Instr.frRead 0x00 1).wf = true ∧
    (∃ t, exec (.frRead 0x00 1) (inFlight false 0x80 0x0F 0 State.reset) = .next t) ∧
    ∃ u, exec (.frRead 0x00 1) (execTicks 16 (inFlight false 0x80 0x0F 0 State.reset)) = .next u :=
  ⟨by decide, rfl, quiet_of_noDraws rfl, by decide, rfl, rfl, exec_next _ _, exec_next _ _⟩

theorem test_witness_TransfersNeverReportBlocking :
    transfers (.frRead 0 1) = true ∧ ∃ t, exec (.frRead 0 1) (inFlight true 0x01 0 0 State.reset) = .next t :=
  ⟨rfl, exec_next _ _⟩

theorem test_witness_TransfersEndFromAnyEngineState :
    transfers (.frWrite 0xFF 15) = true ∧ transfers (.frRaw 1) = true ∧
    (inFlight true 0x01 0xFF 0xFE State.reset).faulted = false ∧ Quiet (inFlight true 0x01 0xFF 0xFE State.reset) ∧
    engineLegal (inFlight true 0x01 0xFF 0xFE State.reset).se = true ∧ engineLegal State.reset.se = true :=
  ⟨rfl, rfl, rfl, quiet_of_noDraws rfl, by decide, rfl⟩

theorem test_witness_checksumCommands :
    State.reset.faulted = false ∧ ({ State.reset with ckMode := .crc, ckState := 0xFF } : State).faulted = false := ⟨rfl, rfl⟩

theorem test_witness_HostFeedsAListOfBytes : State.reset.faulted = false := rfl

theorem test_witness_FrReadTransaction :
    (15 : BitVec 4) ≠ 0 ∧ (scripted [0, 0x80]).faulted = false ∧ Quiet (scripted [0, 0x80]) ∧ (scripted [0, 0x80]).se = .idle ∧
    windowBytes [0x40, 0x00] (scripted [0, 0x80]) = [0x00, 0x80] :=
  ⟨by decide, rfl, quiet_of_noDraws rfl, rfl, by decide⟩

theorem test_witness_FrWriteTransaction :
    let s := { scripted [0, 0, 0] with curMode := ChecksumMode.xor }
    (1 : BitVec 4) ≠ 0 ∧ s.faulted = false ∧ Quiet s ∧ s.se = .idle ∧ trailerOf .crc [0x02, 0x00, 0x08] = some 0xEE :=
  ⟨by decide, rfl, quiet_of_noDraws rfl, rfl, by decide +kernel⟩

theorem test_witness_WireRowsNameTheFirstByteOfFrames :
    ∃ t u, exec (.frRead 0xC5 1) State.reset = .next t ∧ exec (.frWrite 0xC5 1) State.reset = .next u := by
  obtain ⟨t, ht⟩ := exec_next (.frRead 0xC5 1) State.reset
  obtain ⟨u, hu⟩ := exec_next (.frWrite 0xC5 1) State.reset
  exact ⟨t, u, ht, hu⟩

theorem test_witness_LineEventCounts :
    clocks .seRead = false ∧ clocks (.wireReadAddr 0) = false ∧ (∃ t, exec .seRead State.reset = .next t) ∧
    engineLegal State.reset.se = true ∧ engineLegal (inFlight true 0x01 0xFF 0xFE State.reset).se = true ∧
    Quiet (inFlight true 0x01 0xFF 0xFE State.reset) ∧ (inFlight true 0x01 0xFF 0xFE State.reset).faulted = false :=
  ⟨rfl, rfl, exec_next _ _, rfl, by decide, quiet_of_noDraws rfl, rfl⟩

theorem test_witness_FrameBytesOnTheLink : ∃ t u v, exec (.frRead 0x00 1) State.reset = .next t ∧
    exec (.frWrite 0x00 1) State.reset = .next u ∧ exec (.frRaw 1) State.reset = .next v := by
  obtain ⟨t, ht⟩ := exec_next (.frRead 0x00 1) State.reset
  obtain ⟨u, hu⟩ := exec_next (.frWrite 0x00 1) State.reset
  obtain ⟨v, hv⟩ := exec_next (.frRaw 1) State.reset
  exact ⟨t, u, v, ht, hu, hv⟩

theorem test_witness_WriteChecksumIsForcedToCrc (m : ChecksumMode) :
    ({ State.reset with curMode := m } : State).faulted = false ∧ ∃ t u,
      exec (.frRead 0x02 15) { State.reset with curMode := m } = .next t ∧
      exec (.frWrite 0x02 15) { State.reset with curMode := m } = .next u := by
  obtain ⟨t, ht⟩ := exec_next (.frRead 0x02 15) { State.reset with curMode := m }
  obtain ⟨u, hu⟩ := exec_next (.frWrite 0x02 15) { State.reset with curMode := m }
  exact ⟨rfl, t, u, ht, hu⟩

theorem test_witness_FramesAreOneChipSelectWindow :
    frames (.frRaw 1) = true ∧ (∃ t, exec (.frRaw 1) (scripted [0xFF]) = .next t ∧ t.rspCode = .ok) ∧
    frames (.seXfer 1) = false ∧ ∃ t, exec (.seXfer 1) (scripted [0xFF]) = .next t ∧ t.rspCode = .ok :=
  ⟨rfl, next_of_codeOf (by decide), rfl, next_of_codeOf (by decide +kernel)⟩

theorem test_witness_MismatchHasTwoDifferentChecksums :
    commands (.frRead 0x00 1) = true ∧
    ∃ t, exec (.frRead 0x00 1) { scripted [0x00, 0x80, 0xD3] with curMode := .crc } = .next t ∧
      t.rspCode = .checksumMismatch := ⟨rfl, next_of_codeOf (by decide +kernel)⟩

theorem test_witness_bufferCommands :
    (14 : BitVec 4) ≠ 15 ∧ (14 : BitVec 4).toNat < 15 ∧ (0 : BitVec 4) ≠ 15 ∧ State.reset.faulted = false := by decide

theorem test_witness_TransportErrorNeedsAFailingLine :
    commands (.frRead 0 1) = true ∧
    ∃ t, exec (.frRead 0 1) { State.reset with lineDraws := [some ⟨false, .idle none, false⟩] } = .next t :=
  ⟨rfl, exec_next _ _⟩

theorem test_witness_FrReadWithFailingChipSelect :
    (15 : BitVec 4) ≠ 0 ∧
    ({ State.reset with lineDraws := [some ⟨true, .xfer 15 0xFF 0xFF, true⟩] } : State).faulted = false ∧
    ({ State.reset with lineDraws := [some ⟨true, .xfer 15 0xFF 0xFF, true⟩] } : State).lineDraws =
      some ⟨true, .xfer 15 0xFF 0xFF, true⟩ :: [] := by decide

theorem test_witness_FailedFramesLeaveBuffer :
    (∃ t, exec (.frRead 0x00 1) (inFlight false 0x03 1 0 State.reset) = .next t ∧ t.rspCode = .invariantFault) ∧
    ∃ t, exec (.frWrite 0x00 15) (inFlight true 0x00 1 0 State.reset) = .next t ∧ t.rspCode = .invariantFault :=
  ⟨next_of_codeOf (by decide), next_of_codeOf (by decide +kernel)⟩

theorem test_witness_OtherCommandsLeaveTheLink :
    clocks (.bufWr 14 0xFF) = false ∧ clocks .seRead = false ∧ (∃ t, exec (.bufWr 14 0xFF) State.reset = .next t) ∧
    ∃ t, exec .seRead State.reset = .next t := ⟨rfl, rfl, exec_next _ _, exec_next _ _⟩

theorem test_witness_OnlyFreshAccumulatorsChangeTheMode :
    freshens (.frRaw 15) = false ∧ freshens (.ckFeed 0xFF) = false ∧ (∃ t, exec (.frRaw 15) State.reset = .next t) ∧
    ∃ t, exec (.ckFeed 0xFF) State.reset = .next t := ⟨rfl, rfl, exec_next _ _, exec_next _ _⟩

theorem test_witness_OnlyFrSetModeWritesCurMode :
    (∀ m, Instr.ckNew .crc ≠ .frSetMode m) ∧ ∃ t, exec (.ckNew .crc) State.reset = .next t := ⟨by simp, exec_next _ _⟩

theorem test_witness_CommandsKeepTheRestOfBuf :
    writesBuf 14 (.frRead 0 14) = false ∧ writesBuf 13 (.frRead 0 14) = true ∧ writesBuf 0 (.bufWr 1 0xFF) = false ∧
    ∃ t, exec (.frRead 0 14) State.reset = .next t := ⟨rfl, rfl, rfl, exec_next _ _⟩

theorem test_witness_EventLogOnlyGrows : ∃ t, exec .seTick (inFlight false 0x80 0 0 State.reset) = .next t := exec_next _ _

/-- The invariant's statements: it holds after reset and with a byte in flight, and such states step. -/
theorem test_witness_EveryStepKeepsInv :
    Inv State.reset ∧ Inv (inFlight true 0x01 0xFF 0xFE { State.reset with sck := false }) ∧
    (∃ t, step State.reset = .next t) ∧
    ∃ t, accept (.command 0x00000001) (inFlight true 0x01 0xFF 0xFE { State.reset with sck := false }) = .next t :=
  ⟨⟨rfl, fun h => absurd rfl h, rfl, fun _ => rfl⟩, ⟨by decide, fun _ => rfl, rfl, fun _ => rfl⟩, ⟨_, rfl⟩, exec_next .seTick _⟩

/-- Values that fit, at both ends of a field and in both layouts of the enabled flag. -/
theorem test_witness_RegisterFieldsRoundTrip :
    (ChannelFields.mk true 3 0x1F 0).fits {} = true ∧ (ChannelFields.mk false 0 0 0x20).fits { en := 7, ainPos := ⟨8, 4⟩ } = false ∧
    (ChannelFields.mk false 3 0x0F 0x1F).fits { en := 7, ainPos := ⟨8, 4⟩ } = true ∧
    (SetupConFields.mk true 3 3).fits {} = true ∧ (FiltConFields.mk true 7 3).fits {} = true := by decide

theorem test_witness_FieldMutatorsChangeOnlyTheirBits :
    (FieldPos.mk 15 1).lo + (FieldPos.mk 15 1).width ≤ 16 ∧ (FieldPos.mk 0 16).lo + (FieldPos.mk 0 16).width ≤ 16 ∧
    getField ⟨15, 1⟩ (setField ⟨15, 1⟩ 1 (0 : BitVec 16)) = 1 := by decide

theorem test_witness_UpdateRegStopsAtFailedRead :
    ∃ t, exec (.frRead 0x10 2) { scripted [0, 0, 0, 0] with curMode := .crc } = .next t ∧ t.rspCode = .checksumMismatch :=
  next_of_codeOf (by decide +kernel)

theorem test_witness_UpdateRegWritesBack :
    (∀ p : List Byte, ((p.map fun b => b ||| 0x80, (0 : Byte)) : List Byte × Byte).1.length = p.length) ∧ (1 : BitVec 4) ≠ 0 ∧
    Quiet (scripted [0, 0x10]) ∧ (scripted [0, 0x10]).faulted = false ∧ (scripted [0, 0x10]).se = .idle ∧
    ∃ t, exec (.frRead 0x00 1) (scripted [0, 0x10]) = .next t ∧ t.rspCode = .ok :=
  ⟨by simp, by decide, quiet_of_noDraws rfl, rfl, rfl, next_of_codeOf (by decide)⟩

theorem test_witness_SetChecksumModeOrder :
    let s := scripted [0, 0x10, 0x01]
    let r := { scripted [0, 0x10, 0x01, 0xFF] with curMode := ChecksumMode.crc }
    (s.faulted = false ∧ Quiet s ∧ s.se = .idle ∧ ∃ t, exec (.frRead 0x02 2) s = .next t ∧ t.rspCode = .ok) ∧
    (r.faulted = false ∧ Quiet r ∧ r.se = .idle ∧ ∃ t, exec (.frRead 0x02 2) r = .next t ∧ t.rspCode = .checksumMismatch) :=
  ⟨⟨rfl, quiet_of_noDraws rfl, rfl, next_of_codeOf (by decide)⟩,
    rfl, quiet_of_noDraws rfl, rfl, next_of_codeOf (by decide +kernel)⟩

/-- W9 and its corners: the identification at the ends of its range and beyond them. -/
theorem test_witness_IdentifyClassifiesPeerId :
    (scripted [0, 0x00, 0xD0]).faulted = false ∧ Quiet (scripted [0, 0x00, 0xD0]) ∧ (scripted [0, 0x00, 0xD0]).se = .idle ∧
    (scripted [0, 0x00, 0xD0]).curMode = .off ∧ classifyId 0x00D0 = .matched 0x00D0 ∧ classifyId 0x00DF = .matched 0x00DF ∧
    classifyId 0x00E0 = .mismatch 0x00E0 ∧ classifyId 0x00CF = .mismatch 0x00CF ∧ classifyId 0x01D0 = .mismatch 0x01D0 :=
  ⟨rfl, quiet_of_noDraws rfl, rfl, rfl, rfl, rfl, rfl, rfl, rfl⟩

theorem test_witness_DevResetSendsSixtyFourOnes :
    State.reset.faulted = false ∧ Quiet State.reset ∧ State.reset.se = .idle := ⟨rfl, quiet_of_noDraws rfl, rfl⟩

theorem test_witness_SetupChannelRefusesBadIndex : 3 < 4 := by decide

end Sys2Proof.Tests
end

section
/-! PROOFS. The statements about the state (spec/10_state.md), from two things that the line layer, the framer's
transactions, every command's rule and so every instruction keep: what a command leaves unchanged (`Kept`), and the
invariant (`Inv`). -/

namespace Sys2Proof.Machine

/-! ## One submission, one read -/

/-- What `send` does where it does not block (R130). -/
theorem send_eq_some {b : Byte} {s t : State} (h : send b s = some t) :
    t = { s with se := .xfer false 0x80 b 0, rxp := none } := by
  cases hs : s.se with
  | idle => rw [send_idle b hs] at h; exact (Option.some.inj h).symm
  | xfer p m x r => rw [send_xfer b (by simp [hs])] at h; cases h

/-- What `read` does where it hands a byte over (R132). -/
theorem read_eq_byte {v : Byte} {s t : State} (h : read s = .byte v t) : t = { s with rxp := none } := by
  unfold read at h
  split at h
  · cases h
  · split at h <;> cases h
    rfl

theorem Res.Sat.and {α : Type} {P P' : α → State → Prop} {Q Q' : ResultCode → State → Prop} {r : Res α}
    (h : r.Sat P Q) (h' : r.Sat P' Q') : r.Sat (fun a t => P a t ∧ P' a t) (fun e t => Q e t ∧ Q' e t) := by
  cases r <;> exact ⟨h, h'⟩

/-- The two ends of a read frame (R242): payload and checksum state are written either way, and a mismatch records both
checksums. -/
theorem verifyRead_cases (m : ChecksumMode) (n : Nat) (frame : List Byte) (s : State) :
    ∃ buf c, verifyRead m n frame s = .ok none { s with buf := buf, ckState := c } ∨
      ∃ expected received, verifyRead m n frame s = .stop .checksumMismatch
        { s with buf := buf, ckState := c, rspExp := expected, rspRcv := received } := by
  simp only [verifyRead, raiseMismatch, bufStore_overlay, ckFeedAll_eq]
  split
  · exact ⟨_, _, .inl rfl⟩
  · exact ⟨_, _, .inr ⟨_, _, rfl⟩⟩

/-! ## What a command's rule keeps -/

/-- What instruction `i`, ending with `code`, keeps of a state: the accumulator (R30), `CUR_MODE` (R31), the host's
stimuli, the events logged (R35) and `FAULTED` (R34, R337), each with the exceptions the rules name. -/
structure Kept (i : Instr) (code : ResultCode) (s t : State) : Prop where
  ckMode : freshens i = false → t.ckMode = s.ckMode
  ckState : freshens i = false → (∀ b, i ≠ .ckFeed b) → t.ckState = s.ckState
  curMode : (∀ m, i ≠ .frSetMode m) → t.curMode = s.curMode
  input : t.input = s.input
  evt : s.evt <+: t.evt
  faulted : t.faulted = s.faulted ∨ code = .invariantFault

/-- What the rule of a command keeps besides: the response registers that the prelude cleared, which it leaves to the
command's end, but for the checksums of a mismatch (R33, R242). -/
structure RuleKept (i : Instr) (code : ResultCode) (s t : State) : Prop extends Kept i code s t where
  rspData : t.rspData = s.rspData
  checksums : code ≠ .checksumMismatch → t.rspExp = s.rspExp ∧ t.rspRcv = s.rspRcv

theorem RuleKept.refl (i : Instr) (code : ResultCode) (s : State) : RuleKept i code s s :=
  ⟨⟨fun _ => rfl, fun _ _ => rfl, fun _ => rfl, rfl, List.prefix_rfl, .inl rfl⟩, rfl, fun _ => ⟨rfl, rfl⟩⟩

theorem RuleKept.trans {i : Instr} {code : ResultCode} {s t u : State} (h : RuleKept i .ok s t)
    (k : RuleKept i code t u) : RuleKept i code s u := by
  have hf : t.faulted = s.faulted := h.faulted.resolve_right (by decide)
  obtain ⟨hExp, hRcv⟩ := h.checksums (by decide)
  exact {
    ckMode := fun hi => (k.ckMode hi).trans (h.ckMode hi)
    ckState := fun hi hb => (k.ckState hi hb).trans (h.ckState hi hb)
    curMode := fun hi => (k.curMode hi).trans (h.curMode hi)
    input := k.input.trans h.input
    evt := h.evt.trans k.evt
    faulted := k.faulted.imp_left (·.trans hf)
    rspData := k.rspData.trans h.rspData
    checksums := fun hc => ⟨(k.checksums hc).1.trans hExp, (k.checksums hc).2.trans hRcv⟩ }

/-- Everything inside the frame of the line operations is kept, whatever the instruction. -/
theorem Framed.ruleKept {i : Instr} {code : ResultCode} {s t : State} (h : Framed s t)
    (hf : t.faulted = s.faulted ∨ code = .invariantFault) : RuleKept i code s t where
  ckMode _ := h.ckMode
  ckState _ _ := h.ckState
  curMode _ := h.curMode
  input := h.input
  evt := h.evt.imp fun _ he => he.symm
  faulted := hf
  rspData := h.rspData
  checksums _ := ⟨h.rspExp, h.rspRcv⟩

theorem Stopped.ruleKept {i : Instr} {e : ResultCode} {s t : State} (h : Stopped e s t) : RuleKept i e s t :=
  h.framed.toFramed.ruleKept (h.why.imp (·.faulted) (·.1))

/-- What is written to the buffer is not spoken of. -/
theorem RuleKept.setBuf {i : Instr} {code : ResultCode} {s t : State} (h : RuleKept i code s t)
    (buf : Vector Byte 15) : RuleKept i code s { t with buf := buf } :=
  ⟨⟨h.ckMode, h.ckState, h.curMode, h.input, h.evt, h.faulted⟩, h.rspData, h.checksums⟩

/-- An instruction that makes a fresh accumulator may leave the accumulator in any state (R30). -/
theorem RuleKept.setAccumulator {i : Instr} (hi : freshens i = true) (m : ChecksumMode) (c : Byte) (s : State) :
    RuleKept i .ok s { s with ckMode := m, ckState := c } :=
  ⟨⟨by simp [hi], by simp [hi], fun _ => rfl, rfl, List.prefix_rfl, .inl rfl⟩, rfl, fun _ => ⟨rfl, rfl⟩⟩

/-- However `r` ends, it keeps of `s` what instruction `i` has to keep. -/
def Res.Keeps {α : Type} (i : Instr) (s : State) (r : Res α) : Prop :=
  r.Sat (fun _ t => RuleKept i .ok s t) (fun e t => RuleKept i e s t)

theorem Res.Keeps.bind {α β : Type} {i : Instr} {s : State} {r : Res α} {k : α → State → Res β}
    (h : r.Keeps i s) (hk : ∀ a t, (k a t).Keeps i t) : (r.bind k).Keeps i s :=
  Res.Sat.bind h fun a t ht => (hk a t).mono (fun _ _ => ht.trans) (fun _ _ => ht.trans)

theorem Res.Keeps.after {α : Type} {i : Instr} {s t : State} {r : Res α} (h : RuleKept i .ok s t)
    (hr : r.Keeps i t) : r.Keeps i s :=
  hr.mono (fun _ _ => h.trans) (fun _ _ => h.trans)

theorem Res.Keeps.ok {α : Type} (i : Instr) (a : α) (s : State) : (Res.ok a s).Keeps i s := RuleKept.refl i .ok s

/-! ### The line layer and the framer -/

theorem drive_csN_keeps (i : Instr) (b : Level) (s : State) : (drive .csN b s).Keeps i s :=
  (drive_csN_spec b s).mono (fun _ _ h => h ▸ (csDriven_framed b s).ruleKept (.inl rfl))
    (fun _ _ h => h.framed.ruleKept (.inl h.faulted))

theorem tick_keeps (i : Instr) (s : State) : (tick s).Keeps i s :=
  (tick_spec s).mono (fun _ _ h => h.framed.toFramed.ruleKept (.inl h.faulted)) (fun _ _ h => h.ruleKept)

theorem xfer_raise_keeps (i : Instr) (bytes : List Byte) (s : State) : (xfer bytes s).raise.Keeps i s :=
  (xfer_raise_spec bytes s).mono (fun _ _ ⟨hl, hf, _⟩ => hl.toFramed.ruleKept (.inl hf)) (fun _ _ h => h.ruleKept)

theorem xferBuf_keeps (i : Instr) (n : Nat) (s : State) : (xferBuf n s).Keeps i s := by
  refine (xferBuf_spec n s).mono (fun _ t h => ?_) (fun e t h => ?_)
  · obtain ⟨bytes, u, -, rfl, hl, hf, -⟩ := h
    exact (hl.toFramed.ruleKept (.inl hf)).setBuf _
  · obtain ⟨bytes, u, -, rfl, hu⟩ := h
    exact hu.ruleKept.setBuf _

theorem verifyRead_keeps {i : Instr} (hi : freshens i = true) (m : ChecksumMode) (n : Nat) (frame : List Byte)
    (s : State) : (verifyRead m n frame s).Keeps i s := by
  obtain ⟨buf, c, h | ⟨expected, received, h⟩⟩ := verifyRead_cases m n frame s <;> rw [h]
  · exact (RuleKept.setAccumulator hi s.ckMode c s).setBuf buf
  · exact ⟨⟨by simp [hi], by simp [hi], fun _ => rfl, rfl, List.prefix_rfl, .inl rfl⟩, rfl, fun hc => absurd rfl hc⟩

theorem readTransaction_keeps (a : Byte) (len : BitVec 4) (m : ChecksumMode) (s : State) :
    (readTransaction m a len.toNat s).Keeps (.frRead a len) s :=
  .after (RuleKept.setAccumulator rfl m (checksumOf m [readAddress a]) s) <|
    (drive_csN_keeps _ false _).bind fun _ _ => (xfer_raise_keeps _ _ _).bind fun frame _ =>
    (drive_csN_keeps _ true _).bind fun _ _ => verifyRead_keeps rfl m _ frame _

theorem writeTransaction_keeps (a : Byte) (len : BitVec 4) (m : ChecksumMode) (s : State) :
    (writeTransaction m a len.toNat s).Keeps (.frWrite a len) s := by
  rw [writeTransaction, writeChecksum_eq]
  exact .after (RuleKept.setAccumulator rfl _ _ s) <|
    (drive_csN_keeps _ false _).bind fun _ _ => (xfer_raise_keeps _ _ _).bind fun _ _ =>
    (drive_csN_keeps _ true _).bind fun _ _ => .ok _ _ _

theorem rawTransaction_keeps (i : Instr) (n : Nat) (s : State) : (rawTransaction n s).Keeps i s :=
  (drive_csN_keeps i false s).bind fun _ _ => (xferBuf_keeps i n _).bind fun _ _ =>
    (drive_csN_keeps i true _).bind fun _ _ => .ok _ _ _

/-! ### Every command -/

/-- A rule that ends normally, leaving another engine or published byte (R130, R132). -/
theorem keeps_setEngine (i : Instr) (d : Option Byte) (e : Engine) (r : Option Byte) (s : State) :
    (Res.ok d { s with se := e, rxp := r }).Keeps i s :=
  (engine_linkFramed e r s).toFramed.ruleKept (.inl rfl)

/-- Every command has a legality and a rule, and the rule keeps what the command has to keep. -/
theorem exec_command_keeps {i : Instr} (hc : commands i = true) :
    ∃ legal rule, (∀ s, exec i s = command legal rule s) ∧ ∀ s, (rule s).Keeps i s := by
  cases i with
  | seSend b =>
    refine ⟨_, _, exec_seSend b, fun s => ?_⟩
    split
    · rename_i s1 hs
      exact send_eq_some hs ▸ keeps_setEngine _ none _ none s
    · exact RuleKept.refl _ _ s
  | seTick => exact ⟨_, _, exec_seTick, fun s => (tick_keeps _ s).bind fun _ _ => .ok _ _ _⟩
  | seRead =>
    refine ⟨_, _, exec_seRead, fun s => ?_⟩
    split
    · rename_i v s1 hs
      exact read_eq_byte hs ▸ keeps_setEngine _ (some v) s.se none s
    · exact RuleKept.refl _ _ s
    · exact RuleKept.refl _ _ s
  | ckNew m => exact ⟨_, _, exec_ckNew m, RuleKept.setAccumulator rfl m 0⟩
  | ckFeed b =>
    exact ⟨_, _, exec_ckFeed b, fun s => ⟨⟨fun _ => rfl, fun _ hb => absurd rfl (hb b), fun _ => rfl, rfl,
      List.prefix_rfl, .inl rfl⟩, rfl, fun _ => ⟨rfl, rfl⟩⟩⟩
  | ckResult => exact ⟨_, _, exec_ckResult, fun s => .ok _ _ s⟩
  | seXfer n => exact ⟨_, _, exec_seXfer n, fun s => (xferBuf_keeps _ _ s).bind fun _ _ => .ok _ _ _⟩
  | frRaw n => exact ⟨_, _, exec_frRaw n, rawTransaction_keeps _ _⟩
  | frRead a n => exact ⟨_, _, exec_frRead a n, fun s => readTransaction_keeps a n s.curMode s⟩
  | frWrite a n => exact ⟨_, _, exec_frWrite a n, fun s => writeTransaction_keeps a n s.curMode s⟩
  | frSetMode m =>
    exact ⟨_, _, exec_frSetMode m, fun s => ⟨⟨fun _ => rfl, fun _ _ => rfl, fun hm => absurd rfl (hm m), rfl,
      List.prefix_rfl, .inl rfl⟩, rfl, fun _ => ⟨rfl, rfl⟩⟩⟩
  | frGetMode => exact ⟨_, _, exec_frGetMode, fun s => .ok _ _ s⟩
  | bufWr j b => exact ⟨_, _, exec_bufWr j b, fun s => (RuleKept.refl _ _ s).setBuf _⟩
  | bufRd j => exact ⟨_, _, exec_bufRd j, fun s => .ok _ _ s⟩
  | wireReadAddr a => cases hc
  | wireWriteAddr a => cases hc

/-- How a command ends (R331): refused, or with the result of its rule, which kept what the command has to keep. -/
theorem exec_end {i : Instr} (hc : commands i = true) {s t : State} (h : exec i s = .next t) :
    t = refuseWord s ∨ (∃ d u, RuleKept i .ok (clearResponses s) u ∧ t = answerData d u) ∨
      (∃ e u, RuleKept i e (clearResponses s) u ∧ t = answer e u) := by
  obtain ⟨legal, rule, hexec, hrule⟩ := exec_command_keeps hc
  have hk := hrule (clearResponses s)
  rw [hexec] at h
  rcases command_cases h with ⟨-, ht⟩ | ⟨-, -, ⟨d, u, hr, ht⟩ | ⟨e, u, hr, ht⟩⟩
  · exact .inl ht
  · rw [hr] at hk
    exact .inr (.inl ⟨d, u, hk, ht⟩)
  · rw [hr] at hk
    exact .inr (.inr ⟨e, u, hk, ht⟩)

/-- What every instruction keeps, wire rows included. -/
theorem exec_kept {i : Instr} {s t : State} (h : exec i s = .next t) : Kept i t.rspCode s t := by
  rcases exec_cases i with ⟨hc, -⟩ | ⟨-, hwire⟩
  · rcases exec_end hc h with rfl | ⟨d, u, hu, rfl⟩ | ⟨e, u, hu, rfl⟩
    · exact ⟨fun _ => rfl, fun _ _ => rfl, fun _ => rfl, rfl, List.prefix_rfl, .inl rfl⟩
    · exact ⟨hu.ckMode, hu.ckState, hu.curMode, hu.input, hu.evt, hu.faulted⟩
    · exact ⟨hu.ckMode, hu.ckState, hu.curMode, hu.input, hu.evt, hu.faulted⟩
  · rw [hwire] at h
    cases h
    exact (RuleKept.refl i _ s).toKept

/-! ## The invariant -/

theorem Inv.unfaulted {s : State} (h : Inv s) : s.faulted = false := by
  obtain ⟨-, -, hf, -⟩ := h
  exact hf

/-- The invariant depends on the engine, the published byte, the clock and `FAULTED` alone. -/
theorem Inv.same {s t : State} (h : Inv s) (hse : t.se = s.se) (hr : t.rxp = s.rxp) (hc : t.sck = s.sck)
    (hf : t.faulted = s.faulted) : Inv t :=
  (h.link.same hse hr hc).inv (hf.trans h.unfaulted)

theorem Inv.setAccumulator {s : State} (h : Inv s) (m : ChecksumMode) (c : Byte) :
    Inv { s with ckMode := m, ckState := c } :=
  h.same rfl rfl rfl rfl

/-- However `r` ends, the invariant holds, and it does not raise `INVARIANT_FAULT` (R337). -/
def Res.Safe {α : Type} (r : Res α) : Prop :=
  r.Sat (fun _ t => Inv t) (fun e t => e ≠ .invariantFault ∧ Inv t)

theorem Res.Safe.bind {α β : Type} {r : Res α} {k : α → State → Res β} (h : r.Safe)
    (hk : ∀ a t, Inv t → (k a t).Safe) : (r.bind k).Safe :=
  Res.Sat.bind h hk

theorem Res.Safe.ok {α : Type} (a : α) {s : State} (h : Inv s) : (Res.ok a s).Safe := h

/-! ### The line layer and the framer -/

/-- A chip-select drive leaves the engine alone, or in a state its rules reach (R241, R336). -/
theorem drive_csN_safe (b : Level) {s : State} (h : Inv s) : (drive .csN b s).Safe := by
  rcases drive_cases .csN b s with ⟨-, hd⟩ | ⟨f, hf, hd⟩ <;> rw [hd]
  · exact h.same rfl rfl rfl rfl
  · have hl : LinkInv (failedDrive .csN f (popDraw s)) :=
      .drawn (lineFailure_pLineFault hf) (failedDrive_se ..) (failedDrive_rxp ..)
    exact ⟨nofun, hl.inv (by simpa using h.unfaulted)⟩

theorem tick_safe {s : State} (h : Inv s) : (tick s).Safe := by
  refine ((tick_inv h.link).and (tick_spec s)).mono (fun _ _ ⟨hl, ht⟩ => ?_) (fun _ _ ⟨⟨he, hf, hl⟩, _⟩ => ?_)
  · exact hl.inv (ht.faulted.trans h.unfaulted)
  · exact ⟨by simp [he], hl.inv (hf.trans h.unfaulted)⟩

theorem xfer_raise_safe (bytes : List Byte) {s : State} (h : Inv s) : (xfer bytes s).raise.Safe := by
  obtain ⟨hl, hf, he⟩ := xfer_inv bytes h.link
  have hi := hl.inv (hf.trans h.unfaulted)
  unfold Xfer.raise
  rcases he with he | he <;> rw [he]
  · exact hi
  · exact ⟨nofun, hi⟩

theorem xferBuf_safe (n : Nat) {s : State} (h : Inv s) : (xferBuf n s).Safe := by
  obtain ⟨hl, hf, he⟩ := xfer_inv (payload n s) h.link
  have hi := hl.inv (hf.trans h.unfaulted)
  simp only [xferBuf, bufStore_overlay]
  rcases he with he | he <;> rw [he]
  · exact hi.same rfl rfl rfl rfl
  · exact ⟨nofun, hi.same rfl rfl rfl rfl⟩

theorem verifyRead_safe (m : ChecksumMode) (n : Nat) (frame : List Byte) {s : State} (h : Inv s) :
    (verifyRead m n frame s).Safe := by
  obtain ⟨buf, c, hv | ⟨expected, received, hv⟩⟩ := verifyRead_cases m n frame s <;> rw [hv]
  · exact h.same rfl rfl rfl rfl
  · exact ⟨nofun, h.same rfl rfl rfl rfl⟩

theorem readTransaction_safe (m : ChecksumMode) (a : Byte) (n : Nat) {s : State} (h : Inv s) :
    (readTransaction m a n s).Safe :=
  (drive_csN_safe false (h.setAccumulator _ _)).bind fun _ _ h1 => (xfer_raise_safe _ h1).bind fun frame _ h2 =>
    (drive_csN_safe true h2).bind fun _ _ h3 => verifyRead_safe m n frame h3

theorem writeTransaction_safe (m : ChecksumMode) (a : Byte) (n : Nat) {s : State} (h : Inv s) :
    (writeTransaction m a n s).Safe := by
  rw [writeTransaction, writeChecksum_eq]
  exact (drive_csN_safe false (h.setAccumulator _ _)).bind fun _ _ h1 => (xfer_raise_safe _ h1).bind fun _ _ h2 =>
    (drive_csN_safe true h2).bind fun _ _ h3 => Res.Safe.ok _ h3

theorem rawTransaction_safe (n : Nat) {s : State} (h : Inv s) : (rawTransaction n s).Safe :=
  (drive_csN_safe false h).bind fun _ _ h1 => (xferBuf_safe n h1).bind fun _ _ h2 =>
    (drive_csN_safe true h2).bind fun _ _ h3 => Res.Safe.ok _ h3

/-! ### Every command and every step -/

/-- Every command has a legality and a rule, and the rule keeps the invariant. -/
theorem exec_command_safe {i : Instr} (hc : commands i = true) :
    ∃ legal rule, (∀ s, exec i s = command legal rule s) ∧ ∀ s, Inv s → (rule s).Safe := by
  cases i with
  | seSend b =>
    refine ⟨_, _, exec_seSend b, fun s h => ?_⟩
    split
    · rename_i s1 hs
      exact (send_inv h.link hs).inv (send_eq_some hs ▸ h.unfaulted)
    · exact ⟨nofun, h⟩
  | seTick => exact ⟨_, _, exec_seTick, fun s h => (tick_safe h).bind fun _ _ ht => Res.Safe.ok _ ht⟩
  | seRead =>
    refine ⟨_, _, exec_seRead, fun s h => ?_⟩
    split
    · rename_i v s1 hs
      exact (read_inv h.link hs).inv (read_eq_byte hs ▸ h.unfaulted)
    · exact ⟨nofun, h⟩
    · exact ⟨nofun, h⟩
  | ckNew m => exact ⟨_, _, exec_ckNew m, fun s h => h.setAccumulator m 0⟩
  | ckFeed b => exact ⟨_, _, exec_ckFeed b, fun s h => h.setAccumulator s.ckMode _⟩
  | ckResult => exact ⟨_, _, exec_ckResult, fun s h => h⟩
  | seXfer n => exact ⟨_, _, exec_seXfer n, fun s h => (xferBuf_safe _ h).bind fun _ _ ht => Res.Safe.ok _ ht⟩
  | frRaw n => exact ⟨_, _, exec_frRaw n, fun s h => rawTransaction_safe _ h⟩
  | frRead a n => exact ⟨_, _, exec_frRead a n, fun s h => readTransaction_safe _ a _ h⟩
  | frWrite a n => exact ⟨_, _, exec_frWrite a n, fun s h => writeTransaction_safe _ a _ h⟩
  | frSetMode m => exact ⟨_, _, exec_frSetMode m, fun s h => h.same rfl rfl rfl rfl⟩
  | frGetMode => exact ⟨_, _, exec_frGetMode, fun s h => h⟩
  | bufWr j b => exact ⟨_, _, exec_bufWr j b, fun s h => h.same rfl rfl rfl rfl⟩
  | bufRd j => exact ⟨_, _, exec_bufRd j, fun s h => h⟩
  | wireReadAddr a => cases hc
  | wireWriteAddr a => cases hc

/-- A refused word, in a state with the invariant, answers `ILLEGAL_COMMAND` and keeps it (R335). -/
theorem refuseWord_safe {s : State} (h : Inv s) : Inv (refuseWord s) ∧ (refuseWord s).rspCode ≠ .invariantFault :=
  ⟨h.same rfl rfl rfl rfl, by simp [refuseWord, h.unfaulted]⟩

/-- A command keeps the invariant, and answers no `INVARIANT_FAULT` where it holds (R337). -/
theorem exec_safe {i : Instr} (hc : commands i = true) {s t : State} (h : Inv s) (ht : exec i s = .next t) :
    Inv t ∧ t.rspCode ≠ .invariantFault := by
  obtain ⟨legal, rule, hexec, hrule⟩ := exec_command_safe hc
  have hs := hrule (clearResponses s) (h.same rfl rfl rfl rfl)
  rw [hexec] at ht
  rcases command_cases ht with ⟨-, rfl⟩ | ⟨-, -, ⟨d, u, hr, rfl⟩ | ⟨e, u, hr, rfl⟩⟩
  · exact refuseWord_safe h
  · rw [hr] at hs
    exact ⟨Inv.same hs rfl rfl rfl rfl, nofun⟩
  · rw [hr] at hs
    obtain ⟨he, hu⟩ := hs
    exact ⟨hu.same rfl rfl rfl rfl, he⟩

theorem exec_inv (i : Instr) {s t : State} (h : Inv s) (ht : exec i s = .next t) : Inv t := by
  rcases exec_cases i with ⟨hc, -⟩ | ⟨-, hwire⟩
  · exact (exec_safe hc h ht).1
  · rw [hwire] at ht
    cases ht
    exact h

theorem accept_inv (c : Code) {s t : State} (h : Inv s) (ht : accept c s = .next t) : Inv t := by
  unfold accept at ht
  split at ht
  · exact exec_inv _ h ht
  · cases ht
    exact (refuseWord_safe h).1

/-- Reset gives the invariant, whatever state it finds (R24, R28, R39). -/
theorem resetBlock_inv (s : State) : Inv (resetBlock s) := ⟨rfl, fun _ => rfl, rfl, fun _ => rfl⟩

theorem receive_inv (e : Stimulus) {s t : State} (h : Inv s) (ht : receive e s = .next t) : Inv t := by
  cases e with
  | issue w => exact accept_inv (.command w) h ht
  | peerTakes b => exact accept_inv (.address b) h ht
  | reset => cases ht; exact resetBlock_inv s

theorem step_inv {s t : State} (h : Inv s) (ht : step s = .next t) : Inv t := by
  unfold step at ht
  split at ht
  · cases ht
    exact h
  · refine receive_inv _ ?_ ht
    exact h.same rfl rfl rfl rfl

/-! ## The statements -/

/-- Settles O49, by the invariant's lemma for each operation a step can run. -/
theorem everyStepKeepsInv : Obligations.EveryStepKeepsInv := fun _ _ => step_inv

/-- Settles O12: the prelude clears the registers, a rule records checksums for a mismatch alone, and only `OK` answers
data. -/
theorem responsesGoWithTheCode : Obligations.ResponsesGoWithTheCode := by
  intro i s t hc h
  rcases exec_end hc h with rfl | ⟨d, u, hu, rfl⟩ | ⟨e, u, hu, rfl⟩
  · exact ⟨fun _ => rfl, fun _ => ⟨rfl, rfl⟩⟩
  · exact ⟨fun hne => absurd rfl hne, fun _ => hu.checksums (by decide)⟩
  · exact ⟨fun _ => hu.rspData, hu.checksums⟩

/-- Settles O44, from what every instruction keeps. -/
theorem onlyFreshAccumulatorsChangeTheMode : Obligations.OnlyFreshAccumulatorsChangeTheMode :=
  fun _ _ _ hi h => ⟨(exec_kept h).ckMode hi, (exec_kept h).ckState hi⟩

/-- Settles O45, from what every instruction keeps. -/
theorem onlyFrSetModeWritesCurMode : Obligations.OnlyFrSetModeWritesCurMode :=
  fun _ _ _ h => ⟨(exec_kept h).curMode, (exec_kept h).input⟩

/-- Settles O47, from what every instruction keeps. -/
theorem eventLogOnlyGrows : Obligations.EventLogOnlyGrows :=
  fun _ _ _ h => ⟨(exec_kept h).evt, (exec_kept h).faulted⟩

/-- Settles O8: a step that takes a reset leaves `resetBlock`, whose fields are those of `State.reset`. -/
theorem resetValues : Obligations.ResetValues := by
  intro s t h
  obtain rfl : resetBlock { s with input := [] } = t := by cases h; rfl
  have hbuf : ∀ j (hj : j < 15), (Vector.replicate 15 (0x00 : Byte))[j] = 0x00 := fun _ _ => Vector.getElem_replicate _
  exact ⟨rfl, rfl, rfl, rfl, rfl, rfl, rfl, rfl, hbuf, rfl, rfl, rfl, rfl, rfl, rfl⟩

/-- Settles O48: `State.reset` is what reset leaves of itself. -/
theorem invHoldsAtReset : Obligations.InvHoldsAtReset := resetBlock_inv State.reset

end Sys2Proof.Machine
end

section
/-! PROOFS. The statements about the memory (spec/20_memory.md): the elements of `BUF` a command may change, from what
each rule keeps of one element, and the first byte of a register frame, from the `MOSI` bits of a chip-select window. -/

namespace Sys2Proof.Machine

/-! ## One element of the buffer (R32, R62) -/

/-- However `r` ends, element `j` of `BUF` is as it was in `s`. -/
def Res.KeepsBuf {α : Type} (j : Fin 15) (s : State) (r : Res α) : Prop :=
  r.Sat (fun _ t => t.buf[j] = s.buf[j]) (fun _ t => t.buf[j] = s.buf[j])

theorem Res.KeepsBuf.bind {α β : Type} {j : Fin 15} {s : State} {r : Res α} {k : α → State → Res β}
    (h : r.KeepsBuf j s) (hk : ∀ a t, (k a t).KeepsBuf j t) : (r.bind k).KeepsBuf j s :=
  Res.Sat.bind h fun a t ht => (hk a t).mono (fun _ _ hu => hu.trans ht) (fun _ _ hu => hu.trans ht)

theorem Res.KeepsBuf.ok {α : Type} (j : Fin 15) (a : α) (s : State) : (Res.ok a s).KeepsBuf j s := rfl

/-- A list laid over the buffer changes no element beyond its length. -/
theorem overlay_getElem_of_length_le {bytes : List Byte} {j : Fin 15} (h : bytes.length ≤ j) (buf : Vector Byte 15) :
    (overlay bytes buf)[j] = buf[j] := by
  simp [overlay, List.getD_eq_getElem?_getD, List.getElem?_eq_none h]

/-- The line operations and the shift engine write no element. -/
theorem Framed.buf_getElem {s t : State} (h : Framed s t) (j : Fin 15) : t.buf[j] = s.buf[j] := by
  rw [h.buf]

theorem tick_keepsBuf (j : Fin 15) (s : State) : (tick s).KeepsBuf j s :=
  (tick_spec s).mono (fun _ _ h => h.framed.buf_getElem j) (fun _ _ h => h.framed.buf_getElem j)

theorem drive_csN_keepsBuf (j : Fin 15) (b : Level) (s : State) : (drive .csN b s).KeepsBuf j s :=
  (drive_csN_spec b s).mono (fun _ _ h => h ▸ (csDriven_framed b s).buf_getElem j) (fun _ _ h => h.framed.buf_getElem j)

theorem window_keepsBuf (j : Fin 15) {bytes : List Byte} (hb : bytes ≠ []) (s : State) :
    (window bytes s).KeepsBuf j s :=
  (window_spec hb s).mono (fun _ _ ⟨h, _⟩ => h.framed.buf_getElem j) (fun _ _ h => h.framed.buf_getElem j)

/-- The transfer of the buffer in place writes its payload's elements alone (R141). -/
theorem xferBuf_keepsBuf {j : Fin 15} {n : Nat} (hj : n ≤ j) (s : State) : (xferBuf n s).KeepsBuf j s := by
  have hover {bytes : List Byte} (hl : bytes.length = (payload n s).length) : (overlay bytes s.buf)[j] = s.buf[j] :=
    overlay_getElem_of_length_le (hl.trans_le ((List.length_take_le _ _).trans hj)) s.buf
  refine (xferBuf_spec n s).mono (fun _ t h => ?_) (fun e t h => ?_)
  · obtain ⟨bytes, u, hl, rfl, -⟩ := h
    exact hover hl
  · obtain ⟨bytes, u, hl, rfl, -⟩ := h
    exact hover hl

/-- The end of a read frame writes the received payload's elements alone (R242). -/
theorem verifyRead_keepsBuf {j : Fin 15} {n : Nat} (hj : n ≤ j) (m : ChecksumMode) (frame : List Byte) (s : State) :
    (verifyRead m n frame s).KeepsBuf j s := by
  have hover : (overlay (receivedPayload n frame) s.buf)[j] = s.buf[j] :=
    overlay_getElem_of_length_le ((List.length_take_le _ _).trans hj) s.buf
  simp only [verifyRead, raiseMismatch, bufStore_overlay, ckFeedAll_eq]
  split
  · exact hover
  · exact hover

theorem readTransaction_keepsBuf {j : Fin 15} {n : Nat} (hj : n ≤ j) (m : ChecksumMode) (a : Byte) (s : State) :
    (readTransaction m a n s).KeepsBuf j s := by
  rw [readTransaction_window, readChecksum_eq]
  exact (window_keepsBuf j (by simp [readFrame]) _).bind fun frame t => verifyRead_keepsBuf hj m frame t

/-- A write frame writes no element: what is received is discarded (R243). -/
theorem writeTransaction_keepsBuf (j : Fin 15) (m : ChecksumMode) (a : Byte) (n : Nat) (s : State) :
    (writeTransaction m a n s).KeepsBuf j s := by
  rw [writeTransaction_window, writeChecksum_eq]
  exact (window_keepsBuf j (by simp [writeFrame]) _).bind fun _ t => .ok j none t

theorem rawTransaction_keepsBuf {j : Fin 15} {n : Nat} (hj : n ≤ j) (s : State) :
    (rawTransaction n s).KeepsBuf j s :=
  (drive_csN_keepsBuf j false s).bind fun _ t => (xferBuf_keepsBuf hj t).bind fun _ u =>
    (drive_csN_keepsBuf j true u).bind fun _ v => .ok j none v

/-- Every command has a legality and a rule, and the rule keeps the elements of `BUF` the command may not write. -/
theorem exec_command_keepsBuf {i : Instr} (hc : commands i = true) {j : Fin 15} (hw : writesBuf j i = false) :
    ∃ legal rule, (∀ s, exec i s = command legal rule s) ∧ ∀ s, (rule s).KeepsBuf j s := by
  cases i with
  | seSend b =>
    refine ⟨_, _, exec_seSend b, fun s => ?_⟩
    split
    · rename_i s1 hs
      exact congrArg (·.buf[j]) (send_eq_some hs)
    · exact rfl
  | seTick => exact ⟨_, _, exec_seTick, fun s => (tick_keepsBuf j s).bind fun _ t => .ok j none t⟩
  | seRead =>
    refine ⟨_, _, exec_seRead, fun s => ?_⟩
    split
    · rename_i v s1 hs
      exact congrArg (·.buf[j]) (read_eq_byte hs)
    · exact rfl
    · exact rfl
  | ckNew m => exact ⟨_, _, exec_ckNew m, fun _ => rfl⟩
  | ckFeed b => exact ⟨_, _, exec_ckFeed b, fun _ => rfl⟩
  | ckResult => exact ⟨_, _, exec_ckResult, fun _ => rfl⟩
  | seXfer len =>
    have hj : len.toNat ≤ j := by simpa [writesBuf] using hw
    exact ⟨_, _, exec_seXfer len, fun s => (xferBuf_keepsBuf hj s).bind fun _ t => .ok j none t⟩
  | frRaw len =>
    have hj : len.toNat ≤ j := by simpa [writesBuf] using hw
    exact ⟨_, _, exec_frRaw len, rawTransaction_keepsBuf hj⟩
  | frRead a len =>
    have hj : len.toNat ≤ j := by simpa [writesBuf] using hw
    exact ⟨_, _, exec_frRead a len, fun s => readTransaction_keepsBuf hj s.curMode a s⟩
  | frWrite a len => exact ⟨_, _, exec_frWrite a len, fun s => writeTransaction_keepsBuf j s.curMode a len.toNat s⟩
  | frSetMode m => exact ⟨_, _, exec_frSetMode m, fun _ => rfl⟩
  | frGetMode => exact ⟨_, _, exec_frGetMode, fun _ => rfl⟩
  | bufWr idx b =>
    have hj : idx.toNat ≠ j := Ne.symm (beq_eq_false_iff_ne.mp hw)
    exact ⟨_, _, exec_bufWr idx b, fun s => Vector.getElem_setIfInBounds_ne j.isLt hj⟩
  | bufRd idx => exact ⟨_, _, exec_bufRd idx, fun _ => rfl⟩
  | wireReadAddr a => cases hc
  | wireWriteAddr a => cases hc

/-- Every instruction keeps the elements of `BUF` it may not write, however it ends. -/
theorem exec_buf_getElem {i : Instr} {s t : State} (h : exec i s = .next t) {j : Fin 15} (hw : writesBuf j i = false) :
    t.buf[j] = s.buf[j] := by
  rcases exec_cases i with ⟨hc, -⟩ | ⟨-, hwire⟩
  · obtain ⟨legal, rule, hexec, hrule⟩ := exec_command_keepsBuf hc hw
    have hk := hrule (clearResponses s)
    rw [hexec] at h
    rcases command_cases h with ⟨-, rfl⟩ | ⟨-, -, ⟨d, u, hr, rfl⟩ | ⟨e, u, hr, rfl⟩⟩
    · rfl
    · rw [hr] at hk
      exact hk
    · rw [hr] at hk
      exact hk
  · rw [hwire] at h
    cases h
    rfl

/-! ## The bits of a register frame (R100, R102, R104) -/

/-- What the peer takes from `MOSI` in a chip-select window: the bits of its bytes, whatever the peer answers. -/
theorem mosiBits_afterWindow (bytes : List Byte) {s t : State} (he : t.evt = s.evt) :
    mosiBits ((afterWindow bytes t).evt.drop s.evt.length) = bytes.flatMap byteBits := by
  have hevt : (afterWindow bytes t).evt =
      s.evt ++ ([.drive .csN false] ++ linkEvents bytes (csDriven false t) ++ [.drive .csN true]) := by
    simp [afterWindow, afterBytes_eq, he]
  rw [hevt, List.drop_left, mosiBits_append, mosiBits_append, mosiBits_linkEvents]
  exact List.append_nil _

/-- The window of a frame, once the prelude and the checksum have run, from an idle engine (R241, R331). -/
theorem window_prepared {s : State} (q : Quiet s) (hs : s.se = .idle) (m : ChecksumMode) (c : Byte) (bytes : List Byte) :
    window bytes { clearResponses s with ckMode := m, ckState := c } =
      .ok (windowBytes bytes { clearResponses s with ckMode := m, ckState := c })
        (afterWindow bytes { clearResponses s with ckMode := m, ckState := c }) := by
  apply window_quiet
  · exact q.same rfl
  · exact hs

/-- The bits of a read frame that goes through (R102, R242). -/
theorem mosiBits_frRead {addr : Byte} {len : BitVec 4} {s t : State} (hl : len ≠ 0) (hf : s.faulted = false)
    (q : Quiet s) (hs : s.se = .idle) (h : exec (.frRead addr len) s = .next t) :
    mosiBits (t.evt.drop s.evt.length) = (readFrame s.curMode addr len.toNat).flatMap byteBits := by
  rw [exec_frRead, command_run _ hf (lenLegal_of_ne hl), clearResponses_curMode, readTransaction_window,
    readChecksum_eq, window_prepared q hs, Res.bind_ok] at h
  obtain ⟨buf, c, hv | ⟨expected, received, hv⟩⟩ := verifyRead_cases s.curMode len.toNat _ _ <;> rw [hv] at h <;> cases h
  · exact mosiBits_afterWindow _ rfl
  · exact mosiBits_afterWindow _ rfl

/-- The checksum a write frame carries is that of its address and payload in the forced mode (R243, R246). -/
theorem ckResult_writeChecksum (m : ChecksumMode) (addr : Byte) (bytes : List Byte) (s : State) :
    ckResult (writeChecksum m addr bytes s) = trailerOf (writeMode m) (addr :: bytes) := by
  rw [ckResult_eq, writeChecksum_eq]
  rfl

/-- The bits of a write frame that goes through (R102, R243). -/
theorem mosiBits_frWrite {addr : Byte} {len : BitVec 4} {s t : State} (hl : len ≠ 0) (hf : s.faulted = false)
    (q : Quiet s) (hs : s.se = .idle) (h : exec (.frWrite addr len) s = .next t) :
    mosiBits (t.evt.drop s.evt.length) =
      (writeFrame addr (payload len.toNat s)
        (trailerOf (writeMode s.curMode) (addr :: payload len.toNat s))).flatMap byteBits := by
  rw [exec_frWrite, command_run _ hf (lenLegal_of_ne hl), clearResponses_curMode, writeTransaction_window,
    ckResult_writeChecksum, writeChecksum_eq, window_prepared q hs] at h
  cases h
  exact mosiBits_afterWindow _ rfl

/-- The first eight bits of a list of bytes on the link are its first byte (R63). -/
theorem take_flatMap_byteBits (b : Byte) (rest : List Byte) : ((b :: rest).flatMap byteBits).take 8 = byteBits b := rfl

/-- A read address reads as one, of the address without the read bit (R100). -/
theorem decodeAddress_readAddress (addr : Byte) : decodeAddress (readAddress addr) = .wireReadAddr (addr &&& 0xBF) := by
  have hbit : (addr ||| 0x40).getLsbD 6 = true := by simp
  have hrest : (addr ||| 0x40) &&& 0xBF = addr &&& 0xBF := by rw [BitVec.and_or_distrib_right]; simp
  rw [decodeAddress, readAddress, readBit, if_pos hbit, hrest]

/-! ## The statements -/

/-- Settles O46, from what every instruction keeps of one element. -/
theorem commandsKeepTheRestOfBuf : Obligations.CommandsKeepTheRestOfBuf :=
  fun _ _ _ h j hj hw => exec_buf_getElem h (j := ⟨j, hj⟩) hw

/-- Settles O30: the first byte of each frame is the read address and the address unchanged, and `decodeAddress` tells
them apart by bit 6. -/
theorem wireRowsNameTheFirstByteOfFrames : Obligations.WireRowsNameTheFirstByteOfFrames := by
  refine ⟨fun addr s => ⟨exec_wireReadAddr addr s, exec_wireWriteAddr addr s⟩, ?_⟩
  intro addr len s t u hl hf q hs ht hu
  refine ⟨readAddress addr, writeAddress addr, ?_, ?_, congrArg Except.ok (decodeAddress_readAddress addr), rfl⟩
  · rw [mosiBits_frRead hl hf q hs ht, readFrame, take_flatMap_byteBits]
  · rw [mosiBits_frWrite hl hf q hs hu, writeFrame, take_flatMap_byteBits]

end Sys2Proof.Machine
end

section
/-! PROOFS. The statements about the encoding (spec/30_encoding.md): the decoder accepts exactly the words that R94 and R96
leave legal, what is refused changes the responses alone, and each frame sends the bytes R102 lists. -/

namespace Sys2Proof.Machine

/-! ## What the decoder accepts (R94, R96, R97) -/

theorem isOk_error (why : Illegal) : (Except.error why : Except Illegal Instr).isOk = false := rfl

theorem isOk_require (c : Bool) (why : Illegal) (i : Instr) : (require c why i).isOk = c := by
  cases c <;> rfl

theorem isOk_ite (p : Prop) [Decidable p] (r : Except Illegal Instr) (why : Illegal) :
    (if p then r else .error why).isOk = (decide p && r.isOk) := by
  by_cases h : p <;> simp [h, isOk_error]

/-- Every mode field but the reserved code names a mode (R91, R94). -/
theorem isOk_map_decodeMode (mode : BitVec 2) (f : ChecksumMode → Instr) :
    ((decodeMode mode).map f).isOk = !(mode == 3) := by
  have hmode : ∀ m : BitVec 2, (decodeMode m).isOk = !(m == 3) := by decide
  rw [← hmode]
  cases decodeMode mode <;> rfl

/-- What R94 and R96 call illegal of an operation code and its operand fields, the reserved bits aside. -/
def fieldsIllegal (op : BitVec 4) (mode : BitVec 2) (byte : Byte) (len : BitVec 4) : Bool :=
  op == 0xE || op == 0xF || (!usesMode op && mode != 0) || (!usesByte op && byte != 0) ||
    (!usesCount op && !usesIndex op && len != 0) || (usesMode op && mode == 3) || (usesCount op && len == 0) ||
    (usesIndex op && len == 15)

theorem wordIllegal_eq (w : CommandWord) :
    wordIllegal w = (!(rsv1Field w == 0 && rsv0Field w == 0) ||
      fieldsIllegal (opField w) (modeField w) (byteField w) (lenField w)) := by
  simp only [wordIllegal, fieldsIllegal, bne, Bool.not_and, Bool.or_assoc]

theorem opcode_cases : ∀ op : BitVec 4,
    op = 0x0 ∨ op = 0x1 ∨ op = 0x2 ∨ op = 0x3 ∨ op = 0x4 ∨ op = 0x5 ∨ op = 0x6 ∨ op = 0x7 ∨
    op = 0x8 ∨ op = 0x9 ∨ op = 0xA ∨ op = 0xB ∨ op = 0xC ∨ op = 0xD ∨ op = 0xE ∨ op = 0xF := by
  decide

/-- At each operation code the decoder's checks are that the fields it does not use are 0 and that the mode, the count or
the index it uses is not the one value R94 excludes. -/
theorem isOk_decodeFields (op : BitVec 4) (mode : BitVec 2) (byte : Byte) (len : BitVec 4) :
    (decodeFields op mode byte len).isOk = !fieldsIllegal op mode byte len := by
  rcases opcode_cases op with rfl | rfl | rfl | rfl | rfl | rfl | rfl | rfl | rfl | rfl | rfl | rfl | rfl | rfl | rfl | rfl <;>
    simp [decodeFields, fieldsIllegal, usesMode, usesByte, usesCount, usesIndex, lenLegal, idxLegal, isOk_error, isOk_require,
      isOk_ite, isOk_map_decodeMode, bne, Bool.and_assoc, beq_eq_decide]

/-- The decoder accepts a word exactly when it is legal (R94, R96, R97). -/
theorem isOk_decodeCommand (w : CommandWord) : (decodeCommand w).isOk = !wordIllegal w := by
  rw [wordIllegal_eq, Bool.not_or, Bool.not_not, ← isOk_decodeFields, decodeCommand, isOk_ite, Bool.decide_eq_true]

/-! ## What is refused (R331, R335, R339) -/

theorem refuseWord_unfaulted {s : State} (hf : s.faulted = false) :
    refuseWord s = { s with rspCode := .illegalCommand, rspData := none, rspExp := none, rspRcv := none } := by
  have hcode : (if s.faulted then ResultCode.invariantFault else .illegalCommand) = .illegalCommand := by simp [hf]
  rw [refuseWord, hcode]
  rfl

/-- The only operands of a command the encoding calls illegal are a length 0 and an index 15 (R94): the command refuses
them itself, as the decoder refuses the word. -/
theorem exec_of_wf_eq_false {i : Instr} (hc : commands i = true) (hw : i.wf = false) (s : State) :
    exec i s = .next (refuseWord s) := by
  cases i with
  | seXfer len => exact (exec_seXfer len s).trans (command_refused (.inr hw))
  | frRaw len => exact (exec_frRaw len s).trans (command_refused (.inr hw))
  | frRead a len => exact (exec_frRead a len s).trans (command_refused (.inr hw))
  | frWrite a len => exact (exec_frWrite a len s).trans (command_refused (.inr hw))
  | bufWr idx b => exact (exec_bufWr idx b s).trans (command_refused (.inr hw))
  | bufRd idx => exact (exec_bufRd idx s).trans (command_refused (.inr hw))
  | wireReadAddr a => cases hc
  | wireWriteAddr a => cases hc
  | _ => cases hw

/-! ## The bytes of a frame (R102) -/

/-- A read frame has one zero byte for each payload byte, and one for the trailer unless the mode is `Off` (R101, R102). -/
theorem readFrame_eq (m : ChecksumMode) (addr : Byte) (n : Nat) :
    readFrame m addr n = (addr ||| 0x40) :: List.replicate (if m = .off then n else n + 1) 0x00 := by
  rw [readFrame, List.replicate_append_replicate]
  cases m <;> rfl

/-- The checksum of a write frame is the CRC unless the mode is `Off`, when there is none (R246). -/
theorem toList_trailerOf_writeMode (m : ChecksumMode) (bytes : List Byte) :
    (trailerOf (writeMode m) bytes).toList = if m = .off then [] else [checksumOf .crc bytes] := by
  cases m <;> rfl

/-- The exact result of a raw frame where no line operation fails, from an idle engine (R244). -/
theorem rawTransaction_quiet {s : State} (q : Quiet s) (hs : s.se = .idle) (n : Nat) :
    rawTransaction n s =
      .ok none { afterWindow (payload n s) s with buf := overlay (windowBytes (payload n s) s) s.buf } := by
  have q1 : Quiet (csDriven false s) := q.tail rfl
  have hbuf : (afterBytes (payload n s) (csDriven false s)).buf = s.buf := by rw [afterBytes_eq]; rfl
  have hpay : payload n (csDriven false s) = payload n s := rfl
  rw [rawTransaction, drive_csN_quiet q, Res.bind_ok, xferBuf, hpay, xfer_quiet q1 hs]
  simp only [bufStore_overlay, Res.bind_ok, hbuf]
  rw [drive_csN_overlay, drive_csN_quiet (afterBytes_quiet q1 _)]
  rfl

/-- The bits of a raw frame that goes through (R102, R244). -/
theorem mosiBits_frRaw {len : BitVec 4} {s t : State} (hl : len ≠ 0) (hf : s.faulted = false) (q : Quiet s)
    (hs : s.se = .idle) (h : exec (.frRaw len) s = .next t) :
    mosiBits (t.evt.drop s.evt.length) = (payload len.toNat s).flatMap byteBits := by
  have qc : Quiet (clearResponses s) := q.same rfl
  rw [exec_frRaw, command_run _ hf (lenLegal_of_ne hl), rawTransaction_quiet qc hs] at h
  cases h
  exact mosiBits_afterWindow _ rfl

/-! ## The statements -/

/-- Settles O3: the decoder refuses exactly the illegal words, and a refusal changes the responses alone. -/
theorem illegalWordsChangeOnlyResponses : Obligations.IllegalWordsChangeOnlyResponses := by
  intro w s
  have hok := isOk_decodeCommand w
  rw [accept, decode]
  cases hd : decodeCommand w with
  | ok i =>
    have hlegal : wordIllegal w = false := by simpa [hd, Except.isOk, Except.toBool] using hok
    rw [hlegal]
    exact ⟨i, rfl, rfl⟩
  | error why =>
    have hillegal : wordIllegal w = true := by simpa [hd, isOk_error] using hok
    rw [hillegal]
    rfl

/-- Settles O11: such an instruction is a command that is not well-formed, and refuses itself. -/
theorem illegalOperandIsRefused : Obligations.IllegalOperandIsRefused := by
  intro i s hf hi
  obtain ⟨hc, hw⟩ : commands i = true ∧ i.wf = false := by
    rcases hi with rfl | rfl | ⟨a, rfl⟩ | ⟨a, rfl⟩ | ⟨b, rfl⟩ | rfl <;> exact ⟨rfl, rfl⟩
  rw [exec_of_wf_eq_false hc hw, refuseWord_unfaulted hf]

/-- Settles O31, from the bits of each frame and the bytes a read frame and a write trailer are. -/
theorem frameBytesOnTheLink : Obligations.FrameBytesOnTheLink := by
  intro addr len s t u v hl hf q hs ht hu hv
  refine ⟨?_, ?_, mosiBits_frRaw hl hf q hs hv⟩
  · rw [mosiBits_frRead hl hf q hs ht, readFrame_eq]
  · rw [mosiBits_frWrite hl hf q hs hu, writeFrame, toList_trailerOf_writeMode]
    rfl

end Sys2Proof.Machine
end

section
/-! PROOFS. The statements about the shift engine (spec/40_shift_engine.md). The engine's half-phase is given as a function of
the state (`halfPhase`), sixteen of which end any byte in flight (`clockOut`); a tick is one of them, the loops of a transfer
are as many as the byte needs, and what they do depends on the link alone (`OnLink`). -/

namespace Sys2Proof.Machine

/-! ## The half-phase (R131) -/

/-- The state after one clock half-phase whose line operations do not fail (R131). -/
def halfPhase (s : State) : State :=
  match s.se with
  | .idle => s
  | .xfer false mask tx rx =>
    { s with
      se := .xfer true mask tx rx, sck := false, mosi := (tx &&& mask != 0)
      evt := s.evt ++ [.drive .mosi (tx &&& mask != 0), .drive .sck false]
      lineDraws := s.lineDraws.drop 2 }
  | .xfer true mask tx rx =>
    { s with
      se := if mask = 0x01 then .idle else .xfer false (mask >>> 1) tx (receiveBit mask rx (peerAnswer s 0))
      rxp := if mask = 0x01 then some (receiveBit mask rx (peerAnswer s 0)) else s.rxp
      sck := true
      evt := s.evt ++ [.drive .sck true, .sample (peerAnswer s 0)]
      miso := s.miso.drop 1, samples := s.samples + (1 - s.miso.length), lineDraws := s.lineDraws.drop 2 }

/-- The engine states in which a tick finds no impossible mask (R24, R337). -/
def maskSound : Engine → Bool
  | .idle => true
  | .xfer _ mask _ _ => maskLegal mask

theorem maskSound_of_engineLegal {e : Engine} (h : engineLegal e = true) : maskSound e = true := by
  cases e with
  | idle => rfl
  | xfer phase mask tx rx => exact engineLegal_mask h

theorem maskSound_eq_false {e : Engine} (h : maskSound e = false) :
    ∃ phase mask tx rx, e = .xfer phase mask tx rx ∧ maskLegal mask = false := by
  cases e with
  | idle => cases h
  | xfer phase mask tx rx => exact ⟨phase, mask, tx, rx, rfl, h⟩

theorem halfPhase_idle {s : State} (h : s.se = .idle) : halfPhase s = s := by
  rw [halfPhase, h]

theorem halfPhase_setup {s : State} {mask tx rx : Byte} (h : s.se = .xfer false mask tx rx) :
    halfPhase s = { s with
      se := .xfer true mask tx rx, sck := false, mosi := (tx &&& mask != 0)
      evt := s.evt ++ [.drive .mosi (tx &&& mask != 0), .drive .sck false]
      lineDraws := s.lineDraws.drop 2 } := by
  rw [halfPhase, h]

theorem halfPhase_sample {s : State} {mask tx rx : Byte} (h : s.se = .xfer true mask tx rx) :
    halfPhase s = { s with
      se := if mask = 0x01 then .idle else .xfer false (mask >>> 1) tx (receiveBit mask rx (peerAnswer s 0))
      rxp := if mask = 0x01 then some (receiveBit mask rx (peerAnswer s 0)) else s.rxp
      sck := true
      evt := s.evt ++ [.drive .sck true, .sample (peerAnswer s 0)]
      miso := s.miso.drop 1, samples := s.samples + (1 - s.miso.length), lineDraws := s.lineDraws.drop 2 } := by
  rw [halfPhase, h]

/-- A tick is one half-phase, where no line operation fails and the mask is a possible one (R131). -/
theorem tick_quiet {s : State} (q : Quiet s) (hm : maskSound s.se = true) : tick s = .ok () (halfPhase s) := by
  cases hs : s.se with
  | idle => rw [tick_idle hs, halfPhase_idle hs]
  | xfer phase mask tx rx =>
    rw [hs] at hm
    cases phase with
    | false => rw [tick_setup hs hm, setupTick_quiet q, halfPhase_setup hs]
    | true => rw [tick_sample hs hm, sampleTick_quiet q, halfPhase_sample hs]

theorem maskLegal_shift {mask : Byte} (h : maskLegal mask = true) (h1 : mask ≠ 0x01) : maskLegal (mask >>> 1) = true := by
  rcases maskLegal_cases h with rfl | rfl | rfl | rfl | rfl | rfl | rfl | rfl
  case inr.inr.inr.inr.inr.inr.inr => exact absurd rfl h1
  all_goals rfl

theorem halfPhase_maskSound {s : State} (h : maskSound s.se = true) : maskSound (halfPhase s).se = true := by
  cases hs : s.se with
  | idle => rw [halfPhase_idle hs, hs]; rfl
  | xfer phase mask tx rx =>
    rw [hs] at h
    cases phase with
    | false => rw [halfPhase_setup hs]; exact h
    | true =>
      rw [halfPhase_sample hs]
      by_cases h1 : mask = 0x01
      · simp only [if_pos h1]; rfl
      · simp only [if_neg h1]; exact maskLegal_shift h h1

theorem halfPhase_quiet {s : State} (q : Quiet s) : Quiet (halfPhase s) := by
  cases hs : s.se with
  | idle => rwa [halfPhase_idle hs]
  | xfer phase mask tx rx =>
    cases phase with
    | false => rw [halfPhase_setup hs]; exact q.drop 2 rfl
    | true => rw [halfPhase_sample hs]; exact q.drop 2 rfl

/-- A half-phase brings the byte in flight one step nearer to its end, where it is published (R135). -/
theorem halfPhase_ticked {s : State} (q : Quiet s) (hm : maskSound s.se = true) : Ticked s (halfPhase s) := by
  have h := tick_spec s
  rwa [tick_quiet q hm] at h

/-! ## Clocking a byte out (R135, R140) -/

/-- The state after sixteen half-phases, by which any byte in flight has ended (R135). -/
@[irreducible] def clockOut (s : State) : State := halfPhase^[16] s

theorem iterate_halfPhase_idle {s : State} (h : s.se = .idle) (n : Nat) : halfPhase^[n] s = s :=
  Function.iterate_fixed (halfPhase_idle h) n

theorem clockOut_eq (s : State) : clockOut s = halfPhase^[16] s := by
  delta clockOut
  rfl

theorem clockOut_idle {s : State} (h : s.se = .idle) : clockOut s = s := by
  rw [clockOut_eq, iterate_halfPhase_idle h]

/-- As many half-phases as the byte in flight still needs leave the engine idle (R135). -/
theorem iterate_halfPhase_se {n : Nat} {s : State} (q : Quiet s) (hm : maskSound s.se = true) (hn : ticksLeft s.se ≤ n) :
    (halfPhase^[n] s).se = .idle := by
  induction n generalizing s with
  | zero =>
    cases hs : s.se with
    | idle => exact hs
    | xfer p m x r =>
      have := ticksLeft_pos p m x r
      rw [hs] at hn
      omega
  | succ n ih =>
    by_cases hs : s.se = .idle
    · rwa [iterate_halfPhase_idle hs]
    · have hleft := (halfPhase_ticked q hm).advances hs
      exact ih (halfPhase_quiet q) (halfPhase_maskSound hm) (by omega)

theorem clockOut_se {s : State} (q : Quiet s) (hm : maskSound s.se = true) : (clockOut s).se = .idle := by
  rw [clockOut_eq, iterate_halfPhase_se q hm (ticksLeft_le _)]

theorem iterate_halfPhase_quiet (n : Nat) {s : State} (q : Quiet s) : Quiet (halfPhase^[n] s) :=
  Function.Iterate.rec Quiet q (fun _ => halfPhase_quiet) n

theorem clockOut_quiet {s : State} (q : Quiet s) : Quiet (clockOut s) := by
  rw [clockOut_eq]
  exact iterate_halfPhase_quiet 16 q

theorem read_exhausted {s : State} (h : s.se = .idle) (hv : s.rxp = none) : read s = .exhausted := by
  simp [read, h, hv]

/-- The state in which an idle engine has taken a byte (R130). -/
def sent (b : Byte) (s : State) : State := { s with se := .xfer false 0x80 b 0, rxp := none }

/-- An idle engine takes the byte at once (R130, R140). -/
theorem submit_idle (n : Nat) (b : Byte) {s : State} (h : s.se = .idle) : submit n b s = .ok () (sent b s) := by
  cases n <;> rw [submit, send_idle b h, sent]

/-- The second loop of R140 ticks while a byte is in flight. -/
theorem collect_inFlight (n : Nat) {s : State} (h : s.se ≠ .idle) :
    collect (n + 1) s = (tick s).bind fun _ t => collect n t := by
  rw [collect, read_xfer h]

/-- The second loop of R140 ends where the engine is idle. -/
theorem collect_idle (n : Nat) {s : State} (h : s.se = .idle) : collect n s = collect 0 s := by
  cases n with
  | zero => rfl
  | succ n =>
    rw [collect, collect]
    cases hr : s.rxp with
    | none => rw [read_exhausted h hr]
    | some v => rw [read_published h hr]

/-- The first loop of R140 submits the byte to the engine that the byte in flight leaves idle. -/
theorem submit_iterate_halfPhase (b : Byte) {n : Nat} {s : State} (q : Quiet s) (hm : maskSound s.se = true)
    (hn : ticksLeft s.se ≤ n) (m : Nat) : submit n b s = submit m b (halfPhase^[n] s) := by
  induction n generalizing s with
  | zero =>
    have hidle : s.se = .idle := iterate_halfPhase_se q hm hn
    rw [submit_idle 0 b hidle]
    exact (submit_idle m b hidle).symm
  | succ n ih =>
    by_cases hs : s.se = .idle
    · rw [iterate_halfPhase_idle hs, submit_idle _ b hs, submit_idle m b hs]
    · have hleft := (halfPhase_ticked q hm).advances hs
      rw [submit, send_xfer b hs, tick_quiet q hm, Function.iterate_succ_apply]
      exact ih (halfPhase_quiet q) (halfPhase_maskSound hm) (by omega)

/-- The second loop of R140 reads what the engine publishes when the byte in flight has ended. -/
theorem collect_iterate_halfPhase {n : Nat} {s : State} (q : Quiet s) (hm : maskSound s.se = true)
    (hn : ticksLeft s.se ≤ n) : collect n s = collect 0 (halfPhase^[n] s) := by
  induction n generalizing s with
  | zero => rfl
  | succ n ih =>
    by_cases hs : s.se = .idle
    · rw [iterate_halfPhase_idle hs, collect_idle _ hs]
    · have hleft := (halfPhase_ticked q hm).advances hs
      rw [collect_inFlight n hs, tick_quiet q hm, Function.iterate_succ_apply]
      exact ih (halfPhase_quiet q) (halfPhase_maskSound hm) (by omega)

theorem collect_clockOut {s : State} (q : Quiet s) (hm : maskSound s.se = true) : collect 16 s = collect 0 (clockOut s) := by
  rw [clockOut_eq, collect_iterate_halfPhase q hm (ticksLeft_le _)]

/-- What the engine must have published for a read to hand a byte over (R132). -/
theorem collect_zero_ok {v : Byte} {s t : State} (h : collect 0 s = .ok v t) :
    s.se = .idle ∧ s.rxp = some v ∧ t = { s with rxp := none } := by
  by_cases hs : s.se = .idle
  · cases hr : s.rxp with
    | none => rw [collect, read_exhausted hs hr] at h; cases h
    | some w => rw [collect, read_published hs hr] at h; cases h; exact ⟨hs, rfl, rfl⟩
  · rw [collect, read_xfer hs] at h
    cases h

/-- A byte in flight is clocked out before the exchange of a byte begins (R140). -/
theorem xferByte_clockOut (b : Byte) {s : State} (q : Quiet s) (hm : maskSound s.se = true) :
    xferByte b s = .ok (peerByte (clockOut s)) (afterByte b (clockOut s)) := by
  rw [← xferByte_quiet (clockOut_quiet q) (clockOut_se q hm), xferByte, xferByte,
    submit_iterate_halfPhase b q hm (ticksLeft_le _) 16, clockOut_eq]

/-- A byte in flight is clocked out before a list is exchanged (R140). -/
theorem xfer_clockOut {bytes : List Byte} (hb : bytes ≠ []) {s : State} (q : Quiet s) (hm : maskSound s.se = true) :
    xfer bytes s = ⟨slotBytes bytes (clockOut s), none, afterBytes bytes (clockOut s)⟩ := by
  rw [← xfer_quiet (clockOut_quiet q) (clockOut_se q hm)]
  cases bytes with
  | nil => exact absurd rfl hb
  | cons b rest =>
    rw [xfer, xfer, xferByte_clockOut b q hm, xferByte_quiet (clockOut_quiet q) (clockOut_se q hm)]

theorem afterBytes_atRest {bytes : List Byte} (hb : bytes ≠ []) (s : State) :
    (afterBytes bytes s).se = .idle ∧ (afterBytes bytes s).rxp = none ∧ (afterBytes bytes s).sck = true ∧
      (afterBytes bytes s).faulted = s.faulted := by
  rw [afterBytes_eq]
  exact ⟨if_neg hb, if_neg hb, if_neg hb, rfl⟩

/-- What is already in the buffer, laid over it, changes nothing. -/
theorem overlay_payload (n : Nat) (s : State) : overlay (payload n s) s.buf = s.buf := by
  apply Vector.ext
  intro i hi
  simp only [overlay, payload, Vector.getElem_ofFn, List.getD_eq_getElem?_getD, List.getElem?_take]
  split <;> simp [hi]

/-! ## What the engine does depends on the link alone -/

/-- Two states with the same engine, published byte, clock, `MOSI` and peer. -/
structure SameLink (s t : State) : Prop where
  se : t.se = s.se
  rxp : t.rxp = s.rxp
  sck : t.sck = s.sck
  mosi : t.mosi = s.mosi
  miso : t.miso = s.miso
  samples : t.samples = s.samples

/-- `t` with the link of `l`, the events `es` logged and `k` draws used up. -/
def clockedTo (l : State) (es : List Event) (k : Nat) (t : State) : State :=
  { t with
    se := l.se, rxp := l.rxp, sck := l.sck, mosi := l.mosi, miso := l.miso, samples := l.samples
    evt := t.evt ++ es, lineDraws := t.lineDraws.drop k }

/-- `f` works on the link alone: in every state with the link of `s` it leaves the link it leaves of `s`, logs the same
events behind those already logged, uses up as many draws, and changes nothing else (R27, R382). -/
def OnLink (f : State → State) : Prop :=
  ∀ s, ∃ es k, ∀ t, SameLink s t → f t = clockedTo (f s) es k t

theorem SameLink.refl (s : State) : SameLink s s := ⟨rfl, rfl, rfl, rfl, rfl, rfl⟩

theorem sameLink_clockedTo (l : State) (es : List Event) (k : Nat) (t : State) : SameLink l (clockedTo l es k t) :=
  ⟨rfl, rfl, rfl, rfl, rfl, rfl⟩

theorem clockedTo_clockedTo (l l' : State) (es es' : List Event) (k k' : Nat) (t : State) :
    clockedTo l' es' k' (clockedTo l es k t) = clockedTo l' (es ++ es') (k + k') t := by
  simp [clockedTo, List.drop_drop]

theorem SameLink.peerAnswer {s t : State} (h : SameLink s t) : peerAnswer t = peerAnswer s := by
  funext k
  rw [Machine.peerAnswer, Machine.peerAnswer, h.miso, h.samples]

theorem OnLink.id : OnLink id := fun s => ⟨[], 0, fun t ⟨hse, hrxp, hsck, hmosi, hmiso, hsamples⟩ => by
  simp [clockedTo, ← hse, ← hrxp, ← hsck, ← hmosi, ← hmiso, ← hsamples]⟩

theorem OnLink.comp {f g : State → State} (hg : OnLink g) (hf : OnLink f) : OnLink (g ∘ f) := by
  intro s
  obtain ⟨es, k, h⟩ := hf s
  obtain ⟨es', k', h'⟩ := hg (f s)
  refine ⟨es ++ es', k + k', fun t ht => ?_⟩
  rw [Function.comp_apply, h t ht, h' _ (sameLink_clockedTo ..), clockedTo_clockedTo]
  rfl

theorem OnLink.iterate {f : State → State} (hf : OnLink f) (n : Nat) : OnLink f^[n] := by
  induction n with
  | zero => exact .id
  | succ n ih => exact ih.comp hf

theorem halfPhase_onLink : OnLink halfPhase := by
  intro s
  cases hs : s.se with
  | idle =>
    obtain ⟨es, k, h⟩ := OnLink.id s
    refine ⟨es, k, fun t ht => ?_⟩
    rw [halfPhase_idle hs, halfPhase_idle (ht.se.trans hs)]
    exact h t ht
  | xfer phase mask tx rx =>
    cases phase with
    | false =>
      refine ⟨[.drive .mosi (tx &&& mask != 0), .drive .sck false], 2, fun t ht => ?_⟩
      rw [halfPhase_setup hs, halfPhase_setup (ht.se.trans hs)]
      simp [clockedTo, ← ht.rxp, ← ht.miso, ← ht.samples]
    | true =>
      refine ⟨[.drive .sck true, .sample (peerAnswer s 0)], 2, fun t ht => ?_⟩
      rw [halfPhase_sample hs, halfPhase_sample (ht.se.trans hs), ht.peerAnswer]
      simp [clockedTo, ← ht.rxp, ← ht.mosi, ← ht.miso, ← ht.samples]

theorem clockOut_onLink : OnLink clockOut := by
  have h : clockOut = halfPhase^[16] := funext clockOut_eq
  rw [h]
  exact halfPhase_onLink.iterate 16

theorem afterByte_onLink (b : Byte) : OnLink (afterByte b) := by
  refine fun s => ⟨byteEvents b (peerByte s), 32, fun t ht => ?_⟩
  simp [afterByte, clockedTo, peerByte, ht.peerAnswer, ht.miso, ht.samples]

theorem afterBytes_onLink (bytes : List Byte) : OnLink (afterBytes bytes) := by
  induction bytes with
  | nil => exact .id
  | cons b rest ih => exact ih.comp (afterByte_onLink b)

theorem OnLink.faulted {f : State → State} (hf : OnLink f) (s : State) : (f s).faulted = s.faulted := by
  obtain ⟨es, k, h⟩ := hf s
  exact congrArg (·.faulted) (h s (.refl s))

theorem OnLink.buf {f : State → State} (hf : OnLink f) (s : State) : (f s).buf = s.buf := by
  obtain ⟨es, k, h⟩ := hf s
  exact congrArg (·.buf) (h s (.refl s))

/-- What works on the link commutes with the prelude of a command (R331). -/
theorem OnLink.clearResponses {f : State → State} (hf : OnLink f) (s : State) :
    f (clearResponses s) = Machine.clearResponses (f s) := by
  obtain ⟨es, k, h⟩ := hf s
  rw [h (Machine.clearResponses s) ⟨rfl, rfl, rfl, rfl, rfl, rfl⟩, h s (.refl s)]
  rfl

/-- A command that ended with `OK` and no data. -/
def responded (s : State) : State := answerData none (clearResponses s)

theorem OnLink.responded {f : State → State} (hf : OnLink f) (s : State) : f (responded s) = Machine.responded (f s) := by
  obtain ⟨es, k, h⟩ := hf s
  rw [h (Machine.responded s) ⟨rfl, rfl, rfl, rfl, rfl, rfl⟩, h s (.refl s)]
  rfl

end Sys2Proof.Machine
end

section
/-! PROOFS. The statements about the shift engine's commands and the transfers (spec/40_shift_engine.md): each command's exact
result where no line operation fails, from the half-phase and the link, and what holds of every transfer and of every command
that clocks no byte, from what each operation can do. -/

namespace Sys2Proof.Machine

/-! ## How a command reports (R331) -/

/-- The result of a command's rule, reported (R330, R331). -/
def Res.reported : Res (Option Byte) → State
  | .ok d t => answerData d t
  | .stop e t => answer e t

/-- A command that the prelude lets through reports the result of its rule (R331). -/
theorem command_reported {legal : Bool} (rule : State → Res (Option Byte)) {s : State} (hf : s.faulted = false)
    (hl : legal = true) : command legal rule s = .next (rule (clearResponses s)).reported := by
  rw [command_run rule hf hl]
  cases rule (clearResponses s) <;> rfl

/-! ## Ticks -/

/-- `SE_TICK` where no line operation fails (R131). -/
theorem exec_seTick_quiet {s : State} (hf : s.faulted = false) (q : Quiet s) (hm : maskSound s.se = true) :
    exec .seTick s = .next (responded (halfPhase s)) := by
  have qc : Quiet (clearResponses s) := q.same rfl
  rw [exec_seTick, command_reported _ hf rfl, tick_quiet qc hm, halfPhase_onLink.clearResponses]
  rfl

/-- `SE_TICK` that finds an impossible mask (R337): the block is faulted, and refuses what comes after. -/
theorem exec_seTick_badMask {s : State} (hf : s.faulted = false) (hm : maskSound s.se = false) :
    exec .seTick s = .next (refuseWord { s with faulted := true }) := by
  obtain ⟨phase, mask, tx, rx, hs, hmask⟩ := maskSound_eq_false hm
  have ht : tick (clearResponses s) = .stop .invariantFault { clearResponses s with faulted := true } := tick_badMask hs hmask
  rw [exec_seTick, command_reported _ hf rfl, ht]
  rfl

theorem execTicks_succ {s t : State} (h : exec .seTick s = .next t) (n : Nat) : execTicks (n + 1) s = execTicks n t := by
  rw [execTicks, h]

/-- Ticks are half-phases (R131); from the first on, the responses are those of a tick. -/
theorem execTicks_responded {s : State} (hf : s.faulted = false) (q : Quiet s) (hm : maskSound s.se = true) (n : Nat) :
    execTicks n (responded s) = responded (halfPhase^[n] s) := by
  induction n generalizing s with
  | zero => rfl
  | succ n ih =>
    have h1 : exec .seTick (responded s) = .next (responded (halfPhase s)) := by
      rw [exec_seTick_quiet (s := responded s) hf (q.same rfl) hm, halfPhase_onLink.responded]
      rfl
    rw [execTicks_succ h1, Function.iterate_succ_apply]
    exact ih ((halfPhase_onLink.faulted s).trans hf) (halfPhase_quiet q) (halfPhase_maskSound hm)

/-- Sixteen ticks clock a byte in flight out (R135). -/
theorem execTicks_clockOut {s : State} (hf : s.faulted = false) (q : Quiet s) (hm : maskSound s.se = true) :
    execTicks 16 s = responded (clockOut s) := by
  rw [execTicks_succ (exec_seTick_quiet hf q hm), execTicks_responded ((halfPhase_onLink.faulted s).trans hf) (halfPhase_quiet q)
    (halfPhase_maskSound hm), ← Function.iterate_succ_apply, clockOut_eq]

theorem execTicks_refuseWord {s : State} (hf : s.faulted = true) (n : Nat) : execTicks n (refuseWord s) = refuseWord s := by
  induction n with
  | zero => rfl
  | succ n ih =>
    have h1 : exec .seTick (refuseWord s) = .next (refuseWord s) := exec_faulted (s := refuseWord s) rfl hf
    rw [execTicks_succ h1]
    exact ih

/-! ## The sixteen half-phases of a byte (R135) -/

/-- The engine before half-phase `k` of a byte. -/
def AtHalfPhase (byte : Byte) (k : Nat) (s : State) : Prop :=
  ∃ rx, s.se = .xfer (k % 2 == 1) ((0x80 : Byte) >>> (k / 2)) byte rx

theorem halfPhase_atHalfPhase {byte : Byte} {k : Nat} {s : State} (hk : k < 15) (h : AtHalfPhase byte k s) :
    AtHalfPhase byte (k + 1) (halfPhase s) := by
  obtain ⟨rx, h⟩ := h
  rcases Nat.even_or_odd' k with ⟨j, rfl | rfl⟩
  · have e1 : (2 * j % 2 == 1) = false := by simp
    have e2 : ((2 * j + 1) % 2 == 1) = true := by simp
    rw [e1] at h
    refine ⟨rx, ?_⟩
    rw [halfPhase_setup h, e2, show (2 * j + 1) / 2 = 2 * j / 2 by omega]
  · have e1 : ((2 * j + 1) % 2 == 1) = true := by simp
    have e2 : ((2 * j + 1 + 1) % 2 == 1) = false := by simp [Nat.add_assoc]
    have hlast : ∀ i < 7, (0x80 : Byte) >>> i ≠ 0x01 := by decide
    rw [e1, show (2 * j + 1) / 2 = j by omega] at h
    refine ⟨receiveBit ((0x80 : Byte) >>> j) rx (peerAnswer s 0), ?_⟩
    rw [halfPhase_sample h, e2, show (2 * j + 1 + 1) / 2 = j + 1 by omega, BitVec.shiftRight_add]
    exact if_neg (hlast j (by omega))

theorem iterate_halfPhase_atHalfPhase {byte : Byte} {s : State} (h : AtHalfPhase byte 0 s) {k : Nat} (hk : k ≤ 15) :
    AtHalfPhase byte k (halfPhase^[k] s) := by
  induction k with
  | zero => exact h
  | succ k ih =>
    rw [Function.iterate_succ_apply']
    exact halfPhase_atHalfPhase (by omega) (ih (by omega))

/-- Clocking a byte out that an idle engine has taken publishes the peer's byte, with the line events of R104. -/
theorem clockOut_sent {s : State} (q : Quiet s) (hs : s.se = .idle) (byte : Byte) :
    (clockOut (sent byte s)).se = .idle ∧ (clockOut (sent byte s)).rxp = some (peerByte s) ∧
      (clockOut (sent byte s)).evt = s.evt ++ byteEvents byte (peerByte s) := by
  have h := xferByte_quiet q hs byte
  have hq : Quiet (sent byte s) := q.same rfl
  rw [xferByte, submit_idle 16 byte hs, Res.bind_ok, collect_clockOut hq rfl] at h
  obtain ⟨hse, hrxp, ht⟩ := collect_zero_ok h
  exact ⟨hse, hrxp, (congrArg (·.evt) ht).symm⟩

/-! ## `SE_XFER` -/

/-- The transfer of the buffer in place where no line operation fails: a byte in flight is clocked out, then the payload is
exchanged (R140, R141). -/
theorem xferBuf_clockOut {n : Nat} {s : State} (hp : payload n s ≠ []) (q : Quiet s) (hm : maskSound s.se = true) :
    xferBuf n s = .ok () { afterBytes (payload n s) (clockOut s) with
      buf := overlay (slotBytes (payload n s) (clockOut s)) s.buf } := by
  have hbuf : (afterBytes (payload n s) (clockOut s)).buf = s.buf :=
    ((afterBytes_onLink _).buf _).trans (clockOut_onLink.buf s)
  rw [xferBuf, xfer_clockOut hp q hm]
  simp only [bufStore_overlay, hbuf]

/-- `SE_XFER` where no line operation fails (R140, R141). -/
theorem exec_seXfer_quiet {len : BitVec 4} {s : State} (hl : len ≠ 0) (hf : s.faulted = false) (q : Quiet s)
    (hm : maskSound s.se = true) :
    exec (.seXfer len) s = .next { afterBytes (payload len.toNat s) (clockOut s) with
      buf := overlay (slotBytes (payload len.toNat s) (clockOut s)) s.buf
      rspCode := .ok, rspData := none, rspExp := none, rspRcv := none } := by
  have qc : Quiet (clearResponses s) := q.same rfl
  have hpay : payload len.toNat (clearResponses s) = payload len.toNat s := rfl
  have hslots : slotBytes (payload len.toNat s) (clearResponses (clockOut s)) =
      slotBytes (payload len.toNat s) (clockOut s) := slotBytes_congr _ rfl rfl
  rw [exec_seXfer, command_reported _ hf (lenLegal_of_ne hl), xferBuf_clockOut (payload_ne_nil hl _) qc hm, hpay,
    clockOut_onLink.clearResponses, (afterBytes_onLink _).clearResponses, hslots]
  rfl

/-- A transfer that finds an impossible mask moves no byte (R140, R337). -/
theorem xfer_badMask {bytes : List Byte} (hb : bytes ≠ []) {s : State} (hm : maskSound s.se = false) :
    xfer bytes s = ⟨bytes, some .invariantFault, { s with faulted := true }⟩ := by
  obtain ⟨phase, mask, tx, rx, hs, hmask⟩ := maskSound_eq_false hm
  cases bytes with
  | nil => exact absurd rfl hb
  | cons b rest => rw [xfer, xferByte, submit, send_xfer b (by simp [hs]), tick_badMask hs hmask]; rfl

/-- `SE_XFER` that finds an impossible mask (R337): the block is faulted, and refuses what comes after. -/
theorem exec_seXfer_badMask {len : BitVec 4} {s : State} (hl : len ≠ 0) (hf : s.faulted = false)
    (hm : maskSound s.se = false) : exec (.seXfer len) s = .next (refuseWord { s with faulted := true }) := by
  have hm' : maskSound (clearResponses s).se = false := hm
  rw [exec_seXfer, command_reported _ hf (lenLegal_of_ne hl), xferBuf, xfer_badMask (payload_ne_nil hl _) hm']
  simp only [bufStore_overlay]
  rw [overlay_payload (s := clearResponses s)]
  rfl

/-- `SE_XFER` does what it does after sixteen more ticks: with a possible mask they clock the byte in flight out, with an
impossible one both fault (R140, R337). -/
theorem exec_seXfer_execTicks {len : BitVec 4} {s : State} (hl : len ≠ 0) (hf : s.faulted = false) (q : Quiet s) :
    exec (.seXfer len) s = exec (.seXfer len) (execTicks 16 s) := by
  cases hm : maskSound s.se with
  | false =>
    have hticks : execTicks 16 s = refuseWord { s with faulted := true } := by
      rw [execTicks_succ (exec_seTick_badMask hf hm), execTicks_refuseWord rfl]
    rw [exec_seXfer_badMask hl hf hm, hticks]
    exact (exec_faulted (s := refuseWord { s with faulted := true }) rfl rfl).symm
  | true =>
    have hidle : (responded (clockOut s)).se = .idle := clockOut_se q hm
    have hfaulted : (responded (clockOut s)).faulted = false := (clockOut_onLink.faulted s).trans hf
    have hbuf : (responded (clockOut s)).buf = s.buf := clockOut_onLink.buf s
    have hpay : payload len.toNat (responded (clockOut s)) = payload len.toNat s := by rw [payload, hbuf, payload]
    have hslots : slotBytes (payload len.toNat s) (responded (clockOut s)) =
        slotBytes (payload len.toNat s) (clockOut s) := slotBytes_congr _ rfl rfl
    rw [execTicks_clockOut hf q hm, exec_seXfer_quiet hl hf q hm,
      exec_seXfer_quiet hl hfaulted ((clockOut_quiet q).same rfl) (by rw [hidle]; rfl), clockOut_idle hidle, hpay, hbuf, hslots,
      (afterBytes_onLink _).responded]
    rfl

/-! ## The window of a frame, with a byte in flight (R241, R253) -/

/-- A window where no line operation fails: chip select is asserted, a byte in flight clocked out, the list exchanged. -/
theorem window_clockOut {bytes : List Byte} (hb : bytes ≠ []) {s : State} (q : Quiet s) (hm : maskSound s.se = true) :
    window bytes s = .ok (slotBytes bytes (clockOut (csDriven false s)))
      (csDriven true (afterBytes bytes (clockOut (csDriven false s)))) := by
  have q1 : Quiet (csDriven false s) := q.tail rfl
  rw [window, drive_csN_quiet q, Res.bind_ok, xfer_clockOut hb q1 hm]
  simp only [Xfer.raise, Res.bind_ok]
  rw [drive_csN_quiet (afterBytes_quiet (clockOut_quiet q1) bytes)]
  rfl

/-- The window ends, with chip select high and the engine at rest. -/
theorem window_ends {bytes : List Byte} (hb : bytes ≠ []) {s : State} (q : Quiet s) (hm : maskSound s.se = true) :
    ∃ frame t, window bytes s = .ok frame t ∧ Windowed s t := by
  have h := window_spec hb s
  rw [window_clockOut hb q hm] at h
  exact ⟨_, _, window_clockOut hb q hm, h.1⟩

/-- The state a window leaves of `s`, the engine ending with the link of `l`, `es` being the events between those of chip
select and `k` the draws they use up. -/
def windowedTo (l : State) (es : List Event) (k : Nat) (s : State) : State :=
  csDriven true (clockedTo l es k (csDriven false s))

theorem windowedTo_after_clockedTo (l l' : State) (bits es : List Event) (j k : Nat) (e : ResultCode) (s : State) :
    windowedTo l' (bits ++ es) (j + k) s =
      { windowedTo l' es k (answer e (clockedTo l bits j s)) with
        evt := s.evt ++ [Event.drive .csN false] ++ bits ++ (es ++ [Event.drive .csN true]), rspCode := s.rspCode } := by
  have hdraws : ((s.lineDraws.tail).drop (j + k)).tail = (((s.lineDraws.drop j).tail).drop k).tail := by
    simp only [← List.drop_one, List.drop_drop]
    congr 1
    omega
  simp only [windowedTo, clockedTo, csDriven, answer, hdraws, List.append_assoc]

/-- A window ends in the state in which it ends after the byte in flight has been clocked out, but for the event log, where
the remaining bits stand behind the assertion of chip select (R253). -/
theorem window_after_clockOut {bytes : List Byte} (hb : bytes ≠ []) {s : State} (q : Quiet s) (hm : maskSound s.se = true)
    (e : ResultCode) :
    ∃ (bits rest : List Event) (frame : List Byte) (t : State), (clockOut s).evt = s.evt ++ bits ∧
      window bytes (answer e (clockOut s)) = .ok frame t ∧
      t.evt = s.evt ++ bits ++ [Event.drive .csN false] ++ rest ∧
      window bytes s = .ok frame
        { t with evt := s.evt ++ [Event.drive .csN false] ++ bits ++ rest, rspCode := s.rspCode } := by
  obtain ⟨bits, j, hout⟩ := clockOut_onLink s
  obtain ⟨es, k, hafter⟩ := afterBytes_onLink bytes (clockOut s)
  have hidle : (answer e (clockOut s)).se = .idle := clockOut_se q hm
  have hlate : window bytes (answer e (clockOut s)) = .ok (slotBytes bytes (csDriven false (answer e (clockOut s))))
      (windowedTo (afterBytes bytes (clockOut s)) es k (answer e (clockOut s))) := by
    have hq : Quiet (answer e (clockOut s)) := (clockOut_quiet q).same rfl
    have hsound : maskSound (answer e (clockOut s)).se = true := by rw [hidle]; rfl
    have hlow : clockOut (csDriven false (answer e (clockOut s))) = csDriven false (answer e (clockOut s)) :=
      clockOut_idle hidle
    rw [window_clockOut hb hq hsound, hlow,
      hafter (csDriven false (answer e (clockOut s))) ⟨rfl, rfl, rfl, rfl, rfl, rfl⟩]
    rfl
  have hearly : window bytes s = .ok (slotBytes bytes (csDriven false (answer e (clockOut s))))
      (windowedTo (afterBytes bytes (clockOut s)) (bits ++ es) (j + k) s) := by
    rw [window_clockOut hb q hm, hout (csDriven false s) ⟨rfl, rfl, rfl, rfl, rfl, rfl⟩,
      hafter _ (sameLink_clockedTo ..), clockedTo_clockedTo]
    exact congrArg (Res.ok · _) (slotBytes_congr _ rfl rfl)
  have hs : clockOut s = clockedTo (clockOut s) bits j s := hout s (.refl s)
  have hevt : (clockOut s).evt = s.evt ++ bits := congrArg (·.evt) hs
  refine ⟨bits, es ++ [.drive .csN true], _, _, hevt, hlate, ?_, hearly.trans (congrArg _ ?_)⟩
  · simp [windowedTo, csDriven, clockedTo, hevt]
  · rw [windowedTo_after_clockedTo (clockOut s) _ _ _ _ _ e, ← hs]

/-! ## Frames as windows (R241 to R244) -/

/-- The bytes a framer command sends in its window, in a given state (R102). -/
def frameBytes (i : Instr) (s : State) : List Byte :=
  match i with
  | .frRead addr len => readFrame s.curMode addr len.toNat
  | .frWrite addr len =>
    writeFrame addr (payload len.toNat s) (trailerOf (writeMode s.curMode) (addr :: payload len.toNat s))
  | .frRaw len => payload len.toNat s
  | _ => []

/-- The state in which its window begins: the responses cleared, the accumulator of a register frame fed (R242, R243). -/
def framePrepared (i : Instr) (s : State) : State :=
  match i with
  | .frRead addr _ => { clearResponses s with ckMode := s.curMode, ckState := checksumOf s.curMode [readAddress addr] }
  | .frWrite addr len =>
    { clearResponses s with
      ckMode := writeMode s.curMode, ckState := checksumOf (writeMode s.curMode) (addr :: payload len.toNat s) }
  | _ => clearResponses s

/-- What it does with what it received: check it, discard it, or lay it over the buffer (R242 to R244). -/
def frameEnd (i : Instr) (m : ChecksumMode) (frame : List Byte) (t : State) : Res (Option Byte) :=
  match i with
  | .frRead _ len => verifyRead m len.toNat frame t
  | .frRaw _ => .ok none { t with buf := overlay frame t.buf }
  | _ => .ok none t

theorem lenLegal_ne_zero {len : BitVec 4} (h : lenLegal len = true) : len ≠ 0 := by
  simpa [lenLegal] using h

theorem frameBytes_ne_nil {i : Instr} (hi : frames i = true) (hw : i.wf = true) (s : State) : frameBytes i s ≠ [] := by
  cases i with
  | frRead addr len => simp [frameBytes, readFrame]
  | frWrite addr len => simp [frameBytes, writeFrame]
  | frRaw len => exact payload_ne_nil (lenLegal_ne_zero hw) s
  | _ => cases hi

/-- A raw frame where no line operation fails is a window whose bytes are laid over the buffer (R244). -/
theorem rawTransaction_window {n : Nat} {s : State} (hp : payload n s ≠ []) (q : Quiet s) (hm : maskSound s.se = true) :
    rawTransaction n s =
      (window (payload n s) s).bind fun frame t => .ok none { t with buf := overlay frame t.buf } := by
  have q1 : Quiet (csDriven false s) := q.tail rfl
  have q2 := afterBytes_quiet (clockOut_quiet q1) (payload n s)
  have hp1 : payload n (csDriven false s) ≠ [] := hp
  have hpay : payload n (csDriven false s) = payload n s := rfl
  have hbuf : (afterBytes (payload n s) (clockOut (csDriven false s))).buf = s.buf :=
    ((afterBytes_onLink _).buf _).trans (clockOut_onLink.buf (csDriven false s))
  rw [window_clockOut hp q hm, rawTransaction, drive_csN_quiet q, Res.bind_ok, xferBuf_clockOut hp1 q1 hm, hpay, Res.bind_ok,
    drive_csN_overlay, drive_csN_quiet q2, Res.bind_ok, Res.bind_ok, csDriven_buf, csDriven_buf, hbuf]

/-- A framer command where no line operation fails: its window, and what it does with what it received (R241 to R244). -/
theorem exec_frame {i : Instr} (hi : frames i = true) (hw : i.wf = true) {s : State} (hf : s.faulted = false) (q : Quiet s)
    (hm : maskSound s.se = true) :
    exec i s = .next ((window (frameBytes i s) (framePrepared i s)).bind (frameEnd i s.curMode)).reported := by
  cases i with
  | frRead addr len =>
    have hlen : lenLegal len = true := hw
    rw [exec_frRead, command_reported _ hf hlen, readTransaction_window]
    rfl
  | frWrite addr len =>
    have hlen : lenLegal len = true := hw
    rw [exec_frWrite, command_reported _ hf hlen, writeTransaction_window, ckResult_writeChecksum, writeChecksum_eq]
    rfl
  | frRaw len =>
    have qc : Quiet (clearResponses s) := q.same rfl
    have hlen : lenLegal len = true := hw
    have hp : payload len.toNat (clearResponses s) ≠ [] := payload_ne_nil (lenLegal_ne_zero hlen) _
    rw [exec_frRaw, command_reported _ hf hlen, rawTransaction_window hp qc hm]
    rfl
  | _ => cases hi

/-- What a frame's end reports does not depend on the log or on the last result code. -/
theorem frameEnd_relogged (i : Instr) (m : ChecksumMode) (frame : List Byte) (t : State) (es : List Event) (e : ResultCode) :
    (frameEnd i m frame { t with evt := es, rspCode := e }).reported =
      { (frameEnd i m frame t).reported with evt := es } := by
  cases i with
  | frRead addr len =>
    simp only [frameEnd, verifyRead_eq]
    -- whether the mode has a checksum, and whether it is the trailer
    split <;> split <;> rfl
  | _ => rfl

/-- What a frame's end makes of the state its window left: `OK` or a checksum mismatch is answered, and the engine, the
clock, `FAULTED` and the log stay (R242 to R244). -/
structure FrameEnded (s t : State) : Prop where
  code : t.rspCode = .ok ∨ t.rspCode = .checksumMismatch
  se : t.se = s.se
  rxp : t.rxp = s.rxp
  sck : t.sck = s.sck
  faulted : t.faulted = s.faulted
  evt : t.evt = s.evt

/-- The end may write the buffer, the checksum and the responses. -/
theorem frameEnded_written (t : State) (buf : Vector Byte 15) (c : Byte) {code : ResultCode} (data x r : Option Byte)
    (h : code = .ok ∨ code = .checksumMismatch) :
    FrameEnded t { t with buf := buf, ckState := c, rspCode := code, rspData := data, rspExp := x, rspRcv := r } :=
  ⟨h, rfl, rfl, rfl, rfl, rfl⟩

theorem frameEnd_ended (i : Instr) (m : ChecksumMode) (frame : List Byte) (t : State) :
    FrameEnded t (frameEnd i m frame t).reported := by
  cases i with
  | frRead addr len =>
    obtain ⟨buf, c, h | ⟨expected, received, h⟩⟩ := verifyRead_cases m len.toNat frame t <;> rw [frameEnd, h]
    · exact frameEnded_written t buf c none t.rspExp t.rspRcv (.inl rfl)
    · exact frameEnded_written t buf c t.rspData expected received (.inr rfl)
  | frRaw len => exact frameEnded_written t (overlay frame t.buf) t.ckState none t.rspExp t.rspRcv (.inl rfl)
  | _ => exact frameEnded_written t t.buf t.ckState none t.rspExp t.rspRcv (.inl rfl)

theorem framePrepared_se (i : Instr) (s : State) : (framePrepared i s).se = s.se := by cases i <;> rfl
theorem framePrepared_faulted (i : Instr) (s : State) : (framePrepared i s).faulted = s.faulted := by cases i <;> rfl
theorem framePrepared_evt (i : Instr) (s : State) : (framePrepared i s).evt = s.evt := by cases i <;> rfl

theorem framePrepared_quiet (i : Instr) {s : State} (q : Quiet s) : Quiet (framePrepared i s) :=
  q.same (by cases i <;> rfl)

theorem framePrepared_sameLink (i : Instr) (s : State) : SameLink s (framePrepared i s) := by
  cases i <;> exact ⟨rfl, rfl, rfl, rfl, rfl, rfl⟩

theorem frameBytes_clockedTo (i : Instr) (l : State) (es : List Event) (k : Nat) (s : State) :
    frameBytes i (responded (clockedTo l es k s)) = frameBytes i s := by
  cases i <;> rfl

theorem framePrepared_clockedTo (i : Instr) (l : State) (es : List Event) (k : Nat) (s : State) :
    framePrepared i (responded (clockedTo l es k s)) = answer .ok (clockedTo l es k (framePrepared i s)) := by
  cases i <;> rfl

/-- A framer command where no line operation fails ends, with `OK` or a checksum mismatch (R140, R105). -/
theorem exec_frame_ends {i : Instr} (hi : frames i = true) (hw : i.wf = true) {s : State} (hf : s.faulted = false)
    (q : Quiet s) (hm : maskSound s.se = true) :
    ∃ t, exec i s = .next t ∧ (t.rspCode = .ok ∨ t.rspCode = .checksumMismatch) ∧ t.se = .idle ∧ t.rxp = none ∧
      t.sck = true ∧ t.faulted = false := by
  obtain ⟨frame, u, hwin, hu⟩ := window_ends (frameBytes_ne_nil hi hw s) (framePrepared_quiet i q)
    ((framePrepared_se i s).symm ▸ hm)
  obtain ⟨hse, hrxp, hsck⟩ := hu.atRest
  have hend := frameEnd_ended i s.curMode frame u
  have hfaulted : u.faulted = false := hu.faulted.trans ((framePrepared_faulted i s).trans hf)
  have hexec := exec_frame hi hw hf q hm
  rw [hwin, Res.bind_ok] at hexec
  exact ⟨_, hexec, hend.code, hend.se.trans hse, hend.rxp.trans hrxp, hend.sck.trans hsck, hend.faulted.trans hfaulted⟩

/-- What sixteen ticks do to the start of a frame: the bytes are the same, and the window begins in the state in which the
byte in flight has been clocked out (R140). -/
theorem framePrepared_execTicks (i : Instr) {s : State} (hf : s.faulted = false) (q : Quiet s)
    (hm : maskSound s.se = true) :
    frameBytes i (execTicks 16 s) = frameBytes i s ∧ (execTicks 16 s).curMode = s.curMode ∧
      (execTicks 16 s).faulted = false ∧ framePrepared i (execTicks 16 s) = answer .ok (clockOut (framePrepared i s)) := by
  obtain ⟨es, k, hout⟩ := clockOut_onLink s
  have hticks : execTicks 16 s = responded (clockedTo (clockOut s) es k s) := by
    rw [execTicks_clockOut hf q hm, ← hout s (.refl s)]
  rw [hticks, frameBytes_clockedTo, framePrepared_clockedTo, hout _ (framePrepared_sameLink i s)]
  exact ⟨rfl, rfl, hf, rfl⟩

/-- A framer command with a byte in flight ends as it ends after sixteen ticks, but for the event log (R253). -/
theorem exec_frame_execTicks {i : Instr} (hi : frames i = true) (hw : i.wf = true) {s t u : State} (hf : s.faulted = false)
    (q : Quiet s) (hm : maskSound s.se = true) (ht : exec i s = .next t) (hu : exec i (execTicks 16 s) = .next u) :
    ∃ bits rest : List Event, (execTicks 16 s).evt = s.evt ++ bits ∧
      u.evt = s.evt ++ bits ++ [Event.drive .csN false] ++ rest ∧
      t = { u with evt := s.evt ++ [Event.drive .csN false] ++ bits ++ rest } := by
  obtain ⟨hbytes, hcur, hfaulted, hprepared⟩ := framePrepared_execTicks i hf q hm
  have hout := execTicks_clockOut hf q hm
  have hq : Quiet (execTicks 16 s) := hout ▸ (clockOut_quiet q).same rfl
  have hidle : (execTicks 16 s).se = .idle := hout ▸ clockOut_se q hm
  have hm' : maskSound (framePrepared i s).se = true := (framePrepared_se i s).symm ▸ hm
  obtain ⟨bits, rest, frame, w, hbits, hlate, hwevt, hearly⟩ :=
    window_after_clockOut (frameBytes_ne_nil hi hw s) (framePrepared_quiet i q) hm' .ok
  rw [framePrepared_evt] at hbits hwevt hearly
  have hevt : (execTicks 16 s).evt = s.evt ++ bits := by
    rw [← framePrepared_evt i, hprepared]
    exact hbits
  rw [exec_frame hi hw hf q hm, hearly, Res.bind_ok, frameEnd_relogged] at ht
  rw [exec_frame hi hw hfaulted hq (by rw [hidle]; rfl), hprepared, hbytes, hcur, hlate, Res.bind_ok] at hu
  cases hu
  cases ht
  exact ⟨bits, rest, hevt, (frameEnd_ended i s.curMode frame w).evt.trans hwevt, rfl⟩

/-! ## No transfer reports blocking (R140, R333) -/

/-- However `r` ends, it does not raise `WOULD_BLOCK` or `EXHAUSTED`. -/
def Res.NeverBlocks {α : Type} (r : Res α) : Prop :=
  r.Sat (fun _ _ => True) (fun e _ => e ≠ .wouldBlock ∧ e ≠ .exhausted)

theorem Res.NeverBlocks.bind {α β : Type} {r : Res α} {k : α → State → Res β} (h : r.NeverBlocks)
    (hk : ∀ a t, (k a t).NeverBlocks) : (r.bind k).NeverBlocks :=
  Res.Sat.bind h fun a t _ => hk a t

theorem Stopped.neverBlocks {e : ResultCode} {s t : State} (h : Stopped e s t) : e ≠ .wouldBlock ∧ e ≠ .exhausted := by
  rcases h.why with hline | ⟨rfl, -⟩
  · rw [hline.code]
    exact ⟨nofun, nofun⟩
  · exact ⟨nofun, nofun⟩

theorem drive_csN_neverBlocks (b : Level) (s : State) : (drive .csN b s).NeverBlocks :=
  (drive_csN_spec b s).mono (fun _ _ _ => trivial) fun e t h => by rw [h.code]; exact ⟨nofun, nofun⟩

theorem xfer_raise_neverBlocks (bytes : List Byte) (s : State) : (xfer bytes s).raise.NeverBlocks :=
  (xfer_raise_spec bytes s).mono (fun _ _ _ => trivial) fun _ _ h => h.neverBlocks

theorem xferBuf_neverBlocks (n : Nat) (s : State) : (xferBuf n s).NeverBlocks :=
  (xferBuf_spec n s).mono (fun _ _ _ => trivial) fun _ _ ⟨_, _, _, _, h⟩ => h.neverBlocks

theorem verifyRead_neverBlocks (m : ChecksumMode) (n : Nat) (frame : List Byte) (s : State) :
    (verifyRead m n frame s).NeverBlocks := by
  obtain ⟨buf, c, h | ⟨expected, received, h⟩⟩ := verifyRead_cases m n frame s <;> rw [h]
  · exact trivial
  · exact ⟨nofun, nofun⟩

/-- Every transfer has a legality and a rule, and the rule never blocks. -/
theorem exec_transfer_neverBlocks {i : Instr} (hi : transfers i = true) :
    ∃ legal rule, (∀ s, exec i s = command legal rule s) ∧ ∀ s, (rule s).NeverBlocks := by
  cases i with
  | seXfer len => exact ⟨_, _, exec_seXfer len, fun s => (xferBuf_neverBlocks _ s).bind fun _ _ => trivial⟩
  | frRaw len =>
    exact ⟨_, _, exec_frRaw len, fun s => (drive_csN_neverBlocks _ s).bind fun _ _ => (xferBuf_neverBlocks _ _).bind
      fun _ _ => (drive_csN_neverBlocks _ _).bind fun _ _ => trivial⟩
  | frRead addr len =>
    exact ⟨_, _, exec_frRead addr len, fun s => (drive_csN_neverBlocks _ _).bind fun _ _ => (xfer_raise_neverBlocks _ _).bind
      fun _ _ => (drive_csN_neverBlocks _ _).bind fun _ _ => verifyRead_neverBlocks _ _ _ _⟩
  | frWrite addr len =>
    exact ⟨_, _, exec_frWrite addr len, fun s => (drive_csN_neverBlocks _ _).bind fun _ _ =>
      (xfer_raise_neverBlocks _ _).bind fun _ _ => (drive_csN_neverBlocks _ _).bind fun _ _ => trivial⟩
  | _ => cases hi

/-! ## What clocks no byte leaves of the link (R27, R134, R395) -/

/-- What instruction `i`, which clocks no byte, leaves as it was in `s`: the lines, the log, the peer and the draws, and the
engine and the published byte with the exceptions of `SE_SEND` and `SE_READ`. -/
structure LeavesLink (i : Instr) (s t : State) : Prop where
  sck : t.sck = s.sck
  mosi : t.mosi = s.mosi
  csN : t.csN = s.csN
  evt : t.evt = s.evt
  miso : t.miso = s.miso
  samples : t.samples = s.samples
  lineDraws : t.lineDraws = s.lineDraws
  faulted : t.faulted = s.faulted
  se : (∀ b, i ≠ .seSend b) → t.se = s.se
  rxp : (∀ b, i ≠ .seSend b) → i ≠ .seRead → t.rxp = s.rxp

/-- The accumulator, the mode, the buffer and the responses are not of the link. -/
theorem leavesLink_offLink (i : Instr) (s : State) (m : ChecksumMode) (c : Byte) (cur : ChecksumMode) (buf : Vector Byte 15)
    (e : ResultCode) (d x r : Option Byte) :
    LeavesLink i s { s with
      ckMode := m, ckState := c, curMode := cur, buf := buf, rspCode := e, rspData := d, rspExp := x, rspRcv := r } :=
  ⟨rfl, rfl, rfl, rfl, rfl, rfl, rfl, rfl, fun _ => rfl, fun _ _ => rfl⟩

theorem LeavesLink.refl (i : Instr) (s : State) : LeavesLink i s s := leavesLink_offLink i s _ _ _ _ _ _ _ _

theorem LeavesLink.trans {i : Instr} {s t u : State} (h : LeavesLink i s t) (k : LeavesLink i t u) : LeavesLink i s u where
  sck := k.sck.trans h.sck
  mosi := k.mosi.trans h.mosi
  csN := k.csN.trans h.csN
  evt := k.evt.trans h.evt
  miso := k.miso.trans h.miso
  samples := k.samples.trans h.samples
  lineDraws := k.lineDraws.trans h.lineDraws
  faulted := k.faulted.trans h.faulted
  se := fun hi => (k.se hi).trans (h.se hi)
  rxp := fun hi hr => (k.rxp hi hr).trans (h.rxp hi hr)

/-- However `r` ends, it leaves the link of `s`. -/
def Res.LeavesLink {α : Type} (i : Instr) (s : State) (r : Res α) : Prop :=
  r.Sat (fun _ t => Machine.LeavesLink i s t) (fun _ t => Machine.LeavesLink i s t)

/-- Every command that clocks no byte has a legality and a rule, and the rule leaves the link. -/
theorem exec_command_leavesLink {i : Instr} (hc : commands i = true) (hk : clocks i = false) :
    ∃ legal rule, (∀ s, exec i s = command legal rule s) ∧ ∀ s, (rule s).LeavesLink i s := by
  cases i with
  | seSend b =>
    refine ⟨_, _, exec_seSend b, fun s => ?_⟩
    split
    · rename_i s1 hs
      obtain rfl := send_eq_some hs
      exact ⟨rfl, rfl, rfl, rfl, rfl, rfl, rfl, rfl, fun hi => absurd rfl (hi b), fun hi => absurd rfl (hi b)⟩
    · exact LeavesLink.refl _ s
  | seRead =>
    refine ⟨_, _, exec_seRead, fun s => ?_⟩
    split
    · rename_i v s1 hs
      obtain rfl := read_eq_byte hs
      exact ⟨rfl, rfl, rfl, rfl, rfl, rfl, rfl, rfl, fun _ => rfl, fun _ hi => absurd rfl hi⟩
    · exact LeavesLink.refl _ s
    · exact LeavesLink.refl _ s
  | ckNew m => exact ⟨_, _, exec_ckNew m, fun s => leavesLink_offLink _ s _ _ _ _ _ _ _ _⟩
  | ckFeed b => exact ⟨_, _, exec_ckFeed b, fun s => leavesLink_offLink _ s _ _ _ _ _ _ _ _⟩
  | ckResult => exact ⟨_, _, exec_ckResult, fun s => LeavesLink.refl _ s⟩
  | frSetMode m => exact ⟨_, _, exec_frSetMode m, fun s => leavesLink_offLink _ s _ _ _ _ _ _ _ _⟩
  | frGetMode => exact ⟨_, _, exec_frGetMode, fun s => LeavesLink.refl _ s⟩
  | bufWr idx b => exact ⟨_, _, exec_bufWr idx b, fun s => leavesLink_offLink _ s _ _ _ _ _ _ _ _⟩
  | bufRd idx => exact ⟨_, _, exec_bufRd idx, fun s => LeavesLink.refl _ s⟩
  | wireReadAddr addr => cases hc
  | wireWriteAddr addr => cases hc
  | _ => cases hk

/-- An instruction that clocks no byte leaves the link, however it ends. -/
theorem exec_leavesLink {i : Instr} (hk : clocks i = false) {s t : State} (h : exec i s = .next t) : LeavesLink i s t := by
  rcases exec_cases i with ⟨hc, -⟩ | ⟨-, hwire⟩
  · obtain ⟨legal, rule, hexec, hrule⟩ := exec_command_leavesLink hc hk
    have hr := hrule (clearResponses s)
    have hcleared : LeavesLink i s (clearResponses s) := leavesLink_offLink i s _ _ _ _ _ _ _ _
    rw [hexec] at h
    rcases command_cases h with ⟨-, rfl⟩ | ⟨-, -, ⟨d, u, hu, rfl⟩ | ⟨e, u, hu, rfl⟩⟩
    · exact leavesLink_offLink i s _ _ _ _ _ _ _ _
    · rw [hu] at hr
      exact (hcleared.trans hr).trans (leavesLink_offLink i u _ _ _ _ _ _ _ _)
    · rw [hu] at hr
      exact (hcleared.trans hr).trans (leavesLink_offLink i u _ _ _ _ _ _ _ _)
  · rw [hwire] at h
    cases h
    exact .refl i s

/-! ## The statements -/

/-- Settles O13, by the two ends of `send`. -/
theorem seSendStartsOrBlocks : Obligations.SeSendStartsOrBlocks := by
  intro byte s hf
  refine ⟨fun hs => ?_, fun hs => ?_⟩
  · rw [exec_seSend, command_reported _ hf rfl, send_idle (s := clearResponses s) byte hs]
    rfl
  · rw [exec_seSend, command_reported _ hf rfl, send_xfer (s := clearResponses s) byte hs]
    rfl

/-- Settles O15, by the three ends of `read`. -/
theorem seReadThreeOutcomes : Obligations.SeReadThreeOutcomes := by
  intro s hf
  refine ⟨fun hs => ?_, fun v hs hv => ?_, fun hs hv => ?_⟩
  · rw [exec_seRead, command_reported _ hf rfl, read_xfer (s := clearResponses s) hs]
    rfl
  · rw [exec_seRead, command_reported _ hf rfl, read_published (s := clearResponses s) hs hv]
    rfl
  · rw [exec_seRead, command_reported _ hf rfl, read_exhausted (s := clearResponses s) hs hv]
    rfl

/-- Settles O14: a tick is a half-phase, unless the mask is an impossible one. -/
theorem seTickHalfPhases : Obligations.SeTickHalfPhases := by
  intro s hf q
  refine ⟨fun hs => ?_, fun mask tx rx hs hmask => ?_, fun mask tx rx hs hmask => ?_, fun phase mask tx rx hs hmask => ?_⟩
  · rw [exec_seTick_quiet hf q (by rw [hs]; rfl), halfPhase_idle hs]
    rfl
  · rw [exec_seTick_quiet hf q (by rw [hs]; exact hmask), halfPhase_setup hs]
    rfl
  · rw [exec_seTick_quiet hf q (by rw [hs]; exact hmask), halfPhase_sample hs]
    rfl
  · rw [exec_seTick_badMask hf (by rw [hs]; exact hmask)]
    rfl

/-- Settles O16: sixteen ticks are the half-phases that `clockOut_sent` counts, from the state `SE_SEND` leaves. -/
theorem sixteenTicksMoveOneByte : Obligations.SixteenTicksMoveOneByte := by
  intro byte s hf q hs
  obtain ⟨hidle, hrxp, hevt⟩ := clockOut_sent q hs byte
  have hmask : ∀ j < 8, ((0x80 >>> j : Nat) : Byte) = (0x80 : Byte) >>> j := by decide
  have hticks : ∀ k, execTicks k (responded (sent byte s)) = responded (halfPhase^[k] (sent byte s)) :=
    execTicks_responded hf (q.same rfl) rfl
  refine ⟨responded (sent byte s), (seSendStartsOrBlocks byte s hf).1 hs, fun k hk => ?_, ?_, ?_, ?_⟩
  · obtain ⟨rx, hrx⟩ := iterate_halfPhase_atHalfPhase (byte := byte) (s := sent byte s) ⟨0, rfl⟩ hk
    refine ⟨rx, ?_⟩
    rw [hticks, hmask _ (by omega)]
    exact hrx
  all_goals rw [hticks, ← clockOut_eq]
  exacts [hidle, hrxp, hevt]

/-- Settles O18: `SE_XFER` begins with the sixteen ticks, and a framer command's window moves their bits behind the
assertion of chip select. -/
theorem transferFirstClocksOutByteInFlight : Obligations.TransferFirstClocksOutByteInFlight := by
  intro s hf q
  refine ⟨fun len hl => exec_seXfer_execTicks hl hf q, fun i t u hi hw hl ht hu => ?_⟩
  exact exec_frame_execTicks hi hw hf q (maskSound_of_engineLegal hl) ht hu

/-- Settles O19: a refused transfer answers another code, and the rule of one that runs never blocks. -/
theorem transfersNeverReportBlocking : Obligations.TransfersNeverReportBlocking := by
  intro i s t hi h
  obtain ⟨legal, rule, hexec, hrule⟩ := exec_transfer_neverBlocks hi
  have hr := hrule (clearResponses s)
  rw [hexec] at h
  rcases command_cases h with ⟨-, rfl⟩ | ⟨-, -, ⟨d, u, hu, rfl⟩ | ⟨e, u, hu, rfl⟩⟩
  · cases hf : s.faulted <;> simp [refuseWord, hf]
  · exact ⟨nofun, nofun⟩
  · rw [hu] at hr
    exact hr

/-- Settles O20: a legal engine has a possible mask, so the byte in flight is clocked out and the transfer goes through. -/
theorem transfersEndFromAnyEngineState : Obligations.TransfersEndFromAnyEngineState := by
  intro i s hi hf q hl hlen
  have hm := maskSound_of_engineLegal hl
  cases i with
  | seXfer len =>
    have h0 := hlen len (.inl rfl)
    obtain ⟨hse, hrxp, hsck, hfaulted⟩ := afterBytes_atRest (payload_ne_nil h0 s) (clockOut s)
    exact ⟨_, exec_seXfer_quiet h0 hf q hm, .inl rfl, hse, hrxp, hsck, hfaulted.trans ((clockOut_onLink.faulted s).trans hf)⟩
  | frRaw len => exact exec_frame_ends (i := .frRaw len) rfl (lenLegal_of_ne (hlen len (by simp))) hf q hm
  | frRead addr len => exact exec_frame_ends (i := .frRead addr len) rfl (lenLegal_of_ne (hlen len (by simp))) hf q hm
  | frWrite addr len => exact exec_frame_ends (i := .frWrite addr len) rfl (lenLegal_of_ne (hlen len (by simp))) hf q hm
  | _ => cases hi

/-- Settles O43, from what every instruction that clocks no byte leaves of the link. -/
theorem otherCommandsLeaveTheLink : Obligations.OtherCommandsLeaveTheLink := by
  intro i s t hk h
  have hl := exec_leavesLink hk h
  exact ⟨hl.sck, hl.mosi, hl.csN, hl.evt, hl.miso, hl.samples, hl.lineDraws, hl.faulted, fun hi => ⟨hl.se hi, hl.rxp hi⟩⟩

/-- Settles O17: from an idle engine there is nothing to clock out first. -/
theorem seXferExchangesBuffer : Obligations.SeXferExchangesBuffer := by
  intro len s hl hf q hs
  rw [exec_seXfer_quiet hl hf q (by rw [hs]; rfl), clockOut_idle hs]

end Sys2Proof.Machine
end

section
/-! PROOFS. The statements about the checksum accumulator (spec/41_checksum.md): the CRC's arithmetic, from how a shift
moves a byte that is still to be fed; the laws of lists, which are those of a left fold; and what a host reads that issues
the three commands, from each command's exact result and the words it is issued as. -/

namespace Sys2Proof.Machine

/-! ## The CRC bit by bit and byte by byte (R171, R173) -/

/-- The bits of a byte are fed in link order, most significant first (R171, R63). -/
theorem crcByte_eq_foldl_byteBits (c byte : Byte) : crcByte c byte = (byteBits byte).foldl crcBit c := by
  rw [byteBits, List.foldl_map]
  rfl

/-- Shifting with the whole byte XORed in takes in its top bit and leaves its other bits XORed in, one place up: whether
0x07 is XORed in depends on the two top bits alone, and the shift distributes over the XOR. -/
theorem crcShift_xor (c byte : Byte) : crcShift (c ^^^ byte) = crcBit c (byte.getLsbD 7) ^^^ (byte <<< 1) := by
  have htop : (c ^^^ byte).getLsbD 7 = (byte.getLsbD 7 != c.getLsbD 7) := by rw [BitVec.getLsbD_xor, Bool.xor_comm]
  rw [crcShift, crcBit, htop, BitVec.shiftLeft_xor_distrib]
  split
  · ac_rfl
  · rfl

/-- The byte-wise form of R173: after eight shifts nothing of the byte is left to be taken in. -/
theorem crcByte_eq_crcBytewise (c byte : Byte) : crcByte c byte = crcBytewise c byte := by
  have hbit : ∀ k ≤ 7, (byte <<< k).getLsbD 7 = byte.getLsbD (7 - k) := fun k hk => by
    rw [BitVec.getLsbD_shiftLeft]
    simp [Nat.not_lt.mpr hk, -BitVec.getLsbD_eq_getElem]
  have hgone : byte <<< 8 = 0#8 := BitVec.shiftLeft_eq_zero (Nat.le_refl 8)
  simp only [crcBytewise, crcShift_xor, ← BitVec.shiftLeft_add, Nat.reduceAdd, hgone, BitVec.xor_zero]
  simp only [hbit, crcByte, List.foldl, Nat.reduceLeDiff, Nat.reduceSub]

theorem feedByte_crc (c byte : Byte) : feedByte .crc c byte = crcBytewise c byte := crcByte_eq_crcBytewise c byte

/-- The byte-wise form sees the state and the byte through their XOR only (R173, R174). -/
theorem crcBytewise_zero_xor (c byte : Byte) : crcBytewise c byte = crcBytewise 0 (byte ^^^ c) := by
  have hstart : c ^^^ byte = 0 ^^^ (byte ^^^ c) := by rw [BitVec.xor_comm c]; exact BitVec.zero_xor.symm
  rw [crcBytewise, hstart]
  rfl

/-! ## The checksum of a list (R174) -/

theorem checksumOf_append (m : ChecksumMode) (bs cs : List Byte) :
    checksumOf m (bs ++ cs) = cs.foldl (feedByte m) (checksumOf m bs) := List.foldl_append

/-- The XOR checksum is the fold of the exclusive or, which is commutative and associative. -/
theorem checksumOf_xor (bytes : List Byte) : checksumOf .xor bytes = bytes.foldr (· ^^^ ·) 0 := by
  change bytes.foldl (· ^^^ ·) 0 = _
  exact List.foldl_eq_foldr

theorem checksumOf_xor_perm {bs cs : List Byte} (h : bs.Perm cs) : checksumOf .xor bs = checksumOf .xor cs := by
  rw [checksumOf_xor, checksumOf_xor]
  exact h.foldr_eq 0

/-! ## The commands (R170 to R172) -/

/-- `CK_NEW` in an unfaulted block (R170). -/
theorem exec_ckNew_unfaulted (m : ChecksumMode) {s : State} (hf : s.faulted = false) :
    exec (.ckNew m) s = .next (answerData none (ckNew m (clearResponses s))) :=
  (exec_ckNew m s).trans (command_ok hf rfl)

/-- `CK_FEED` in an unfaulted block (R171). -/
theorem exec_ckFeed_unfaulted (byte : Byte) {s : State} (hf : s.faulted = false) :
    exec (.ckFeed byte) s = .next (answerData none (ckFeed byte (clearResponses s))) :=
  (exec_ckFeed byte s).trans (command_ok hf rfl)

/-- `CK_RESULT` in an unfaulted block (R172). -/
theorem exec_ckResult_unfaulted {s : State} (hf : s.faulted = false) :
    exec .ckResult s = .next (answerData (ckResult s) (clearResponses s)) :=
  (exec_ckResult s).trans (command_ok hf rfl)

/-! ## The words a host issues them as (R90, R93, R97) -/

/-- A field above the low part of an append is a field of the high part. -/
theorem field_above {v w start n : Nat} {high : BitVec v} (low : BitVec w) {field : BitVec n}
    (hf : high.extractLsb' (start - w) n = field) (h : w ≤ start := by decide) :
    (high ++ low).extractLsb' start n = field :=
  (BitVec.extractLsb'_append_eq_of_le h).trans hf

/-- A word built from its fields reads back as those fields, with the reserved bits 0 (R90): each field is the low end of
what is left once the fields below it are passed over, and `RSV1` is all that is left. -/
theorem fields_commandWord (op : BitVec 4) (mode : BitVec 2) (byte : Byte) (len : BitVec 4) :
    opField (commandWord op mode byte len) = op ∧ modeField (commandWord op mode byte len) = mode ∧
    rsv0Field (commandWord op mode byte len) = 0 ∧ byteField (commandWord op mode byte len) = byte ∧
    lenField (commandWord op mode byte len) = len ∧ rsv1Field (commandWord op mode byte len) = 0 := by
  have low {v w : Nat} {high : BitVec v} {field : BitVec w} : (high ++ field).extractLsb' 0 w = field :=
    BitVec.extractLsb'_append_eq_right
  refine ⟨low, ?_, ?_, ?_, ?_, ?_⟩
  · exact field_above op low
  · exact field_above op (field_above mode low)
  · exact field_above op (field_above mode (field_above 0 low))
  · exact field_above op (field_above mode (field_above 0 (field_above byte low)))
  · exact field_above op (field_above mode (field_above 0 (field_above byte BitVec.extractLsb'_append_eq_left)))

/-- Of such a word the decoder sees the fields (R97). -/
theorem decodeCommand_commandWord (op : BitVec 4) (mode : BitVec 2) (byte : Byte) (len : BitVec 4) :
    decodeCommand (commandWord op mode byte len) = decodeFields op mode byte len := by
  obtain ⟨hop, hmode, hrsv0, hbyte, hlen, hrsv1⟩ := fields_commandWord op mode byte len
  rw [decodeCommand, hop, hmode, hrsv0, hbyte, hlen, hrsv1]
  rfl

theorem accept_ckNewWord (m : ChecksumMode) (s : State) :
    accept (.command (commandWord 0x3 (modeCode m) 0 0)) s = exec (.ckNew m) s := by
  rw [accept, decode, decodeCommand_commandWord]
  cases m <;> rfl

theorem accept_ckFeedWord (byte : Byte) (s : State) :
    accept (.command (commandWord 0x4 0 byte 0)) s = exec (.ckFeed byte) s := by
  rw [accept, decode, decodeCommand_commandWord]
  rfl

theorem accept_ckResultWord (s : State) : accept (.command (commandWord 0x5 0 0 0)) s = exec .ckResult s := by
  rw [accept, decode, decodeCommand_commandWord]
  rfl

/-! ## The run of a host that feeds a list (R397) -/

/-- A word with a next state adds its response and hands that state on (R397). -/
theorem responses_runAll_cons {w : CommandWord} {s t : State} (h : accept (.command w) s = .next t)
    (rest : List CommandWord) : (runAll (w :: rest) s).responses = responseOf t :: (runAll rest t).responses := by
  rw [runAll, h]

/-- The last answer of a run is the last one to the words after its first, where they are answered. -/
theorem getLast?_responses_runAll_cons {w : CommandWord} {rest : List CommandWord} {s t : State} {r : Response}
    (h : accept (.command w) s = .next t) (hr : (runAll rest t).responses.getLast? = some r) :
    (runAll (w :: rest) s).responses.getLast? = some r := by
  rw [responses_runAll_cons h, List.getLast?_cons, hr]
  rfl

/-- The feeds of a list and `CK_RESULT` after them, from whatever the accumulator holds: each feed is one step of the
list's fold, and the last answer is the accumulator's result (R171, R172). -/
theorem getLast?_responses_feeds (bytes : List Byte) {s : State} (hf : s.faulted = false) :
    (runAll ((bytes.map fun b => commandWord 0x4 0 b 0) ++ [commandWord 0x5 0 0 0]) s).responses.getLast? =
      some ⟨.ok, ckResult (ckFeedAll bytes s), none, none⟩ := by
  induction bytes generalizing s with
  | nil =>
    have h := (accept_ckResultWord s).trans (exec_ckResult_unfaulted hf)
    exact congrArg List.getLast? (responses_runAll_cons h [])
  | cons b rest ih =>
    have h := (accept_ckFeedWord b s).trans (exec_ckFeed_unfaulted b hf)
    have hend := ih (s := answerData none (ckFeed b (clearResponses s))) hf
    refine getLast?_responses_runAll_cons h (hend.trans ?_)
    simp only [ckResult_eq, ckFeedAll_eq]
    rfl

/-! ## The statements -/

/-- Settles O24: byte by byte, and the check value by computing it. -/
theorem crcEqualsBytewiseForm : Obligations.CrcEqualsBytewiseForm := by
  have hfeed : feedByte .crc = crcBytewise := funext fun c => funext (feedByte_crc c)
  exact ⟨fun bytes c => by rw [hfeed], by decide +kernel⟩

/-- Settles O25: the laws of the exclusive or, and those of the byte-wise CRC. -/
theorem checksumLaws : Obligations.ChecksumLaws := by
  refine ⟨checksumOf_xor, fun _ _ => checksumOf_xor_perm, fun b bs => ?_, fun bs => ?_, ?_, by decide, fun c b => ?_⟩
  · simp [checksumOf_append, feedByte]
  · simp [checksumOf_append, feedByte]
  · exact ⟨[0x01, 0x00], [0x00, 0x01], .swap _ _ _, by decide +kernel⟩
  · rw [feedByte_crc, feedByte_crc, crcBytewise_zero_xor]

/-- Settles O26: `CK_NEW` makes the fresh accumulator from which the feeds run. -/
theorem hostFeedsAListOfBytes : Obligations.HostFeedsAListOfBytes := by
  intro mode bytes s hf
  have h := (accept_ckNewWord mode s).trans (exec_ckNew_unfaulted mode hf)
  have hend := getLast?_responses_feeds bytes (s := answerData none (ckNew mode (clearResponses s))) hf
  refine getLast?_responses_runAll_cons h (hend.trans ?_)
  rw [ckResult_eq, ckFeedAll_eq]
  rfl

/-- Settles O21: the fresh accumulator, reported. -/
theorem ckNewZeroesAccumulator : Obligations.CkNewZeroesAccumulator := fun mode _ hf => exec_ckNew_unfaulted mode hf

/-- Settles O22, mode by mode. -/
theorem ckFeedAddsByte : Obligations.CkFeedAddsByte := by
  intro byte s hf
  rw [exec_ckFeed_unfaulted byte hf, ckFeed, clearResponses_ckMode, clearResponses_ckState]
  cases hm : s.ckMode with
  | off => rfl
  | xor => rfl
  | crc => rw [feedByte, crcByte_eq_foldl_byteBits]; rfl

/-- Settles O23: the accumulator's result, reported; the state is the one it was asked of. -/
theorem ckResultAnswersChecksum : Obligations.CkResultAnswersChecksum := by
  intro s hf
  rw [exec_ckResult_unfaulted hf, ckResult_eq]
  rfl

end Sys2Proof.Machine
end

section
/-! PROOFS. The statements about the register catalogue (spec/42_register_catalog.md). A field of a register is given bit
by bit: which bits a read sees and which bits a write takes from the value. From these, what is read back at a field's own
place and at a place that shares no bit with it, and the fields of every layout. -/

namespace Sys2Proof.Machine

/-! ## Multi-byte values (R210) -/

/-- An append of a byte at the low end is big-endian. -/
theorem toNat_append_byte {n : Nat} (high : BitVec n) (b : Byte) : (high ++ b).toNat = high.toNat * 256 + b.toNat := by
  rw [BitVec.toNat_append, ← Nat.shiftLeft_add_eq_or_of_lt b.isLt, Nat.shiftLeft_eq]

theorem wordOfBytes_toNat (b0 b1 : Byte) : (wordOfBytes b0 b1).toNat = b0.toNat * 256 + b1.toNat :=
  toNat_append_byte b0 b1

theorem dataOfBytes_toNat (b0 b1 b2 : Byte) :
    (dataOfBytes b0 b1 b2).toNat = b0.toNat * 65536 + b1.toNat * 256 + b2.toNat := by
  rw [dataOfBytes, toNat_append_byte, toNat_append_byte, Nat.add_mul, Nat.mul_assoc]

/-- Neighbouring stretches put together are the whole value. -/
theorem wordOfBytes_extract (v : BitVec 16) : wordOfBytes (v.extractLsb' 8 8) (v.extractLsb' 0 8) = v :=
  (BitVec.extractLsb'_append_extractLsb'_eq_extractLsb' rfl).trans BitVec.extractLsb'_eq_self

theorem dataOfBytes_extract (v : BitVec 24) :
    dataOfBytes (v.extractLsb' 16 8) (v.extractLsb' 8 8) (v.extractLsb' 0 8) = v := by
  have hhigh : v.extractLsb' 16 8 ++ v.extractLsb' 8 8 = v.extractLsb' 8 16 :=
    BitVec.extractLsb'_append_extractLsb'_eq_extractLsb' rfl
  rw [dataOfBytes, hhigh]
  exact (BitVec.extractLsb'_append_extractLsb'_eq_extractLsb' rfl).trans BitVec.extractLsb'_eq_self

/-! ## Status (R211) -/

theorem decodeStatus_channel_toNat (b : Byte) : (decodeStatus b).channel.toNat = b.toNat % 4 := by
  rw [decodeStatus, BitVec.extractLsb'_toNat, Nat.shiftRight_zero]

/-- A bit above the low part of an append is a bit of the high part. -/
theorem bit_above {v w i : Nat} {high : BitVec v} (low : BitVec w) {b : Bool} (hb : high.getLsbD (i - w) = b)
    (h : w ≤ i := by decide) : (high ++ low).getLsbD i = b := by
  rw [BitVec.getLsbD_append, if_neg (Nat.not_lt.mpr h), hb]

/-- Of a Status byte each flag is the low end of what is left once the fields below it are passed over, and the channel
is the low end of the whole. -/
theorem decodeStatus_encodeStatus (unnamed : BitVec 2) (f : StatusFields) :
    decodeStatus (encodeStatus unnamed f) = f := by
  have bit (b : Bool) : (BitVec.ofBool b).getLsbD 0 = b := by cases b <;> rfl
  have low {v : Nat} {high : BitVec v} {b : Bool} : (high ++ BitVec.ofBool b).getLsbD 0 = b := by
    rw [BitVec.getLsbD_append, if_pos Nat.one_pos, bit]
  have hchannel : (encodeStatus unnamed f).extractLsb' 0 2 = f.channel := BitVec.extractLsb'_append_eq_right
  have hreg : (encodeStatus unnamed f).getLsbD 4 = f.regError := bit_above f.channel (bit_above unnamed low)
  have hcrc : (encodeStatus unnamed f).getLsbD 5 = f.crcError :=
    bit_above f.channel (bit_above unnamed (bit_above (.ofBool f.regError) low))
  have hadc : (encodeStatus unnamed f).getLsbD 6 = f.adcError :=
    bit_above f.channel (bit_above unnamed (bit_above (.ofBool f.regError) (bit_above (.ofBool f.crcError) low)))
  have hready : (encodeStatus unnamed f).getLsbD 7 = !f.ready :=
    bit_above f.channel (bit_above unnamed (bit_above (.ofBool f.regError) (bit_above (.ofBool f.crcError)
      (bit_above (.ofBool f.adcError) (bit !f.ready)))))
  rw [decodeStatus, hready, hadc, hcrc, hreg, hchannel, Bool.not_not]

/-! ## One field, bit by bit (R215) -/

theorem fieldMask_getLsbD (n width k : Nat) :
    (fieldMask n width).getLsbD k = (decide (k < n) && decide (k < width)) := by
  rw [fieldMask, BitVec.getLsbD_ofNat, Nat.testBit_two_pow_sub_one]

variable {n : Nat}

/-- Cutting a value to a width keeps its low bits. -/
theorem cut_getLsbD (width : Nat) (x : BitVec n) (k : Nat) :
    (x &&& fieldMask n width).getLsbD k = (decide (k < width) && x.getLsbD k) := by
  rw [BitVec.getLsbD_and, fieldMask_getLsbD]
  by_cases hk : k < n
  · simp [hk, Bool.and_comm, -BitVec.getLsbD_eq_getElem]
  · simp [BitVec.getLsbD_of_ge x k (Nat.le_of_not_lt hk)]

theorem getField_getLsbD (p : FieldPos) (v : BitVec n) (k : Nat) :
    (getField p v).getLsbD k = (decide (k < p.width) && v.getLsbD (p.lo + k)) := by
  rw [getField, cut_getLsbD, BitVec.getLsbD_ushiftRight]

/-- A write gives the field's own bits those of the value and leaves every other bit (R215). -/
theorem setField_getLsbD (p : FieldPos) (x v : BitVec n) {k : Nat} (hk : k < n) :
    (setField p x v).getLsbD k =
      if p.lo ≤ k ∧ k < p.lo + p.width then x.getLsbD (k - p.lo) else v.getLsbD k := by
  rw [setField, BitVec.getLsbD_or, BitVec.getLsbD_and, BitVec.getLsbD_not, BitVec.getLsbD_shiftLeft,
    BitVec.getLsbD_shiftLeft, cut_getLsbD, fieldMask_getLsbD]
  by_cases hlo : k < p.lo
  · simp [hk, hlo, Nat.not_le.mpr hlo, -BitVec.getLsbD_eq_getElem]
  · by_cases hhi : k < p.lo + p.width
    · have hin : k - p.lo < p.width := by omega
      simp [hk, hlo, hhi, hin, Nat.le_of_not_lt hlo, Nat.lt_of_le_of_lt (Nat.sub_le k p.lo) hk,
        -BitVec.getLsbD_eq_getElem]
    · have hout : ¬ k - p.lo < p.width := by omega
      simp [hk, hlo, hhi, hout, -BitVec.getLsbD_eq_getElem]

theorem setField_getLsbD_outside {p : FieldPos} (x v : BitVec n) {k : Nat} (h : k < p.lo ∨ p.lo + p.width ≤ k) :
    (setField p x v).getLsbD k = v.getLsbD k := by
  by_cases hk : k < n
  · rw [setField_getLsbD p x v hk, if_neg (by omega)]
  · rw [BitVec.getLsbD_of_ge _ k (Nat.le_of_not_lt hk), BitVec.getLsbD_of_ge _ k (Nat.le_of_not_lt hk)]

/-! ## What is read back of a write (R215) -/

/-- At its own place a field is read back as written, cut to its width. -/
theorem getField_setField_same {p : FieldPos} (h : p.lo + p.width ≤ n) (x v : BitVec n) :
    getField p (setField p x v) = x &&& fieldMask n p.width := by
  refine BitVec.eq_of_getLsbD_eq fun k _ => ?_
  rw [getField_getLsbD, cut_getLsbD]
  by_cases hk : k < p.width
  · rw [setField_getLsbD p x v (by omega), if_pos (by omega), Nat.add_sub_cancel_left]
  · simp [hk]

/-- A value that fits is not cut. -/
theorem getField_setField_of_fits {p : FieldPos} (h : p.inside n = true) {x : BitVec n} (hx : fitsField p x = true)
    (v : BitVec n) : getField p (setField p x v) = x :=
  (getField_setField_same (of_decide_eq_true h) x v).trans (eq_of_beq hx)

/-- A write at a place that shares no bit with a field leaves what is read there. -/
theorem getField_setField_apart {p q : FieldPos} (h : p.apart q = true) (x v : BitVec n) :
    getField p (setField q x v) = getField p v := by
  have hapart : p.lo + p.width ≤ q.lo ∨ q.lo + q.width ≤ p.lo := by simpa [FieldPos.apart] using h
  refine BitVec.eq_of_getLsbD_eq fun k _ => ?_
  rw [getField_getLsbD, getField_getLsbD]
  by_cases hk : k < p.width
  · rw [setField_getLsbD_outside x v (by omega)]
  · simp [hk]

/-- A flag is read back as written: its code fits the one bit, and the two codes differ in a register that has the bit. -/
theorem getFlag_setFlag {bit : Nat} (h : (flagPos bit).inside n = true) (b : Bool) (v : BitVec n) :
    getFlag bit (setFlag bit b v) = b := by
  have hbit : bit + 1 ≤ n := of_decide_eq_true h
  have hn : n ≠ 0 := by omega
  have hfits : fitsField (flagPos bit) (if b then 1 else 0 : BitVec n) = true := by
    cases b <;> simp [fitsField, fieldMask, flagPos]
  rw [getFlag, setFlag, getField_setField_of_fits h hfits]
  cases b <;> simp [hn]

/-! ## The fields of a layout (R213, R214, R215) -/

/-- A register with a list of fields written, the first one first. -/
def setFields : List (FieldPos × BitVec n) → BitVec n → BitVec n
  | [], v => v
  | (p, x) :: rest, v => setFields rest (setField p x v)

/-- The first field of a disjoint list is inside the register and shares no bit with the others. -/
theorem disjointFields_cons {p : FieldPos} {rest : List FieldPos} (h : disjointFields n (p :: rest) = true) :
    p.inside n = true ∧ (∀ q ∈ rest, p.apart q = true) ∧ disjointFields n rest = true := by
  simpa [disjointFields, and_assoc] using h

theorem getField_setFields_apart {p : FieldPos} {fs : List (FieldPos × BitVec n)}
    (h : ∀ q ∈ fs.map Prod.fst, p.apart q = true) (v : BitVec n) : getField p (setFields fs v) = getField p v := by
  induction fs generalizing v with
  | nil => rfl
  | cons w rest ih =>
    obtain ⟨hw, hrest⟩ := List.forall_mem_cons.mp h
    exact (ih hrest _).trans (getField_setField_apart hw w.2 v)

/-- Disjoint fields are all read back as written: the later writes leave the earlier ones (R215). -/
theorem getField_setFields {fs : List (FieldPos × BitVec n)} (hd : disjointFields n (fs.map Prod.fst) = true)
    (hfits : ∀ w ∈ fs, fitsField w.1 w.2 = true) (v : BitVec n) : ∀ w ∈ fs, getField w.1 (setFields fs v) = w.2 := by
  induction fs generalizing v with
  | nil => exact fun _ hw => absurd hw List.not_mem_nil
  | cons w rest ih =>
    obtain ⟨hinside, hapart, hrest⟩ := disjointFields_cons hd
    obtain ⟨hw, hfitsRest⟩ := List.forall_mem_cons.mp hfits
    refine List.forall_mem_cons.mpr ⟨?_, ih hrest hfitsRest _⟩
    exact (getField_setFields_apart hapart _).trans (getField_setField_of_fits hinside hw v)

/-- A flag and then a list of fields, as every layout's mutator writes them: all are read back (R215). -/
theorem flag_fields_readBack {bit : Nat} {fs : List (FieldPos × BitVec n)}
    (hd : disjointFields n (flagPos bit :: fs.map Prod.fst) = true) (hfits : ∀ w ∈ fs, fitsField w.1 w.2 = true)
    (b : Bool) (v : BitVec n) :
    getFlag bit (setFields fs (setFlag bit b v)) = b ∧
      ∀ w ∈ fs, getField w.1 (setFields fs (setFlag bit b v)) = w.2 := by
  obtain ⟨hinside, hapart, hrest⟩ := disjointFields_cons hd
  refine ⟨?_, getField_setFields hrest hfits _⟩
  rw [getFlag, getField_setFields_apart hapart]
  exact getFlag_setFlag hinside b v

/-- The fields of a Channel payload, the flag aside, in the order they are written. -/
def channelWrites (l : ChannelLayout) (f : ChannelFields) : List (FieldPos × BitVec 16) :=
  [(l.setup, f.setup), (l.ainPos, f.ainPos), (l.ainNeg, f.ainNeg)]

theorem encodeChannel_eq_setFields (l : ChannelLayout) (f : ChannelFields) (v : BitVec 16) :
    encodeChannel l f v = setFields (channelWrites l f) (setFlag l.en f.enabled v) := rfl

theorem decodeChannel_encodeChannel {l : ChannelLayout} {f : ChannelFields} (hf : f.fits l = true) (v : BitVec 16) :
    decodeChannel l (encodeChannel l f v) = f := by
  have hfits : ∀ w ∈ channelWrites l f, fitsField w.1 w.2 = true := by
    simpa [channelWrites, ChannelFields.fits, and_assoc] using hf
  obtain ⟨hflag, hread⟩ := flag_fields_readBack l.disjoint hfits f.enabled v
  rw [← encodeChannel_eq_setFields] at hflag hread
  simp only [channelWrites, List.forall_mem_cons] at hread
  obtain ⟨hsetup, hpos, hneg, -⟩ := hread
  rw [decodeChannel, channelEnabled, channelSetup, channelAinPos, channelAinNeg, hflag, hsetup, hpos, hneg]

/-- The fields of a SetupCon payload, the flag aside, in the order they are written. -/
def setupConWrites (l : SetupConLayout) (f : SetupConFields) : List (FieldPos × BitVec 16) :=
  [(l.refBuf, f.refBuf), (l.refSel, f.refSel)]

theorem encodeSetupCon_eq_setFields (l : SetupConLayout) (f : SetupConFields) (v : BitVec 16) :
    encodeSetupCon l f v = setFields (setupConWrites l f) (setFlag l.bipolar f.bipolar v) := rfl

theorem decodeSetupCon_encodeSetupCon {l : SetupConLayout} {f : SetupConFields} (hf : f.fits l = true) (v : BitVec 16) :
    decodeSetupCon l (encodeSetupCon l f v) = f := by
  have hfits : ∀ w ∈ setupConWrites l f, fitsField w.1 w.2 = true := by
    simpa [setupConWrites, SetupConFields.fits] using hf
  obtain ⟨hflag, hread⟩ := flag_fields_readBack l.disjoint hfits f.bipolar v
  rw [← encodeSetupCon_eq_setFields] at hflag hread
  simp only [setupConWrites, List.forall_mem_cons] at hread
  obtain ⟨hbuf, hsel, -⟩ := hread
  rw [decodeSetupCon, setupBipolar, setupRefBuf, setupRefSel, hflag, hbuf, hsel]

/-- The fields of a FiltCon payload, the flag aside, in the order they are written. -/
def filtConWrites (l : FiltConLayout) (f : FiltConFields) : List (FieldPos × BitVec 16) :=
  [(l.rate, f.rate), (l.order, f.order)]

theorem encodeFiltCon_eq_setFields (l : FiltConLayout) (f : FiltConFields) (v : BitVec 16) :
    encodeFiltCon l f v = setFields (filtConWrites l f) (setFlag l.enhanced f.enhanced v) := rfl

theorem decodeFiltCon_encodeFiltCon {l : FiltConLayout} {f : FiltConFields} (hf : f.fits l = true) (v : BitVec 16) :
    decodeFiltCon l (encodeFiltCon l f v) = f := by
  have hfits : ∀ w ∈ filtConWrites l f, fitsField w.1 w.2 = true := by
    simpa [filtConWrites, FiltConFields.fits] using hf
  obtain ⟨hflag, hread⟩ := flag_fields_readBack l.disjoint hfits f.enhanced v
  rw [← encodeFiltCon_eq_setFields] at hflag hread
  simp only [filtConWrites, List.forall_mem_cons] at hread
  obtain ⟨hrate, horder, -⟩ := hread
  rw [decodeFiltCon, filtEnhanced, filtRate, filtOrder, hflag, hrate, horder]

/-- GpioCon's flag is inside a payload of the layout's size. -/
theorem gpioSyncEn_setGpioSyncEn (l : GpioConLayout) (b : Bool) (v : BitVec (8 * l.bytes)) :
    gpioSyncEn l (setGpioSyncEn l b v) = b :=
  getFlag_setFlag (decide_eq_true l.inside) b v

/-! ## IfMode (R212, R295) -/

/-- IfMode's mode is a field like those of the layouts: two bits at bit 2. -/
def ifModePos : FieldPos := ⟨2, 2⟩

theorem ifModeField_eq_getField (b1 : Byte) : ifModeField b1 = (getField ifModePos b1).setWidth 2 := by
  refine BitVec.eq_of_getLsbD_eq fun k hk => ?_
  rw [ifModeField, BitVec.getLsbD_extractLsb', BitVec.getLsbD_setWidth, getField_getLsbD]
  simp [ifModePos, hk, -BitVec.getLsbD_eq_getElem]

theorem setIfMode_eq_setField (m : ChecksumMode) (b1 : Byte) :
    setIfMode m b1 = setField ifModePos ((modeCode m).setWidth 8) b1 := by
  cases m <;> rfl

theorem decodeMode_modeCode (m : ChecksumMode) : decodeMode (modeCode m) = .ok m := by cases m <;> rfl

theorem ifModeOf_setIfMode (m : ChecksumMode) (b1 : Byte) : ifModeOf (setIfMode m b1) = some m := by
  have hcode : ((modeCode m).setWidth 8 &&& fieldMask 8 2).setWidth 2 = modeCode m := by cases m <;> rfl
  have hfield : ifModeField (setIfMode m b1) = modeCode m := by
    rw [ifModeField_eq_getField, setIfMode_eq_setField, getField_setField_same (by decide)]
    exact hcode
  rw [ifModeOf, hfield, decodeMode_modeCode]
  rfl

/-! ## The statements -/

/-- Settles O60: the index is tested before anything is issued. -/
theorem setupChannelRefusesBadIndex : Obligations.SetupChannelRefusesBadIndex :=
  fun _ _ _ _ h => if_neg (Nat.not_le.mpr h)

/-- Settles O54, by the two rules of a write. -/
theorem fieldMutatorsChangeOnlyTheirBits : Obligations.FieldMutatorsChangeOnlyTheirBits :=
  fun _ _ x v h => ⟨getField_setField_same h x v, fun _ hk => setField_getLsbD_outside x v hk⟩

/-- Settles O52: the bytes of a value are put together again, and appended bytes are big-endian. -/
theorem peerValuesRoundTrip : Obligations.PeerValuesRoundTrip := by
  refine ⟨fun v => ⟨_, _, _, rfl, dataOfBytes_extract v, ?_⟩, fun v => ⟨_, _, rfl, wordOfBytes_extract v, ?_⟩,
    fun b => ⟨rfl, rfl, rfl, rfl, decodeStatus_channel_toNat b⟩, decodeStatus_encodeStatus⟩
  · rw [← dataOfBytes_toNat, dataOfBytes_extract]
  · rw [← wordOfBytes_toNat, wordOfBytes_extract]

/-- Settles O53, register by register; IfMode's other bits are those outside its field. -/
theorem registerFieldsRoundTrip : Obligations.RegisterFieldsRoundTrip := by
  refine ⟨fun m b1 => ⟨ifModeOf_setIfMode m b1, fun k h2 h3 => ?_⟩, fun _ _ v hf => decodeChannel_encodeChannel hf v,
    fun _ _ v hf => decodeSetupCon_encodeSetupCon hf v, fun _ _ v hf => decodeFiltCon_encodeFiltCon hf v,
    gpioSyncEn_setGpioSyncEn⟩
  have hout : k < ifModePos.lo ∨ ifModePos.lo + ifModePos.width ≤ k := by
    simp only [ifModePos]
    omega
  rw [setIfMode_eq_setField, setField_getLsbD_outside _ _ hout]

end Sys2Proof.Machine
end

section
/-! PROOFS. The statements about the framer (spec/43_framer.md): from an idle engine with lines that do not fail, each frame
is one window with the bytes and the accumulator of its command (`exec_frame_idle`); from any state and with any failure, a
framer command ends in one of three ways (`FrameOutcome`), and no other command touches chip select or reports a mismatch. -/

namespace Sys2Proof.Machine

/-! ## Frames from an idle engine (R242 to R244) -/

/-- A window works on the link and on chip select alone: what the prelude and the accumulator have written before it stays. -/
theorem afterWindow_onLink (bytes : List Byte) (s : State) :
    ∃ l es k, ∀ t, SameLink s t → afterWindow bytes t = windowedTo l es k t := by
  obtain ⟨es, k, h⟩ := afterBytes_onLink bytes (csDriven false s)
  refine ⟨afterBytes bytes (csDriven false s), es, k, fun t ht => ?_⟩
  rw [afterWindow, h (csDriven false t) ⟨ht.se, ht.rxp, ht.sck, ht.mosi, ht.miso, ht.samples⟩, windowedTo]

/-- What the peer answers in a window does not depend on what the command has prepared. -/
theorem windowBytes_framePrepared (i : Instr) (bytes : List Byte) (s : State) :
    windowBytes bytes (framePrepared i s) = windowBytes bytes s := by
  obtain ⟨-, -, -, -, hmiso, hsamples⟩ := framePrepared_sameLink i s
  exact slotBytes_congr bytes hmiso hsamples

/-- A framer command from an idle engine, no line operation failing: its end, on what the window received (R241). -/
theorem exec_frame_idle {i : Instr} (hi : frames i = true) (hw : i.wf = true) {s : State} (hf : s.faulted = false)
    (q : Quiet s) (hs : s.se = .idle) :
    exec i s = .next (frameEnd i s.curMode (windowBytes (frameBytes i s) s)
      (afterWindow (frameBytes i s) (framePrepared i s))).reported := by
  rw [exec_frame hi hw hf q (by rw [hs]; rfl), window_quiet (framePrepared_quiet i q) ((framePrepared_se i s).trans hs),
    Res.bind_ok, windowBytes_framePrepared]

theorem receivedTrailer_eq (m : ChecksumMode) (n : Nat) (frame : List Byte) :
    receivedTrailer m n frame = if m = .off then none else frame[n + 1]? := by
  cases m <;> rfl

theorem writeMode_eq (m : ChecksumMode) : writeMode m = if m = .off then .off else .crc := by
  cases m <;> rfl

/-! ## How a framer command ends (R241 to R244, R331) -/

/-- The three ends of a framer command: refused by its prelude, through its window, or stopped in it. Where the window is
stopped, only `FR_RAW` has written anything to the buffer (R242 to R244, R336). -/
inductive FrameOutcome (i : Instr) (s : State) : State → Prop
  | refused (h : s.faulted = true ∨ i.wf = false) : FrameOutcome i s (refuseWord s)
  | through (frame : List Byte) (u : State) (hu : Windowed (framePrepared i s) u)
      (hlen : (∀ n, i ≠ .frRaw n) → frame.length = (frameBytes i s).length) :
      FrameOutcome i s (frameEnd i s.curMode frame u).reported
  | stopped (e : ResultCode) (u : State) (buf : Vector Byte 15) (hu : WindowStopped e (framePrepared i s) u)
      (hbuf : (∀ n, i ≠ .frRaw n) → buf = s.buf) : FrameOutcome i s (answer e { u with buf := buf })

/-- A window, followed by the command's end, ends the command (R241). -/
theorem frameOutcome_window {i : Instr} {s : State} (hb : frameBytes i s ≠ []) :
    FrameOutcome i s ((window (frameBytes i s) (framePrepared i s)).bind (frameEnd i s.curMode)).reported := by
  have hbuf : (framePrepared i s).buf = s.buf := by cases i <;> rfl
  have h := window_spec hb (framePrepared i s)
  cases hw : window (frameBytes i s) (framePrepared i s) with
  | ok frame u =>
    rw [hw] at h
    obtain ⟨hu, hlen⟩ := h
    exact .through frame u hu fun _ => hlen
  | stop e u =>
    rw [hw] at h
    exact .stopped e u u.buf h fun _ => h.framed.buf.trans hbuf

/-- `FR_RAW` writes its payload's place also where it is stopped (R244, R336). -/
theorem frameOutcome_raw {len : BitVec 4} (hl : len ≠ 0) (s : State) :
    FrameOutcome (.frRaw len) s (rawTransaction len.toNat (clearResponses s)).reported := by
  obtain ⟨bytes, -, ⟨u, hu, hr⟩ | ⟨e, u, hu, hr⟩⟩ := rawTransaction_cases (payload_ne_nil hl (clearResponses s)) <;> rw [hr]
  · rw [← hu.framed.buf]
    exact .through bytes u hu fun h => absurd rfl (h len)
  · exact .stopped e u _ hu fun h => absurd rfl (h len)

theorem commands_of_frames {i : Instr} (hi : frames i = true) : commands i = true := by
  cases i with
  | wireReadAddr addr => cases hi
  | wireWriteAddr addr => cases hi
  | _ => rfl

/-- Everything a framer command can do, whatever line operation fails. -/
theorem exec_frame_outcome {i : Instr} (hi : frames i = true) {s t : State} (h : exec i s = .next t) :
    FrameOutcome i s t := by
  by_cases hrun : s.faulted = false ∧ i.wf = true
  · obtain ⟨hf, hw⟩ := hrun
    have hwin := frameOutcome_window (frameBytes_ne_nil hi hw s)
    cases i with
    | frRead addr len =>
      rw [exec_frRead, command_reported (legal := lenLegal len) _ hf hw, readTransaction_window] at h
      cases h
      exact hwin
    | frWrite addr len =>
      rw [exec_frWrite, command_reported (legal := lenLegal len) _ hf hw, writeTransaction_window,
        ckResult_writeChecksum, writeChecksum_eq] at h
      cases h
      exact hwin
    | frRaw len =>
      rw [exec_frRaw, command_reported (legal := lenLegal len) _ hf hw] at h
      cases h
      exact frameOutcome_raw (lenLegal_ne_zero hw) s
    | _ => cases hi
  · have hrefused : s.faulted = true ∨ i.wf = false :=
      (not_and_or.mp hrun).imp Bool.of_not_eq_false Bool.of_not_eq_true
    have hc := commands_of_frames hi
    have ht : exec i s = .next (refuseWord s) :=
      hrefused.elim (exec_faulted hc) fun hw => exec_of_wf_eq_false hc hw s
    rw [ht] at h
    cases h
    exact .refused hrefused

/-- The end of a frame writes the buffer, the checksum's state and the responses, and neither the accumulator's mode nor
chip select. -/
theorem frameEnd_ckMode_csN (i : Instr) (m : ChecksumMode) (frame : List Byte) (t : State) :
    (frameEnd i m frame t).reported.ckMode = t.ckMode ∧ (frameEnd i m frame t).reported.csN = t.csN := by
  cases i with
  | frRead addr len =>
    obtain ⟨buf, c, h | ⟨expected, received, h⟩⟩ := verifyRead_cases m len.toNat frame t <;> rw [frameEnd, h] <;>
      exact ⟨rfl, rfl⟩
  | _ => exact ⟨rfl, rfl⟩

/-- A stopped window answers neither `OK` nor a mismatch, the two codes of a frame that goes through (R330). -/
theorem WindowStopped.code_ne {e : ResultCode} {s t : State} (h : WindowStopped e s t) : e ≠ .ok ∧ e ≠ .checksumMismatch := by
  rcases h.why with ⟨rfl, -⟩ | ⟨rfl, -⟩ <;> exact ⟨nofun, nofun⟩

theorem refuseWord_code_ne (s : State) : (refuseWord s).rspCode ≠ .ok ∧ (refuseWord s).rspCode ≠ .checksumMismatch := by
  cases hf : s.faulted <;> simp [refuseWord, hf]

/-- The accumulator's mode after a framer command that is not refused is the one its window began with (R246). -/
theorem FrameOutcome.ckMode {i : Instr} {s t : State} (h : FrameOutcome i s t) (hf : s.faulted = false)
    (hw : i.wf = true) : t.ckMode = (framePrepared i s).ckMode := by
  cases h with
  | refused hr => simp [hf, hw] at hr
  | through frame u hu _ => exact (frameEnd_ckMode_csN i s.curMode frame u).1.trans hu.framed.ckMode
  | stopped e u buf hu _ => exact hu.framed.ckMode

/-! ## The checksums of a mismatch (R242, R251) -/

/-- A trailer that is compared and differs is there, and so is the checksum it is compared with: in `Off` mode both are
absent, and agree (R245, R251). -/
theorem verifyRead_mismatch {m : ChecksumMode} {n : Nat} {frame : List Byte} {s : State} (hm : s.ckMode = m)
    (hlen : frame.length = n + 1 + trailerLength m) (h : (verifyRead m n frame s).reported.rspCode = .checksumMismatch) :
    m ≠ .off ∧ ∃ x y, (verifyRead m n frame s).reported.rspExp = some x ∧
      (verifyRead m n frame s).reported.rspRcv = some y ∧ x ≠ y := by
  rw [verifyRead_eq, hm, receivedTrailer_eq] at h ⊢
  by_cases hoff : m = .off
  · simp only [if_pos hoff] at h
    cases h
  · have htrailer : trailerLength m = 1 := by
      cases m with
      | off => exact absurd rfl hoff
      | xor => rfl
      | crc => rfl
    have hget : frame[n + 1]? = some frame[n + 1] := List.getElem?_eq_getElem (by omega)
    simp only [if_neg hoff, hget] at h ⊢
    split at h
    · cases h
    · rename_i hne
      rw [if_neg hne]
      exact ⟨hoff, _, _, rfl, rfl, fun heq => hne (congrArg some heq)⟩

/-- A framer command that reports a mismatch is `FR_READ`, with two different checksums (R251). -/
theorem FrameOutcome.mismatch {i : Instr} {s t : State} (hi : frames i = true) (h : FrameOutcome i s t)
    (hc : t.rspCode = .checksumMismatch) :
    (∃ a n, i = .frRead a n) ∧ s.curMode ≠ .off ∧ ∃ x y, t.rspExp = some x ∧ t.rspRcv = some y ∧ x ≠ y := by
  cases h with
  | refused _ => exact absurd hc (refuseWord_code_ne s).2
  | stopped e u buf hu _ => exact absurd hc hu.code_ne.2
  | through frame u hu hlen =>
    cases i with
    | frRead addr len =>
      have hlength : frame.length = len.toNat + 1 + trailerLength s.curMode := by
        rw [hlen nofun, frameBytes, readFrame]
        simp
        omega
      exact ⟨⟨addr, len, rfl⟩, verifyRead_mismatch hu.framed.ckMode hlength hc⟩
    | frWrite addr len => cases hc
    | frRaw len => cases hc
    | _ => cases hi

/-! ## The commands that are no frames (R241, R251) -/

/-- Chip select as it was, and no event of it logged. -/
def KeepsChipSelect (s t : State) : Prop := t.csN = s.csN ∧ ∃ es, t.evt = s.evt ++ es ∧ ChipSelectFree es

theorem keepsChipSelect_of_eq {s t : State} (hcs : t.csN = s.csN) (hevt : t.evt = s.evt) : KeepsChipSelect s t :=
  ⟨hcs, [], by simp [hevt], fun _ => List.not_mem_nil⟩

theorem LinkFramed.keepsChipSelect {s t : State} (h : LinkFramed s t) : KeepsChipSelect s t := ⟨h.csN, h.noChipSelect⟩

/-- However `r` ends, it does nothing that is the framer's: chip select is as it was in `s`, and no mismatch is raised. -/
def Res.OutsideFramer {α : Type} (s : State) (r : Res α) : Prop :=
  r.Sat (fun _ t => KeepsChipSelect s t) (fun e t => KeepsChipSelect s t ∧ e ≠ .checksumMismatch)

theorem Stopped.ne_checksumMismatch {e : ResultCode} {s t : State} (h : Stopped e s t) : e ≠ .checksumMismatch := by
  rcases h.why with hline | ⟨rfl, -⟩
  · rw [hline.code]
    exact nofun
  · exact nofun

theorem tick_outsideFramer (s : State) : (tick s).OutsideFramer s :=
  (tick_spec s).mono (fun _ _ h => h.framed.keepsChipSelect)
    (fun _ _ h => ⟨h.framed.keepsChipSelect, h.ne_checksumMismatch⟩)

theorem xferBuf_outsideFramer (n : Nat) (s : State) : (xferBuf n s).OutsideFramer s := by
  refine (xferBuf_spec n s).mono (fun _ t h => ?_) (fun e t h => ?_)
  · obtain ⟨bytes, u, -, rfl, hu, -⟩ := h
    exact hu.keepsChipSelect
  · obtain ⟨bytes, u, -, rfl, hu⟩ := h
    exact ⟨hu.framed.keepsChipSelect, hu.ne_checksumMismatch⟩

/-- Every command that is no frame has a legality and a rule, and the rule does nothing that is the framer's. -/
theorem exec_command_outsideFramer {i : Instr} (hc : commands i = true) (hi : frames i = false) :
    ∃ legal rule, (∀ s, exec i s = command legal rule s) ∧ ∀ s, (rule s).OutsideFramer s := by
  have hsame (s : State) : KeepsChipSelect s s := keepsChipSelect_of_eq rfl rfl
  cases i with
  | seSend b =>
    refine ⟨_, _, exec_seSend b, fun s => ?_⟩
    split
    · rename_i s1 hs
      obtain rfl := send_eq_some hs
      exact keepsChipSelect_of_eq rfl rfl
    · exact ⟨hsame s, nofun⟩
  | seTick => exact ⟨_, _, exec_seTick, fun s => (tick_outsideFramer s).bind fun _ _ h => h⟩
  | seRead =>
    refine ⟨_, _, exec_seRead, fun s => ?_⟩
    split
    · rename_i v s1 hs
      obtain rfl := read_eq_byte hs
      exact keepsChipSelect_of_eq rfl rfl
    · exact ⟨hsame s, nofun⟩
    · exact ⟨hsame s, nofun⟩
  | ckNew m => exact ⟨_, _, exec_ckNew m, fun s => keepsChipSelect_of_eq rfl rfl⟩
  | ckFeed b => exact ⟨_, _, exec_ckFeed b, fun s => keepsChipSelect_of_eq rfl rfl⟩
  | ckResult => exact ⟨_, _, exec_ckResult, hsame⟩
  | seXfer len => exact ⟨_, _, exec_seXfer len, fun s => (xferBuf_outsideFramer _ s).bind fun _ _ h => h⟩
  | frSetMode m => exact ⟨_, _, exec_frSetMode m, fun s => keepsChipSelect_of_eq rfl rfl⟩
  | frGetMode => exact ⟨_, _, exec_frGetMode, hsame⟩
  | bufWr idx b => exact ⟨_, _, exec_bufWr idx b, fun s => keepsChipSelect_of_eq rfl rfl⟩
  | bufRd idx => exact ⟨_, _, exec_bufRd idx, hsame⟩
  | wireReadAddr addr => cases hc
  | wireWriteAddr addr => cases hc
  | _ => cases hi

/-- A command that is no frame leaves chip select alone and reports no mismatch, however it ends. -/
theorem exec_outsideFramer {i : Instr} (hc : commands i = true) (hi : frames i = false) {s t : State}
    (h : exec i s = .next t) : KeepsChipSelect s t ∧ t.rspCode ≠ .checksumMismatch := by
  obtain ⟨legal, rule, hexec, hrule⟩ := exec_command_outsideFramer hc hi
  have hr := hrule (clearResponses s)
  rw [hexec] at h
  rcases command_cases h with ⟨-, rfl⟩ | ⟨-, -, ⟨d, u, hu, rfl⟩ | ⟨e, u, hu, rfl⟩⟩
  · exact ⟨keepsChipSelect_of_eq rfl rfl, (refuseWord_code_ne s).2⟩
  · rw [hu] at hr
    exact ⟨hr, nofun⟩
  · rw [hu] at hr
    exact hr

/-! ## The statements -/

/-- Settles O27: the window of a read frame, and what the end of the frame makes of the bytes it received. -/
theorem frReadTransaction : Obligations.FrReadTransaction := by
  intro addr len s hl hf q hs n frame got data expected received
  obtain ⟨l, es, k, hwin⟩ := afterWindow_onLink frame s
  have hframe : frameBytes (.frRead addr len) s = frame := readFrame_eq s.curMode addr n
  rw [exec_frame_idle (i := .frRead addr len) rfl (lenLegal_of_ne hl) hf q hs, hframe,
    hwin _ (framePrepared_sameLink ..), hwin s (.refl s), frameEnd, verifyRead_eq, receivedTrailer_eq]
  exact congrArg Host.Outcome.next (apply_ite Res.reported (expected = received) _ _)

/-- Settles O28: the window of a write frame, from the accumulator that gave its trailer. -/
theorem frWriteTransaction : Obligations.FrWriteTransaction := by
  intro addr len s hl hf q hs body mode
  have hframe : frameBytes (.frWrite addr len) s = body ++ (trailerOf mode body).toList := by
    rw [frameBytes, writeMode_eq]
    rfl
  obtain ⟨l, es, k, hwin⟩ := afterWindow_onLink (body ++ (trailerOf mode body).toList) s
  rw [exec_frame_idle (i := .frWrite addr len) rfl (lenLegal_of_ne hl) hf q hs, hframe,
    hwin _ (framePrepared_sameLink ..), hwin s (.refl s), framePrepared, writeMode_eq]
  rfl

/-- Settles O29: the window of the payload, laid over the buffer. -/
theorem frRawTransaction : Obligations.FrRawTransaction := by
  intro len s hl hf q hs
  obtain ⟨l, es, k, hwin⟩ := afterWindow_onLink (payload len.toNat s) s
  rw [exec_frame_idle (i := .frRaw len) rfl (lenLegal_of_ne hl) hf q hs, frameBytes,
    hwin _ (framePrepared_sameLink ..), hwin s (.refl s)]
  rfl

/-- Settles O32: a frame makes its accumulator before its window, which keeps it however it ends. -/
theorem writeChecksumIsForcedToCrc : Obligations.WriteChecksumIsForcedToCrc := by
  intro addr len s t u hl hf ht hu
  have hread : t.ckMode = s.curMode := (exec_frame_outcome rfl ht).ckMode hf (lenLegal_of_ne hl)
  have hwrite : u.ckMode = writeMode s.curMode := (exec_frame_outcome rfl hu).ckMode hf (lenLegal_of_ne hl)
  refine ⟨hread, fun h => ?_, fun h => ?_, fun h => ?_⟩ <;> rw [hwrite, h] <;> rfl

/-- Settles O33: by the three ends of a frame, of which only the window's is `OK` or a mismatch; the other commands are
outside the framer. -/
theorem framesAreOneChipSelectWindow : Obligations.FramesAreOneChipSelectWindow := by
  intro i s t h
  refine ⟨fun hi hcode => ?_, fun hi => ?_⟩
  · cases exec_frame_outcome hi h with
    | refused _ => exact absurd hcode (not_or.mpr (refuseWord_code_ne s))
    | stopped e u buf hu _ => exact absurd hcode (not_or.mpr hu.code_ne)
    | through frame u hu _ =>
      obtain ⟨-, hcs⟩ := frameEnd_ckMode_csN i s.curMode frame u
      rw [(frameEnd_ended i s.curMode frame u).evt, hcs, ← framePrepared_evt i s]
      exact ⟨hu.csN, hu.events⟩
  · rcases exec_cases i with ⟨hc, -⟩ | ⟨-, hwire⟩
    · exact (exec_outsideFramer hc hi h).1
    · rw [hwire] at h
      cases h
      exact keepsChipSelect_of_eq rfl rfl

/-- Settles O35: a command that is no frame reports none, and of the frames only `FR_READ` compares checksums. -/
theorem mismatchHasTwoDifferentChecksums : Obligations.MismatchHasTwoDifferentChecksums := by
  intro i s t hc h hcode
  cases hi : frames i with
  | true => exact (exec_frame_outcome hi h).mismatch hi hcode
  | false => exact absurd hcode (exec_outsideFramer hc hi h).2

/-- Settles O42: such a frame was stopped in its window, where a register frame writes nothing. -/
theorem failedFramesLeaveBuffer : Obligations.FailedFramesLeaveBuffer := by
  intro addr len i s t hi hl hf h hok hmismatch
  have hframe : frames i = true ∧ i.wf = true ∧ ∀ n, i ≠ .frRaw n := by
    rcases hi with rfl | rfl <;> exact ⟨rfl, lenLegal_of_ne hl, nofun⟩
  obtain ⟨hframes, hw, hraw⟩ := hframe
  cases exec_frame_outcome hframes h with
  | refused hr => simp [hf, hw] at hr
  | through frame u _ _ => exact absurd (frameEnd_ended i s.curMode frame u).code (not_or.mpr ⟨hok, hmismatch⟩)
  | stopped e u buf hu hbuf =>
    exact ⟨hbuf hraw, hu.why.imp (fun ⟨he, _⟩ => he) id⟩

/-- Settles O6: the next stimulus is accepted as the encoding it is. -/
theorem stepRunsDecodedInstruction : Obligations.StepRunsDecodedInstruction := by
  intro s c rest i hin hd
  have haccept : step s = accept c { s with input := rest } := by
    rw [step, hin]
    cases c <;> rfl
  rw [haccept, accept, hd]

/-- Settles O36: the rule of `FR_SETMODE`, reported. -/
theorem frSetModeSetsLocalMode : Obligations.FrSetModeSetsLocalMode :=
  fun mode s hf => (exec_frSetMode mode s).trans (command_reported _ hf rfl)

/-- Settles O37: the rule of `FR_GETMODE`, reported; the byte of each mode is the one R250 lists. -/
theorem frGetModeAnswersCode : Obligations.FrGetModeAnswersCode :=
  fun s hf => (exec_frGetMode s).trans (command_reported _ hf rfl)

/-- Settles O38: the rule of `BUF_WR`, which writes the element in place. -/
theorem bufWrWritesOneByte : Obligations.BufWrWritesOneByte := by
  intro idx byte s hidx hf
  refine ⟨_, (exec_bufWr idx byte s).trans (command_reported _ hf (idxLegal_of_ne hidx)), rfl, fun j hj => ?_⟩
  have hset : (s.buf.setIfInBounds idx.toNat byte)[j] = if idx.toNat = j then byte else s.buf[j] :=
    Vector.getElem_setIfInBounds hj
  exact hset.trans (if_congr eq_comm rfl rfl)

/-- Settles O39: the rule of `BUF_RD`; an index below 15 names an element. -/
theorem bufRdReadsOneByte : Obligations.BufRdReadsOneByte := by
  intro idx s hidx hf
  have hlegal : idx ≠ 15 := by
    rintro rfl
    exact absurd hidx (by decide)
  have hbyte : bufByte idx.toNat (clearResponses s) = some s.buf[idx.toNat] := Vector.getElem?_eq_getElem hidx
  rw [exec_bufRd, command_reported _ hf (idxLegal_of_ne hlegal), hbyte]
  rfl

end Sys2Proof.Machine
end

section
/-! PROOFS. The statements about the host sequences (spec/44_host_sequences.md). A sequence issues commands of two kinds: those
of the buffer, which change the buffer and the responses alone (`Buffered`), and frames, each of which ends with the block
ready for the next (`Ready`). What a sequence leaves is read off its commands one by one. -/

namespace Sys2Proof.Machine

/-! ## One command of a sequence (R99) -/

@[simp] theorem SeqEnd.bind_done {α β : Type} (a : α) (s : State) (k : α → State → SeqEnd β) :
    (SeqEnd.done a s).bind k = k a s := rfl

@[simp] theorem SeqEnd.bind_failed {α β : Type} (e : ResultCode) (s : State) (k : α → State → SeqEnd β) :
    (SeqEnd.failed e s : SeqEnd α).bind k = .failed e s := rfl

theorem issue_done {i : Instr} {s t : State} (h : exec i s = .next t) (hok : t.rspCode = .ok) :
    issue i s = .done t.rspData t := by
  rw [issue, h]
  exact if_pos hok

theorem issue_failed {i : Instr} {s t : State} (h : exec i s = .next t) (hok : t.rspCode ≠ .ok) :
    issue i s = .failed t.rspCode t := by
  rw [issue, h]
  exact if_neg hok

/-! ## The commands of the buffer (R248, R249, R303) -/

/-- `t` has `buf` in the buffer and is otherwise `s` in all that the later commands of a sequence depend on; the responses
are any. -/
structure Buffered (buf : Vector Byte 15) (s t : State) : Prop where
  buf : t.buf = buf
  se : t.se = s.se
  lineDraws : t.lineDraws = s.lineDraws
  faulted : t.faulted = s.faulted
  evt : t.evt = s.evt
  curMode : t.curMode = s.curMode
  ckMode : t.ckMode = s.ckMode
  ckState : t.ckState = s.ckState

theorem Buffered.refl (s : State) : Buffered s.buf s s := ⟨rfl, rfl, rfl, rfl, rfl, rfl, rfl, rfl⟩

theorem Buffered.trans {b b' : Vector Byte 15} {s t u : State} (h : Buffered b s t) (k : Buffered b' t u) :
    Buffered b' s u where
  buf := k.buf
  se := k.se.trans h.se
  lineDraws := k.lineDraws.trans h.lineDraws
  faulted := k.faulted.trans h.faulted
  evt := k.evt.trans h.evt
  curMode := k.curMode.trans h.curMode
  ckMode := k.ckMode.trans h.ckMode
  ckState := k.ckState.trans h.ckState

theorem issue_bufRd {idx : BitVec 4} {s : State} (hidx : idx.toNat < 15) (hf : s.faulted = false) :
    ∃ t, issue (.bufRd idx) s = .done (some s.buf[idx.toNat]) t ∧ Buffered s.buf s t :=
  ⟨_, issue_done (bufRdReadsOneByte idx s hidx hf) rfl, ⟨rfl, rfl, rfl, rfl, rfl, rfl, rfl, rfl⟩⟩

theorem issue_bufWr {idx : BitVec 4} (byte : Byte) {s : State} (hidx : idx ≠ 15) (hf : s.faulted = false) :
    ∃ t, issue (.bufWr idx byte) s = .done none t ∧ Buffered (s.buf.setIfInBounds idx.toNat byte) s t :=
  ⟨_, issue_done ((exec_bufWr idx byte s).trans (command_reported _ hf (idxLegal_of_ne hidx))) rfl,
    ⟨rfl, rfl, rfl, rfl, rfl, rfl, rfl, rfl⟩⟩

/-- `BUF_RD` from element `i` on answers the elements in order. -/
theorem readBuf_spec (i n : Nat) {s : State} (hn : i + n ≤ 15) (hf : s.faulted = false) :
    ∃ t, readBuf i n s = .done ((s.buf.toList.drop i).take n) t ∧ Buffered s.buf s t := by
  induction n generalizing i s with
  | zero => exact ⟨s, rfl, .refl s⟩
  | succ n ih =>
    have hi : (BitVec.ofNat 4 i).toNat = i := Nat.mod_eq_of_lt (by omega)
    obtain ⟨t, hread, ht⟩ := issue_bufRd (idx := BitVec.ofNat 4 i) (by omega) hf
    obtain ⟨u, hrest, hu⟩ := ih (i + 1) (by omega) (ht.faulted.trans hf)
    rw [ht.buf] at hrest hu
    have hcons : s.buf.toList.drop i = s.buf[i] :: s.buf.toList.drop (i + 1) := by
      rw [List.drop_eq_getElem_cons (by rw [Vector.length_toList]; omega), Vector.getElem_toList]
    refine ⟨u, ?_, ht.trans hu⟩
    simp only [readBuf, hread, hrest, SeqEnd.bind_done, hcons, hi, List.take_succ_cons, Option.toList_some,
      List.singleton_append]

theorem readBuf_payload (len : BitVec 4) {s : State} (hf : s.faulted = false) :
    ∃ t, readBuf 0 len.toNat s = .done (payload len.toNat s) t ∧ Buffered s.buf s t :=
  readBuf_spec 0 len.toNat (by omega) hf

theorem bufStore_buf_congr (i : Nat) (bytes : List Byte) {s t : State} (h : t.buf = s.buf) :
    (bufStore i bytes t).buf = (bufStore i bytes s).buf := by
  apply Vector.ext
  intro j hj
  simp only [bufStore_getElem, h]

/-- `BUF_WR` from element `i` on stores the list there (R303). -/
theorem writeBufFrom_spec (i : Nat) (bytes : List Byte) {s : State} (hn : i + bytes.length ≤ 15) (hf : s.faulted = false) :
    ∃ t, writeBufFrom i bytes s = .done () t ∧ Buffered (bufStore i bytes s).buf s t := by
  induction bytes generalizing i s with
  | nil => exact ⟨s, rfl, .refl s⟩
  | cons b rest ih =>
    rw [List.length_cons] at hn
    have hi : (BitVec.ofNat 4 i).toNat = i := Nat.mod_eq_of_lt (by omega)
    obtain ⟨t, hwrite, ht⟩ := issue_bufWr (idx := BitVec.ofNat 4 i) b (by bv_omega) hf
    obtain ⟨u, hrest, hu⟩ := ih (i + 1) (by omega) (ht.faulted.trans hf)
    rw [hi] at ht
    rw [bufStore_buf_congr (s := bufSet i b s) (i + 1) rest ht.buf] at hu
    exact ⟨u, by rw [writeBufFrom, hwrite, SeqEnd.bind_done, hrest], ht.trans hu⟩

theorem writeBuf_overlay (bytes : List Byte) {s : State} (hn : bytes.length ≤ 15) (hf : s.faulted = false) :
    ∃ t, writeBuf bytes s = .done () t ∧ Buffered (overlay bytes s.buf) s t := by
  obtain ⟨t, hwrite, ht⟩ := writeBufFrom_spec 0 bytes (by omega) hf
  rw [bufStore_overlay] at ht
  exact ⟨t, hwrite, ht⟩

/-- A list laid over the buffer is its payload (R64). -/
theorem payload_of_overlay {bytes : List Byte} {b : Vector Byte 15} {t : State} (ht : t.buf = overlay bytes b)
    (hn : bytes.length ≤ 15) : payload bytes.length t = bytes := by
  refine List.ext_getElem (payload_length _ hn t) fun i hi hi' => ?_
  simp [payload, ht, overlay, hi']

theorem payload_two (s : State) : payload 2 s = [s.buf[0], s.buf[1]] := by
  refine List.ext_getElem (payload_length 2 (by decide) s) fun i hi hi' => ?_
  match i with
  | 0 => simp [payload]
  | 1 => simp [payload]

/-! ## The frames of a sequence (R241 to R244) -/

/-- The block can take a frame that will go through: no fault, no line operation to fail, no byte in flight. -/
structure Ready (s : State) : Prop where
  unfaulted : s.faulted = false
  quiet : Quiet s
  idle : s.se = .idle

theorem Buffered.ready {b : Vector Byte 15} {s t : State} (h : Buffered b s t) (r : Ready s) : Ready t :=
  ⟨h.faulted.trans r.unfaulted, r.quiet.same h.lineDraws, h.se.trans r.idle⟩

theorem frameEnd_lineDraws (i : Instr) (m : ChecksumMode) (frame : List Byte) (t : State) :
    (frameEnd i m frame t).reported.lineDraws = t.lineDraws := by
  cases i with
  | frRead addr len =>
    obtain ⟨buf, c, h | ⟨expected, received, h⟩⟩ := verifyRead_cases m len.toNat frame t <;> rw [frameEnd, h] <;> rfl
  | _ => rfl

/-- A frame only uses draws up, however it ends. -/
theorem FrameOutcome.quiet {i : Instr} {s t : State} (h : FrameOutcome i s t) (q : Quiet s) : Quiet t := by
  have hq := framePrepared_quiet i q
  cases h with
  | refused _ => exact q.same rfl
  | through frame u hu _ => exact (hu.framed.quiet hq).same (frameEnd_lineDraws i s.curMode frame u)
  | stopped e u buf hu _ => exact (hu.framed.quiet hq).same rfl

theorem exec_frame_ready {i : Instr} (hi : frames i = true) (hw : i.wf = true) {s t : State} (r : Ready s)
    (h : exec i s = .next t) : Ready t := by
  obtain ⟨u, hu, -, hidle, -, -, hunfaulted⟩ := exec_frame_ends hi hw r.unfaulted r.quiet (by rw [r.idle]; rfl)
  cases hu.symm.trans h
  exact ⟨hunfaulted, (exec_frame_outcome hi h).quiet r.quiet, hidle⟩

/-- What a write frame that went through leaves: the checksum in the forced mode, the mode and the buffer as they were, and
on `MOSI` the address, the payload and the checksum (R243, R246). -/
structure FrameWritten (addr : Byte) (n : Nat) (s t : State) : Prop where
  code : t.rspCode = .ok
  curMode : t.curMode = s.curMode
  ckMode : t.ckMode = writeMode s.curMode
  buf : t.buf = s.buf
  bits : mosiBits (t.evt.drop s.evt.length) =
    (addr :: payload n s ++ (trailerOf (writeMode s.curMode) (addr :: payload n s)).toList).flatMap byteBits

theorem issue_frWrite (addr : Byte) {len : BitVec 4} (hl : len ≠ 0) {s : State} (r : Ready s) :
    ∃ t, issue (.frWrite addr len) s = .done none t ∧ FrameWritten addr len.toNat s t := by
  have h := frWriteTransaction addr len s hl r.unfaulted r.quiet r.idle
  refine ⟨_, issue_done h rfl, ?_⟩
  exact {
    code := rfl
    curMode := (exec_kept h).curMode nofun
    ckMode := (writeMode_eq s.curMode).symm
    buf := Vector.ext fun j hj => exec_buf_getElem (j := ⟨j, hj⟩) h rfl
    bits := mosiBits_frWrite hl r.unfaulted r.quiet r.idle h }

/-- `FR_SETMODE` changes the mode and leaves the block ready (R247). -/
theorem issue_frSetMode (mode : ChecksumMode) {s : State} (r : Ready s) :
    ∃ t, issue (.frSetMode mode) s = .done none t ∧ Ready t ∧ t.curMode = mode ∧ t.buf = s.buf ∧ t.evt = s.evt :=
  ⟨_, issue_done (frSetModeSetsLocalMode mode s r.unfaulted) rfl, ⟨r.unfaulted, r.quiet.same rfl, r.idle⟩, rfl, rfl, rfl⟩

/-- In `Off` mode no checksum is compared, so a read that goes through is `OK`, its payload in the buffer (R242, R245). -/
theorem exec_frRead_off (addr : Byte) {len : BitVec 4} (hl : len ≠ 0) {s : State} (r : Ready s) (hoff : s.curMode = .off) :
    ∃ t, exec (.frRead addr len) s = .next t ∧ t.rspCode = .ok ∧
      t.buf = overlay (((windowBytes (readFrame .off addr len.toNat) s).drop 1).take len.toNat) s.buf := by
  have h := frReadTransaction addr len s hl r.unfaulted r.quiet r.idle
  simp only [hoff, trailerOf, if_true] at h
  rw [readFrame_eq, if_pos rfl]
  exact ⟨_, h, rfl, rfl⟩

/-! ## Identification (R293) -/

/-- The family code is the value without its lowest four bits (D28). -/
theorem familyCode_iff (id : BitVec 16) :
    id &&& 0xFFF0 = 0x00D0 ↔ 0x00D0 ≤ id.toNat ∧ id.toNat ≤ 0x00DF := by
  have hshift : id &&& (0xFFF0 : BitVec 16) = id >>> 4 <<< 4 := (BitVec.shiftLeft_ushiftRight (n := 4)).symm
  have hlt : id.toNat < 65536 := id.isLt
  rw [hshift, ← BitVec.toNat_inj, BitVec.toNat_shiftLeft, BitVec.toNat_ushiftRight, Nat.shiftLeft_eq,
    Nat.shiftRight_eq_div_pow]
  change _ = 0x00D0 ↔ _
  omega

theorem classifyId_eq (id : BitVec 16) :
    classifyId id = if 0x00D0 ≤ id.toNat ∧ id.toNat ≤ 0x00DF then .matched id else .mismatch id :=
  if_congr (familyCode_iff id) rfl rfl

theorem extract_wordOfBytes (b0 b1 : Byte) :
    (wordOfBytes b0 b1).extractLsb' 8 8 = b0 ∧ (wordOfBytes b0 b1).extractLsb' 0 8 = b1 :=
  ⟨BitVec.extractLsb'_append_eq_left, BitVec.extractLsb'_append_eq_right⟩

/-! ## The statements -/

/-- Settles O55: the first command of the sequence fails, and the rest is not issued. -/
theorem updateRegStopsAtFailedRead : Obligations.UpdateRegStopsAtFailedRead := by
  intro addr len f s t ht hok
  rw [updateReg, issue_failed ht hok, SeqEnd.bind_failed]

/-- Settles O56: the buffer's commands between the two frames log nothing and leave the host function's payload to the write
frame. -/
theorem updateRegWritesBack : Obligations.UpdateRegWritesBack := by
  intro addr len f s t hfl hl hf q hs ht hok new mode
  have hlen : new.1.length = len.toNat := (hfl _).trans (payload_length _ (by omega) t)
  have r : Ready t := exec_frame_ready (i := .frRead addr len) rfl (lenLegal_of_ne hl) ⟨hf, q, hs⟩ ht
  obtain ⟨t1, hread, h1⟩ := readBuf_payload len r.unfaulted
  obtain ⟨t2, hwrite, h2⟩ := writeBuf_overlay new.1 (by omega) (h1.ready r).unfaulted
  obtain ⟨u, hframe, hu⟩ := issue_frWrite addr hl ((h1.trans h2).ready r)
  have hpayload : payload len.toNat t2 = new.1 := hlen ▸ payload_of_overlay h2.buf (by omega)
  have hmode : writeMode t2.curMode = mode := by
    rw [(h1.trans h2).curMode, (exec_kept ht).curMode nofun, writeMode_eq]
  have hbits := hu.bits
  rw [hpayload, hmode, (h1.trans h2).evt] at hbits
  refine ⟨u, ?_, ?_, hbits⟩
  · rw [updateReg, issue_done ht hok, SeqEnd.bind_done, hread, SeqEnd.bind_done, hwrite, SeqEnd.bind_done, hframe,
      SeqEnd.bind_done]
  · rw [payload, hu.buf]
    exact hpayload

/-- Settles O57: `FR_SETMODE` stands before the write frame, whose forced mode is then that of the new mode. -/
theorem setChecksumModeOrder : Obligations.SetChecksumModeOrder := by
  intro mode s t hf q hs ht frame forced
  split
  · rename_i hok
    have r : Ready t := exec_frame_ready rfl rfl ⟨hf, q, hs⟩ ht
    obtain ⟨t1, hread, h1⟩ : ∃ t1, issue (.bufRd 1) t = .done (some t.buf[1]) t1 ∧ Buffered t.buf t t1 :=
      issue_bufRd (by decide) r.unfaulted
    obtain ⟨t2, hwrite, h2⟩ := issue_bufWr (idx := 1) (setIfMode mode t.buf[1]) (by decide) (h1.ready r).unfaulted
    obtain ⟨t3, hset, r3, hmode, hkeep, hevt⟩ := issue_frSetMode mode ((h1.trans h2).ready r)
    obtain ⟨u, hframe, hu⟩ := issue_frWrite 0x02 (len := 2) (by decide) r3
    have hbuf (j : Nat) (h : j < 15) : t3.buf[j] = if 1 = j then setIfMode mode t.buf[1] else t.buf[j] := by
      simp only [hkeep, h2.buf, h1.buf]
      exact Vector.getElem_setIfInBounds h
    have hpayload : payload (2 : BitVec 4).toNat t3 = [t.buf[0], setIfMode mode t.buf[1]] :=
      (payload_two t3).trans (congrArg₂ (fun x y => [x, y]) (hbuf 0 (by decide)) (hbuf 1 (by decide)))
    have hforced : writeMode t3.curMode = forced := by rw [hmode, writeMode_eq]
    have hbits := hu.bits
    rw [hpayload, hforced, hevt, (h1.trans h2).evt] at hbits
    refine ⟨u, ?_, hu.curMode.trans hmode, hu.ckMode.trans hforced, hu.code, hbits, ?_, fun j hj hne => ?_⟩
    · rw [setChecksumMode, issue_done ht hok, SeqEnd.bind_done, hread, SeqEnd.bind_done, Option.getD_some, hwrite,
        SeqEnd.bind_done, hset, SeqEnd.bind_done, hframe, SeqEnd.bind_done]
    · simp only [hu.buf]
      exact hbuf 1 (by decide)
    · simp only [hu.buf, hbuf, if_neg hne.symm]
  · rename_i hok
    refine ⟨?_, (exec_kept ht).curMode nofun⟩
    rw [setChecksumMode, issue_failed ht hok, SeqEnd.bind_failed]

/-- Settles O58: in `Off` mode the read cannot mismatch, and its payload is what the peer presents in the two slots. -/
theorem identifyClassifiesPeerId : Obligations.IdentifyClassifiesPeerId := by
  intro s hf q hs hoff got
  obtain ⟨a, b0, b1, hgot⟩ : ∃ a b0 b1, got = [a, b0, b1] := ⟨_, _, _, rfl⟩
  obtain ⟨t, hread, hok, hbuf⟩ := exec_frRead_off 0x07 (len := 2) (by decide) ⟨hf, q, hs⟩ hoff
  have hdata : ((windowBytes (readFrame .off 0x07 2) s).drop 1).take 2 = [b0, b1] :=
    congrArg (fun frame : List Byte => (frame.drop 1).take 2) hgot
  have r : Ready t := exec_frame_ready rfl rfl ⟨hf, q, hs⟩ hread
  have hpayload : payload 2 t = [b0, b1] :=
    payload_of_overlay (bytes := [b0, b1]) (hdata ▸ hbuf) (Nat.le_of_ble_eq_true rfl)
  obtain ⟨u, hanswer, -⟩ : ∃ u, readBuf 0 2 t = .done (payload 2 t) u ∧ Buffered t.buf t u := readBuf_payload 2 r.unfaulted
  obtain ⟨hhigh, hlow⟩ := extract_wordOfBytes b0 b1
  refine ⟨u, wordOfBytes b0 b1, ?_, ?_, ?_⟩
  · rw [hgot, hhigh, List.getElem?_cons_succ, List.getElem?_cons_zero]
  · rw [hgot, hlow, List.getElem?_cons_succ, List.getElem?_cons_succ, List.getElem?_cons_zero]
  · rw [identify, issue_done hread hok, SeqEnd.bind_done, hanswer, SeqEnd.bind_done, hpayload]
    exact congrArg (SeqEnd.done · u) (classifyId_eq _)

/-- Settles O59: the payload of the raw frame is the eight bytes just written, and a raw frame leaves mode and accumulator. -/
theorem devResetSendsSixtyFourOnes : Obligations.DevResetSendsSixtyFourOnes := by
  intro s hf q hs
  obtain ⟨t, hwrite, ht⟩ := writeBuf_overlay (List.replicate 8 0xFF) (by decide) hf
  have r : Ready t := ht.ready ⟨hf, q, hs⟩
  obtain ⟨u, hraw, hok⟩ : ∃ u, exec (.frRaw 8) t = .next u ∧ u.rspCode = .ok :=
    ⟨_, frRawTransaction 8 t (by decide) r.unfaulted r.quiet r.idle, rfl⟩
  have hpayload : payload (8 : BitVec 4).toNat t = List.replicate 8 0xFF := payload_of_overlay ht.buf (by decide)
  obtain ⟨hckMode, hckState, hcurMode, -, -, -⟩ := exec_kept hraw
  obtain ⟨-, es, hevt, hes⟩ := (framesAreOneChipSelectWindow _ _ _ hraw).1 rfl (.inl hok)
  refine ⟨u, es, ?_, ht.evt ▸ hevt, hes, ?_, (hcurMode nofun).trans ht.curMode, (hckMode rfl).trans ht.ckMode,
    (hckState rfl nofun).trans ht.ckState⟩
  · rw [devReset, hwrite, SeqEnd.bind_done, issue_done hraw hok, SeqEnd.bind_done]
  · calc
      mosiBits es = mosiBits (u.evt.drop t.evt.length) := by
        rw [hevt, List.append_assoc, List.append_assoc, List.drop_left, mosiBits_append, mosiBits_append]
        exact (List.append_nil _).symm
      _ = (List.replicate 8 0xFF).flatMap byteBits := by
        rw [mosiBits_frRaw (by decide) r.unfaulted r.quiet r.idle hraw, hpayload]
      _ = List.replicate 64 true := rfl

end Sys2Proof.Machine
end

section
/-! PROOFS. The statements about errors (spec/60_exceptions.md): every stimulus leads to a next state, a faulted block refuses
every word, and a `TRANSPORT_ERROR` is one of the draws of the line layer (`DrawsUsed`), which each operation, so every
command and every run, only uses up. -/

namespace Sys2Proof.Machine

/-! ## Every step has a next state (R332, R341) -/

theorem exec_hasNext (i : Instr) (s : State) : ∃ t, exec i s = .next t := by
  rcases exec_cases i with ⟨-, legal, rule, hcommand⟩ | ⟨-, hwire⟩
  · rw [hcommand]
    exact command_next legal rule s
  · exact ⟨s, hwire s⟩

theorem accept_hasNext (c : Code) (s : State) : ∃ t, accept c s = .next t := by
  unfold accept
  split
  · exact exec_hasNext _ s
  · exact ⟨_, rfl⟩

theorem receive_hasNext (e : Stimulus) (s : State) : ∃ t, receive e s = .next t := by
  cases e with
  | issue w => exact accept_hasNext (.command w) s
  | peerTakes b => exact accept_hasNext (.address b) s
  | reset => exact ⟨_, rfl⟩

/-! ## What a command word can do (R97, R331) -/

/-- A command word runs the command it decodes to, or is refused (R335). -/
theorem accept_command_cases {w : CommandWord} {s t : State} (h : accept (.command w) s = .next t) :
    (∃ i, commands i = true ∧ exec i s = .next t) ∨ t = refuseWord s := by
  unfold accept at h
  split at h
  · rename_i i hd
    exact .inl ⟨i, commands_of_decode hd, h⟩
  · cases h
    exact .inr rfl

theorem refuseWord_faulted {s : State} (hf : s.faulted = true) :
    refuseWord s = { s with rspCode := .invariantFault, rspData := none, rspExp := none, rspRcv := none } := by
  have hcode : (if s.faulted then ResultCode.invariantFault else .illegalCommand) = .invariantFault := by simp [hf]
  rw [refuseWord, hcode]
  rfl

/-- A word keeps the invariant, and answers no `INVARIANT_FAULT` where it holds (R337). -/
theorem accept_command_safe {w : CommandWord} {s t : State} (h : Inv s) (ht : accept (.command w) s = .next t) :
    Inv t ∧ t.rspCode ≠ .invariantFault := by
  rcases accept_command_cases ht with ⟨i, hc, hi⟩ | rfl
  · exact exec_safe hc h hi
  · exact refuseWord_safe h

/-! ## The draws of the line layer (R336) -/

/-- The lines can fail, and a failure is drawn for a line operation to come (R336). -/
def FailureDrawn (s : State) : Prop := Config.pLineFault = true ∧ ∃ f, some f ∈ s.lineDraws

theorem failureDrawn_iff_not_quiet (s : State) : FailureDrawn s ↔ ¬ Quiet s := by
  simp [FailureDrawn, Quiet, Option.ne_none_iff_exists']

/-- From `s` to `t` the line layer's draws are only used up, and a `TRANSPORT_ERROR` is a failure drawn in `s`. -/
structure DrawsUsed (code : ResultCode) (s t : State) : Prop where
  suffix : t.lineDraws <:+ s.lineDraws
  drawn : code = .transportError → FailureDrawn s

theorem DrawsUsed.same {code : ResultCode} {s t : State} (ht : t.lineDraws = s.lineDraws)
    (hc : code ≠ .transportError) : DrawsUsed code s t :=
  ⟨ht ▸ List.suffix_refl _, fun h => absurd h hc⟩

theorem DrawsUsed.trans {c code : ResultCode} {s t u : State} (h : DrawsUsed c s t) (k : DrawsUsed code t u) :
    DrawsUsed code s u where
  suffix := k.suffix.trans h.suffix
  drawn hc := (k.drawn hc).imp_right fun ⟨f, hf⟩ => ⟨f, h.suffix.subset hf⟩

theorem Framed.drawsUsed {code : ResultCode} {s t : State} (h : Framed s t) (hc : code = .transportError → ¬ Quiet s) :
    DrawsUsed code s t :=
  ⟨h.draws, fun he => (failureDrawn_iff_not_quiet s).mpr (hc he)⟩

theorem Stopped.drawsUsed {e : ResultCode} {s t : State} (h : Stopped e s t) : DrawsUsed e s t := by
  refine h.framed.toFramed.drawsUsed fun he => ?_
  rcases h.why with hline | ⟨rfl, -⟩
  · exact hline.notQuiet
  · cases he

/-- However `r` ends, it has only used up draws of `s`, and a `TRANSPORT_ERROR` is one of them. -/
def Res.UsesDraws {α : Type} (s : State) (r : Res α) : Prop :=
  r.Sat (fun _ t => DrawsUsed .ok s t) (fun e t => DrawsUsed e s t)

theorem Res.UsesDraws.bind {α β : Type} {s : State} {r : Res α} {k : α → State → Res β} (h : r.UsesDraws s)
    (hk : ∀ a t, (k a t).UsesDraws t) : (r.bind k).UsesDraws s :=
  Res.Sat.bind h fun a t ht => (hk a t).mono (fun _ _ => ht.trans) (fun _ _ => ht.trans)

theorem Res.UsesDraws.ok {α : Type} {s t : State} (a : α) (ht : t.lineDraws = s.lineDraws) :
    (Res.ok a t).UsesDraws s := .same ht nofun

/-- What happens before without a line operation uses up no draw. -/
theorem Res.UsesDraws.after {α : Type} {s t : State} {r : Res α} (h : r.UsesDraws t)
    (ht : t.lineDraws = s.lineDraws) : r.UsesDraws s :=
  have hsame : DrawsUsed .ok s t := .same ht nofun
  h.mono (fun _ _ => hsame.trans) (fun _ _ => hsame.trans)

/-! ### The line layer and the framer -/

theorem drive_csN_usesDraws (b : Level) (s : State) : (drive .csN b s).UsesDraws s :=
  (drive_csN_spec b s).mono (fun _ _ h => h ▸ (csDriven_framed b s).drawsUsed nofun)
    (fun _ _ h => h.framed.drawsUsed fun _ => h.notQuiet)

theorem tick_usesDraws (s : State) : (tick s).UsesDraws s :=
  (tick_spec s).mono (fun _ _ h => h.framed.toFramed.drawsUsed nofun) (fun _ _ h => h.drawsUsed)

theorem xfer_raise_usesDraws (bytes : List Byte) (s : State) : (xfer bytes s).raise.UsesDraws s :=
  (xfer_raise_spec bytes s).mono (fun _ _ ⟨hl, _⟩ => hl.toFramed.drawsUsed nofun) (fun _ _ h => h.drawsUsed)

theorem xferBuf_usesDraws (n : Nat) (s : State) : (xferBuf n s).UsesDraws s := by
  refine (xferBuf_spec n s).mono (fun _ t h => ?_) (fun e t h => ?_)
  · obtain ⟨bytes, u, -, rfl, hu, -⟩ := h
    exact ⟨hu.draws, nofun⟩
  · obtain ⟨bytes, u, -, rfl, hu⟩ := h
    exact ⟨hu.drawsUsed.suffix, hu.drawsUsed.drawn⟩

theorem verifyRead_usesDraws (m : ChecksumMode) (n : Nat) (frame : List Byte) (s : State) :
    (verifyRead m n frame s).UsesDraws s := by
  obtain ⟨buf, c, h | ⟨expected, received, h⟩⟩ := verifyRead_cases m n frame s <;> rw [h]
  · exact .ok none rfl
  · exact DrawsUsed.same rfl nofun

theorem window_usesDraws (bytes : List Byte) (s : State) : (window bytes s).UsesDraws s :=
  (drive_csN_usesDraws false s).bind fun _ _ => (xfer_raise_usesDraws bytes _).bind fun _ _ =>
    (drive_csN_usesDraws true _).bind fun _ _ => .ok _ rfl

/-- A register frame makes its accumulator before its window, and makes it without a line operation (R242, R243). -/
theorem readTransaction_usesDraws (m : ChecksumMode) (a : Byte) (n : Nat) (s : State) :
    (readTransaction m a n s).UsesDraws s := by
  rw [readTransaction_window, readChecksum_eq]
  exact ((window_usesDraws _ _).bind (verifyRead_usesDraws m n)).after rfl

theorem writeTransaction_usesDraws (m : ChecksumMode) (a : Byte) (n : Nat) (s : State) :
    (writeTransaction m a n s).UsesDraws s := by
  rw [writeTransaction_window, writeChecksum_eq]
  exact ((window_usesDraws _ _).bind fun _ _ => .ok _ rfl).after rfl

theorem rawTransaction_usesDraws (n : Nat) (s : State) : (rawTransaction n s).UsesDraws s :=
  (drive_csN_usesDraws false s).bind fun _ _ => (xferBuf_usesDraws n _).bind fun _ _ =>
    (drive_csN_usesDraws true _).bind fun _ _ => .ok _ rfl

/-! ### Every command -/

/-- Every command has a legality and a rule, and the rule only uses up draws. -/
theorem exec_command_usesDraws {i : Instr} (hc : commands i = true) :
    ∃ legal rule, (∀ s, exec i s = command legal rule s) ∧ ∀ s, (rule s).UsesDraws s := by
  cases i with
  | seSend b =>
    refine ⟨_, _, exec_seSend b, fun s => ?_⟩
    split
    · rename_i s1 hs
      exact send_eq_some hs ▸ .ok none rfl
    · exact DrawsUsed.same rfl nofun
  | seTick => exact ⟨_, _, exec_seTick, fun s => (tick_usesDraws s).bind fun _ _ => .ok _ rfl⟩
  | seRead =>
    refine ⟨_, _, exec_seRead, fun s => ?_⟩
    split
    · rename_i v s1 hs
      exact read_eq_byte hs ▸ .ok (some v) rfl
    · exact DrawsUsed.same rfl nofun
    · exact DrawsUsed.same rfl nofun
  | ckNew m => exact ⟨_, _, exec_ckNew m, fun s => .ok _ rfl⟩
  | ckFeed b => exact ⟨_, _, exec_ckFeed b, fun s => .ok _ rfl⟩
  | ckResult => exact ⟨_, _, exec_ckResult, fun s => .ok _ rfl⟩
  | seXfer len => exact ⟨_, _, exec_seXfer len, fun s => (xferBuf_usesDraws _ s).bind fun _ _ => .ok _ rfl⟩
  | frRaw len => exact ⟨_, _, exec_frRaw len, rawTransaction_usesDraws _⟩
  | frRead a len => exact ⟨_, _, exec_frRead a len, fun s => readTransaction_usesDraws s.curMode a _ s⟩
  | frWrite a len => exact ⟨_, _, exec_frWrite a len, fun s => writeTransaction_usesDraws s.curMode a _ s⟩
  | frSetMode m => exact ⟨_, _, exec_frSetMode m, fun s => .ok _ rfl⟩
  | frGetMode => exact ⟨_, _, exec_frGetMode, fun s => .ok _ rfl⟩
  | bufWr idx b => exact ⟨_, _, exec_bufWr idx b, fun s => .ok _ rfl⟩
  | bufRd idx => exact ⟨_, _, exec_bufRd idx, fun s => .ok _ rfl⟩
  | wireReadAddr a => cases hc
  | wireWriteAddr a => cases hc

/-- A refused word is no line operation (R335, R339). -/
theorem refuseWord_drawsUsed (s : State) : DrawsUsed (refuseWord s).rspCode s (refuseWord s) :=
  .same rfl (by cases hf : s.faulted <;> simp [refuseWord, hf])

theorem exec_drawsUsed {i : Instr} (hc : commands i = true) {s t : State} (h : exec i s = .next t) :
    DrawsUsed t.rspCode s t := by
  obtain ⟨legal, rule, hexec, hrule⟩ := exec_command_usesDraws hc
  have hr := hrule (clearResponses s)
  rw [hexec] at h
  rcases command_cases h with ⟨-, rfl⟩ | ⟨-, -, ⟨d, u, hu, rfl⟩ | ⟨e, u, hu, rfl⟩⟩
  · exact refuseWord_drawsUsed s
  · rw [hu] at hr
    exact ⟨hr.suffix, nofun⟩
  · rw [hu] at hr
    exact ⟨hr.suffix, hr.drawn⟩

theorem accept_command_drawsUsed {w : CommandWord} {s t : State} (h : accept (.command w) s = .next t) :
    DrawsUsed t.rspCode s t := by
  rcases accept_command_cases h with ⟨i, hc, hi⟩ | rfl
  · exact exec_drawsUsed hc hi
  · exact refuseWord_drawsUsed s

/-! ## A drive that is drawn to fail (R336) -/

/-- Where lines can fail, the draw strikes. -/
theorem drive_drawn {s : State} {f : LineFailure} {rest : List (Option LineFailure)} (l : Line) (b : Level)
    (hp : Config.pLineFault = true) (hd : s.lineDraws = some f :: rest) :
    drive l b s = .stop .transportError (failedDrive l f { s with lineDraws := rest }) := by
  simp [drive, lineFailure, popDraw, hd, hp]

/-- Where lines cannot fail, it is used up without effect. -/
theorem drive_ignores_draw {s : State} {f : LineFailure} {rest : List (Option LineFailure)} (l : Line) (b : Level)
    (hp : Config.pLineFault = false) (hd : s.lineDraws = some f :: rest) :
    drive l b s = drive l b { s with lineDraws := none :: rest } := by
  simp [drive, lineFailure, popDraw, hd, hp]

/-- A window whose first drive is drawn to fail is stopped there, where lines can fail (R241). -/
theorem window_drawn {s : State} {f : LineFailure} {rest : List (Option LineFailure)} (bytes : List Byte)
    (hp : Config.pLineFault = true) (hd : s.lineDraws = some f :: rest) :
    window bytes s = .stop .transportError (failedDrive .csN f { s with lineDraws := rest }) := by
  rw [window, drive_drawn .csN false hp hd, Res.bind_stop]

theorem window_ignores_draw {s : State} {f : LineFailure} {rest : List (Option LineFailure)} (bytes : List Byte)
    (hp : Config.pLineFault = false) (hd : s.lineDraws = some f :: rest) :
    window bytes s = window bytes { s with lineDraws := none :: rest } := by
  rw [window, drive_ignores_draw .csN false hp hd, window]

@[simp] theorem failedDrive_lineDraws (l : Line) (f : LineFailure) (s : State) :
    (failedDrive l f s).lineDraws = s.lineDraws := by unfold failedDrive; split <;> simp
@[simp] theorem failedDrive_csN_csN (f : LineFailure) (s : State) :
    (failedDrive .csN f s).csN = f.level := by unfold failedDrive; split <;> simp
@[simp] theorem failedDrive_csN_sck (f : LineFailure) (s : State) :
    (failedDrive .csN f s).sck = s.sck := by unfold failedDrive; split <;> simp
@[simp] theorem failedDrive_csN_mosi (f : LineFailure) (s : State) :
    (failedDrive .csN f s).mosi = s.mosi := by unfold failedDrive; split <;> simp

/-- `FR_READ` is its window and its end, whatever line operation fails (R242). -/
theorem exec_frRead_window (addr : Byte) {len : BitVec 4} (hl : len ≠ 0) {s : State} (hf : s.faulted = false) :
    exec (.frRead addr len) s =
      .next ((window (frameBytes (.frRead addr len) s) (framePrepared (.frRead addr len) s)).bind
        (frameEnd (.frRead addr len) s.curMode)).reported := by
  rw [exec_frRead, command_reported _ hf (lenLegal_of_ne hl), readTransaction_window]
  rfl

/-! ## Every run (R397) -/

/-- A word with a next state hands that state on (R397). -/
theorem final_runAll_cons {w : CommandWord} {s t : State} (h : accept (.command w) s = .next t)
    (rest : List CommandWord) : (runAll (w :: rest) s).final = (runAll rest t).final := by
  rw [runAll, h]

/-- A run from a state with the invariant keeps it and answers each word, with no `INVARIANT_FAULT`, and with
`TRANSPORT_ERROR` only where a failure was drawn when it began. -/
theorem runAll_safe (words : List CommandWord) {s : State} (h : Inv s) :
    Inv (runAll words s).final ∧ (runAll words s).responses.length = words.length ∧
      ∀ r ∈ (runAll words s).responses, r.code ≠ .invariantFault ∧ (r.code = .transportError → FailureDrawn s) := by
  induction words generalizing s with
  | nil => exact ⟨h, rfl, nofun⟩
  | cons w rest ih =>
    obtain ⟨t, ht⟩ := accept_hasNext (.command w) s
    obtain ⟨hinv, hcode⟩ := accept_command_safe h ht
    have hdraws := accept_command_drawsUsed ht
    obtain ⟨hfinal, hlength, hresponses⟩ := ih hinv
    rw [final_runAll_cons ht rest, responses_runAll_cons ht rest]
    refine ⟨hfinal, congrArg (· + 1) hlength, fun r hr => ?_⟩
    rcases List.mem_cons.mp hr with rfl | hr
    · exact ⟨hcode, hdraws.drawn⟩
    · obtain ⟨hne, hdrawn⟩ := hresponses r hr
      have hrest : DrawsUsed r.code t t := ⟨List.suffix_refl _, hdrawn⟩
      exact ⟨hne, (hdraws.trans hrest).drawn⟩

/-! ## The statements -/

/-- Settles O51: a run begins in the state of reset, which has the invariant whatever the peer's script and the draws. -/
theorem everyRunIsSafe : Obligations.EveryRunIsSafe := by
  intro words script draws o
  have hstart : Inv { State.reset with miso := script, lineDraws := draws } := invHoldsAtReset.same rfl rfl rfl rfl
  obtain ⟨hfinal, hlength, hresponses⟩ := runAll_safe words hstart
  exact ⟨hfinal, hfinal.unfaulted, hlength, hresponses⟩

/-- Settles O9: by the stimulus that waits, if one does. -/
theorem everyStepHasNextState : Obligations.EveryStepHasNextState := by
  intro s
  unfold step
  split
  · exact ⟨s, rfl⟩
  · exact receive_hasNext _ _

/-- Settles O10: the word's command is refused as the word itself would be, and reset has the flag clear. -/
theorem faultedBlockAnswersOnlyFault : Obligations.FaultedBlockAnswersOnlyFault := by
  intro w s hf
  obtain ⟨t, ht⟩ := accept_hasNext (.command w) s
  have hrefused : t = refuseWord s := by
    rcases accept_command_cases ht with ⟨i, hc, hi⟩ | ht
    · rw [exec_faulted hc hf] at hi
      cases hi
      rfl
    · exact ht
  refine ⟨by rw [ht, hrefused, refuseWord_faulted hf], fun u hu => ?_⟩
  cases hu
  rfl

/-- Settles O50: a word's command, or its refusal, answers another code. -/
theorem invariantFaultIsUnreachable : Obligations.InvariantFaultIsUnreachable :=
  fun _ _ _ h ht => (accept_command_safe h ht).2

/-- Settles O40, from what every command makes of the draws. -/
theorem transportErrorNeedsAFailingLine : Obligations.TransportErrorNeedsAFailingLine :=
  fun _ _ _ hc h => not_or_of_imp (exec_drawsUsed hc h).drawn

/-- Settles O41: the first line operation of `FR_READ` is the drive that opens its window. -/
theorem frReadWithFailingChipSelect : Obligations.FrReadWithFailingChipSelect := by
  intro addr len s f rest hl hf hd
  have hexec := exec_frRead_window addr hl hf
  have hdraws : (framePrepared (.frRead addr len) s).lineDraws = some f :: rest := hd
  cases hp : Config.pLineFault with
  | true =>
    rw [if_pos rfl]
    rw [window_drawn _ hp hdraws, Res.bind_stop] at hexec
    have hframed := failedDrive_framed .csN f { framePrepared (.frRead addr len) s with lineDraws := rest }
    refine ⟨_, hexec, rfl, hframed.rspExp, hframed.rspRcv, hframed.buf, ?_⟩
    simp [Res.reported, framePrepared]
  | false =>
    rw [if_neg Bool.false_ne_true, hexec, window_ignores_draw _ hp hdraws,
      exec_frRead_window addr hl (s := { s with lineDraws := none :: rest }) hf]
    rfl

end Sys2Proof.Machine
end

section
/-! PROOFS. The statements about reset and hazards (spec/70_reset_and_hazards.md): what reset makes of the block, and how many
line events each command causes. A half-phase causes two and a byte thirty-two; a frame adds the two of its window to those of
its bytes. -/

namespace Sys2Proof.Machine

/-! ## How many bytes a frame has (R101, R102) -/

theorem trailerLength_eq (m : ChecksumMode) : trailerLength m = if m = .off then 0 else 1 := by
  cases m <;> rfl

theorem readFrame_length (m : ChecksumMode) (addr : Byte) (n : Nat) :
    (readFrame m addr n).length = 1 + n + trailerLength m := by
  simp only [readFrame, List.length_cons, List.length_append, List.length_replicate]
  omega

/-- A write frame has a trailer unless the mode is `Off`, whatever the mode is forced to (R246). -/
theorem length_trailerOf_writeMode (m : ChecksumMode) (bytes : List Byte) :
    (trailerOf (writeMode m) bytes).toList.length = trailerLength m := by
  rw [toList_trailerOf_writeMode]
  cases m <;> rfl

theorem frameBytes_frWrite_length (addr : Byte) (len : BitVec 4) (s : State) :
    (frameBytes (.frWrite addr len) s).length = 1 + len.toNat + trailerLength s.curMode := by
  rw [frameBytes, writeFrame, List.length_cons, List.length_append, payload_length _ (by omega), length_trailerOf_writeMode]
  omega

/-! ## How many line events they cause (R395) -/

theorem halfPhase_evt_length (s : State) :
    (halfPhase s).evt.length = s.evt.length + if s.se = .idle then 0 else 2 := by
  cases hs : s.se with
  | idle => rw [halfPhase_idle hs]; rfl
  | xfer phase mask tx rx =>
    cases phase with
    | false => simp [halfPhase_setup hs]
    | true => simp [halfPhase_sample hs]

theorem afterBytes_evt_length (bytes : List Byte) (s : State) :
    (afterBytes bytes s).evt.length = s.evt.length + 32 * bytes.length := by
  simp [afterBytes_eq, linkEvents_length]

theorem afterWindow_evt_length (bytes : List Byte) (s : State) :
    (afterWindow bytes s).evt.length = s.evt.length + 32 * bytes.length + 2 := by
  simp only [afterWindow, csDriven, afterBytes_evt_length, List.length_append, List.length_singleton]
  omega

/-- A frame from an idle engine: the events of its bytes, and the two of its window (R241). -/
theorem exec_frame_evt_length {i : Instr} (hi : frames i = true) (hw : i.wf = true) {s : State} (hf : s.faulted = false)
    (q : Quiet s) (hs : s.se = .idle) :
    ∃ t, exec i s = .next t ∧ t.evt.length = s.evt.length + 32 * (frameBytes i s).length + 2 := by
  refine ⟨_, exec_frame_idle hi hw hf q hs, ?_⟩
  rw [(frameEnd_ended ..).evt, afterWindow_evt_length, framePrepared_evt]

/-! ## The statements -/

/-- Settles O34: what clocks no byte leaves the event log, a tick is a half-phase, `SE_XFER` is the bytes of its payload, and
each framer command is the window of its frame. -/
theorem lineEventCounts : Obligations.LineEventCounts := by
  refine ⟨fun i s t hk h => congrArg List.length (exec_leavesLink hk h).evt,
    fun s hf q hl => ⟨_, exec_seTick_quiet hf q (maskSound_of_engineLegal hl), halfPhase_evt_length s⟩, ?_⟩
  intro addr len s hl hf q hs trailer
  have hw := lenLegal_of_ne hl
  have hpayload : (payload len.toNat s).length = len.toNat := payload_length _ (by omega) s
  have htrailer : trailerLength s.curMode = trailer := trailerLength_eq s.curMode
  refine ⟨⟨_, seXferExchangesBuffer len s hl hf q hs, ?_⟩, ?_, ?_, ?_⟩
  · rw [afterBytes_evt_length, hpayload]
  · have h := exec_frame_evt_length (i := .frRaw len) rfl hw hf q hs
    rwa [frameBytes, hpayload] at h
  · have h := exec_frame_evt_length (i := .frRead addr len) rfl hw hf q hs
    rwa [frameBytes, readFrame_length, htrailer] at h
  · have h := exec_frame_evt_length (i := .frWrite addr len) rfl hw hf q hs
    rwa [frameBytes_frWrite_length, htrailer] at h

/-- Settles O7: by the stimulus that waits, if one does; a reset that waits is taken as `resetBlock`. -/
theorem stepTakesResetOrWaits : Obligations.StepTakesResetOrWaits := by
  refine fun s => ⟨fun rest hin => ?_, fun hin => ?_⟩
  · rw [step, hin]
    rfl
  · rw [step, hin]

end Sys2Proof.Machine
end

section
/-! PROOFS. The statements about the codec (spec/30_encoding.md): decoder and encoder undo each other. The decoder's half is
proved form by form: its checks at an operation code leave the fields of a word that the encoder builds again. -/

namespace Sys2Proof.Machine

/-! ## The address byte, bit by bit (R100) -/

theorem readBit_getLsbD : ∀ k < 8, readBit.getLsbD k = decide (k = 6) := by decide

/-- The mask that takes the read bit out of an address byte has every bit but that one. -/
theorem addressMask_getLsbD : ∀ k < 8, (0xBF : Byte).getLsbD k = !decide (k = 6) := by decide

/-- A read address has bit 6 set and every other bit from the address. -/
theorem readAddress_getLsbD (addr : Byte) {k : Nat} (hk : k < 8) :
    (readAddress addr).getLsbD k = if k = 6 then true else addr.getLsbD k := by
  rw [readAddress, BitVec.getLsbD_or, readBit_getLsbD k hk]
  by_cases h6 : k = 6 <;> simp [h6]

/-- An address without the read bit has bit 6 clear and every other bit as it was. -/
theorem addressMasked_getLsbD (addr : Byte) {k : Nat} (hk : k < 8) :
    (addr &&& 0xBF).getLsbD k = if k = 6 then false else addr.getLsbD k := by
  rw [BitVec.getLsbD_and, addressMask_getLsbD k hk]
  by_cases h6 : k = 6 <;> simp [h6]

/-- An address with bit 6 clear loses nothing to the mask. -/
theorem addressMasked_of_clear {addr : Byte} (h : addr.getLsbD 6 = false) : addr &&& 0xBF = addr := by
  refine BitVec.eq_of_getLsbD_eq fun k hk => ?_
  rw [addressMasked_getLsbD addr hk]
  split
  · next h6 => rw [h6, h]
  · rfl

/-- An address byte with bit 6 set is the read address of what the mask leaves of it. -/
theorem readAddress_addressMasked {b : Byte} (h : b.getLsbD 6 = true) : readAddress (b &&& 0xBF) = b := by
  refine BitVec.eq_of_getLsbD_eq fun k hk => ?_
  rw [readAddress_getLsbD _ hk, addressMasked_getLsbD b hk]
  split
  · next h6 => rw [h6, h]
  · rfl

/-- What an address byte decodes to is well-formed and has that byte as its encoding (R100). -/
theorem encode_decodeAddress (b : Byte) :
    (decodeAddress b).wf = true ∧ encode (decodeAddress b) = .address b := by
  cases h : b.getLsbD 6 with
  | true =>
    rw [decodeAddress, if_pos h]
    have hclear : (b &&& 0xBF).getLsbD 6 = false := addressMasked_getLsbD b (by decide)
    exact ⟨congrArg not hclear, congrArg Code.address (readAddress_addressMasked h)⟩
  | false =>
    rw [decodeAddress, h]
    exact ⟨congrArg not h, rfl⟩

/-- The address byte of a well-formed wire row decodes to that row (R100). -/
theorem decodeAddress_readAddress_of_clear {addr : Byte} (h : addr.getLsbD 6 = false) :
    decodeAddress (readAddress addr) = .wireReadAddr addr := by
  rw [decodeAddress_readAddress, addressMasked_of_clear h]

theorem decodeAddress_of_clear {addr : Byte} (h : addr.getLsbD 6 = false) :
    decodeAddress addr = .wireWriteAddr addr := by
  rw [decodeAddress, h]
  rfl

/-! ## The decoder on an encoded word (R93, R97) -/

theorem require_of_true {c : Bool} {why : Illegal} {i : Instr} (h : c = true) : require c why i = .ok i := if_pos h

/-- The decoder reads a mode field as a mode exactly where it is that mode's code (R13, R91). -/
theorem decodeMode_eq_ok {field : BitVec 2} {m : ChecksumMode} : decodeMode field = .ok m ↔ field = modeCode m := by
  revert field
  cases m <;> decide

theorem map_decodeMode_modeCode (m : ChecksumMode) (f : ChecksumMode → Instr) :
    (decodeMode (modeCode m)).map f = .ok (f m) := by
  rw [decodeMode_eq_ok.mpr rfl]
  rfl

/-- The decoder reads the fields of an encoded word back as the instruction, which a command word carries where its length
or index is legal (R93, R94). -/
theorem decode_encode {i : Instr} (hw : i.wf = true) : decode (encode i) = .ok i := by
  have word (op mode byte len) :
      decode (.command (commandWord op mode byte len)) = decodeFields op mode byte len :=
    decodeCommand_commandWord op mode byte len
  cases i with
  | seSend byte => exact word 0x0 0 byte 0
  | seTick => exact word 0x1 0 0 0
  | seRead => exact word 0x2 0 0 0
  | ckNew m => exact (word 0x3 _ 0 0).trans (map_decodeMode_modeCode m .ckNew)
  | ckFeed byte => exact word 0x4 0 byte 0
  | ckResult => exact word 0x5 0 0 0
  | seXfer len => exact (word 0x6 0 0 len).trans (require_of_true hw)
  | frRaw len => exact (word 0x7 0 0 len).trans (require_of_true hw)
  | frRead addr len => exact (word 0x8 0 addr len).trans (require_of_true hw)
  | frWrite addr len => exact (word 0x9 0 addr len).trans (require_of_true hw)
  | frSetMode m => exact (word 0xA _ 0 0).trans (map_decodeMode_modeCode m .frSetMode)
  | frGetMode => exact word 0xB 0 0 0
  | bufWr idx byte => exact (word 0xC 0 byte idx).trans (require_of_true hw)
  | bufRd idx => exact (word 0xD 0 0 idx).trans (require_of_true hw)
  | wireReadAddr addr => exact congrArg Except.ok (decodeAddress_readAddress_of_clear (by simpa [Instr.wf] using hw))
  | wireWriteAddr addr => exact congrArg Except.ok (decodeAddress_of_clear (by simpa [Instr.wf] using hw))

/-! ## The encoder on a decoded word (R93, R97) -/

/-- A word whose reserved bits are 0 is the word built from its other fields (R90): the fields are the word's bits, cut
without a gap. -/
theorem commandWord_fields {w : CommandWord} (hrsv1 : rsv1Field w = 0) (hrsv0 : rsv0Field w = 0) :
    commandWord (opField w) (modeField w) (byteField w) (lenField w) = w := by
  have adjacent (start len next : Nat) :
      w.extractLsb' (start + len) next ++ w.extractLsb' start len = w.extractLsb' start (next + len) :=
    BitVec.extractLsb'_append_extractLsb'_eq_extractLsb' rfl
  rw [commandWord, ← hrsv1, ← hrsv0, rsv1Field, lenField, byteField, rsv0Field, modeField, opField,
    adjacent 16 4, adjacent 8 8, adjacent 6 2, adjacent 4 2, adjacent 0 4, BitVec.extractLsb'_eq_self]

/-- An answer of the decoder that is an instruction is a well-formed one, with the given encoding. -/
def Encodes (r : Except Illegal Instr) (c : Code) : Prop := ∀ i, r = .ok i → i.wf = true ∧ encode i = c

theorem Encodes.error (why : Illegal) (c : Code) : Encodes (.error why) c := nofun

theorem Encodes.require {p : Bool} {why : Illegal} {i : Instr} {c : Code}
    (h : p = true → i.wf = true ∧ encode i = c) : Encodes (require p why i) c := by
  intro j hj
  cases p with
  | true => cases hj; exact h rfl
  | false => cases hj

theorem Encodes.ite {p : Prop} [Decidable p] {r : Except Illegal Instr} {why : Illegal} {c : Code}
    (h : p → Encodes r c) : Encodes (if p then r else .error why) c := by
  split
  · next hp => exact h hp
  · exact .error why c

/-- A mode read from its field is encoded by that field. -/
theorem Encodes.map_decodeMode {field : BitVec 2} {f : ChecksumMode → Instr} {c : BitVec 2 → Code}
    (h : ∀ m, (f m).wf = true ∧ encode (f m) = c (modeCode m)) : Encodes ((decodeMode field).map f) (c field) := by
  intro i hi
  cases hm : decodeMode field with
  | ok m =>
    rw [hm] at hi
    cases hi
    rw [decodeMode_eq_ok.mp hm]
    exact h m
  | error why =>
    rw [hm] at hi
    cases hi

/-! The forms of R97, by the fields a command uses: those it does not use are checked to be 0, as the encoder leaves them. -/

section Forms
variable {op : BitVec 4} {mode : BitVec 2} {byte : Byte} {len : BitVec 4}

theorem encodes_noOperand {i : Instr} (h : i.wf = true ∧ encode i = .command (commandWord op 0 0 0)) :
    Encodes (require (mode == 0 && byte == 0 && len == 0) .unusedField i) (.command (commandWord op mode byte len)) := by
  refine .require fun hzero => ?_
  obtain ⟨⟨rfl, rfl⟩, rfl⟩ : (mode = 0 ∧ byte = 0) ∧ len = 0 := by simpa using hzero
  exact h

theorem encodes_byte {f : Byte → Instr} (h : ∀ b, (f b).wf = true ∧ encode (f b) = .command (commandWord op 0 b 0)) :
    Encodes (require (mode == 0 && len == 0) .unusedField (f byte)) (.command (commandWord op mode byte len)) := by
  refine .require fun hzero => ?_
  obtain ⟨rfl, rfl⟩ : mode = 0 ∧ len = 0 := by simpa using hzero
  exact h byte

theorem encodes_mode {f : ChecksumMode → Instr}
    (h : ∀ m, (f m).wf = true ∧ encode (f m) = .command (commandWord op (modeCode m) 0 0)) :
    Encodes (if byte == 0 && len == 0 then (decodeMode mode).map f else .error .unusedField)
      (.command (commandWord op mode byte len)) := by
  refine .ite fun hzero => ?_
  obtain ⟨rfl, rfl⟩ : byte = 0 ∧ len = 0 := by simpa using hzero
  exact .map_decodeMode (c := fun field => .command (commandWord op field 0 0)) h

theorem encodes_len {f : BitVec 4 → Instr} {why : Illegal}
    (h : ∀ n, encode (f n) = .command (commandWord op 0 0 n)) :
    Encodes (if mode == 0 && byte == 0 then require (f len).wf why (f len) else .error .unusedField)
      (.command (commandWord op mode byte len)) := by
  refine .ite fun hzero => .require fun hlegal => ⟨hlegal, ?_⟩
  obtain ⟨rfl, rfl⟩ : mode = 0 ∧ byte = 0 := by simpa using hzero
  exact h len

theorem encodes_byteLen {f : Byte → BitVec 4 → Instr} {why : Illegal}
    (h : ∀ b n, encode (f b n) = .command (commandWord op 0 b n)) :
    Encodes (if mode == 0 then require (f byte len).wf why (f byte len) else .error .unusedField)
      (.command (commandWord op mode byte len)) := by
  refine .ite fun hzero => .require fun hlegal => ⟨hlegal, ?_⟩
  obtain rfl : mode = 0 := by simpa using hzero
  exact h byte len

end Forms

/-- At each operation code, what the decoder answers is encoded by the fields it was given. -/
theorem encodes_decodeFields (op : BitVec 4) (mode : BitVec 2) (byte : Byte) (len : BitVec 4) :
    Encodes (decodeFields op mode byte len) (.command (commandWord op mode byte len)) := by
  rcases opcode_cases op with rfl | rfl | rfl | rfl | rfl | rfl | rfl | rfl | rfl | rfl | rfl | rfl | rfl | rfl | rfl | rfl
  · exact encodes_byte (f := .seSend) fun _ => ⟨rfl, rfl⟩
  · exact encodes_noOperand (i := .seTick) ⟨rfl, rfl⟩
  · exact encodes_noOperand (i := .seRead) ⟨rfl, rfl⟩
  · exact encodes_mode (f := .ckNew) fun _ => ⟨rfl, rfl⟩
  · exact encodes_byte (f := .ckFeed) fun _ => ⟨rfl, rfl⟩
  · exact encodes_noOperand (i := .ckResult) ⟨rfl, rfl⟩
  · exact encodes_len (f := .seXfer) fun _ => rfl
  · exact encodes_len (f := .frRaw) fun _ => rfl
  · exact encodes_byteLen (f := .frRead) fun _ _ => rfl
  · exact encodes_byteLen (f := .frWrite) fun _ _ => rfl
  · exact encodes_mode (f := .frSetMode) fun _ => ⟨rfl, rfl⟩
  · exact encodes_noOperand (i := .frGetMode) ⟨rfl, rfl⟩
  · exact encodes_byteLen (f := fun b idx => .bufWr idx b) fun _ _ => rfl
  · exact encodes_len (f := .bufRd) fun _ => rfl
  · exact .error _ _
  · exact .error _ _

/-- What a command word decodes to is well-formed and has that word as its encoding (R93, R97). -/
theorem encodes_decodeCommand (w : CommandWord) : Encodes (decodeCommand w) (.command w) := by
  refine .ite fun hreserved => ?_
  obtain ⟨hrsv1, hrsv0⟩ : rsv1Field w = 0 ∧ rsv0Field w = 0 := by simpa using hreserved
  have h := encodes_decodeFields (opField w) (modeField w) (byteField w) (lenField w)
  rwa [commandWord_fields hrsv1 hrsv0] at h

/-! ## The statements -/

/-- Settles O1: each row's encoding is read back, field by field or bit by bit. -/
theorem decodeOfEncode : Obligations.DecodeOfEncode := fun _ => decode_encode

/-- Settles O2: a command word by the fields the decoder leaves of it, an address byte by its read bit. -/
theorem encodeOfDecode : Obligations.EncodeOfDecode := by
  intro c i h
  cases c with
  | command w => exact encodes_decodeCommand w i h
  | address b =>
    cases h
    exact encode_decodeAddress b

/-- Settles O5: each frame begins with its address byte, and `readAddress_getLsbD` gives the bits of a read frame's. -/
theorem addressByteBits : Obligations.AddressByteBits :=
  fun addr _ _ _ _ => ⟨rfl, rfl, fun _ hk => readAddress_getLsbD addr hk⟩

/-- Settles O4: the legal words are the encodings of their commands, and each of the others fails one check (R94, R96). -/
theorem sampleWordsDecode : Obligations.SampleWordsDecode := by
  have encoded (w : CommandWord) (i : Instr) (hw : i.wf = true) (h : encode i = .command w) :
      decode (.command w) = .ok i := h ▸ decode_encode hw
  refine ⟨encoded _ _ rfl rfl, encoded _ _ rfl rfl, encoded _ _ rfl rfl, encoded _ _ rfl rfl, encoded _ _ rfl rfl,
    encoded _ _ rfl rfl, encoded _ _ rfl rfl, rfl, rfl, rfl⟩

end Sys2Proof.Machine
end
